-- ==== Sys2Proof/Word.lean ====
section
/-! DEFINITION. The word and byte types of the core (00_scope.md R7, R15). -/

namespace Sys2Proof

/-- Every general register, program counter, coprocessor register and address is 32 bits wide (R7). -/
abbrev Word := BitVec 32

/-- The smallest addressable unit (20_memory.md R80). -/
abbrev Byte := BitVec 8

end Sys2Proof
end

