-- ==== Sys2Proof/Config.lean ====
section
/-! DEFINITION. What the spec leaves to the implementation: the draws of 00_scope.md R10 and R13, and the values this model
names for them in `State.reset`. Every value here is a DESIGN CHOICE with a row of the assumption log; claims that should
hold of every implementation are stated over an arbitrary `Draws` or an arbitrary state instead. -/

namespace Sys2Proof.Config

/-- The registers whose values after construction the spec leaves open (R10, R13; 92_eei_decisions.md P1, P4, P5).
`RAM_INIT` and `ROM_IMAGE` (P2, P3) are the memory that `State.resetOf` and `construct` take. The one constraint the spec
puts on the draws, `GPR_INIT != 0` (R10), is a field: there are no draws, and so no machine, without it. -/
structure Draws where
  gprInit : Word
  gprNonZero : gprInit ≠ 0#32
  hiInit : Word
  loInit : Word
  epcInit : Word
  badvInit : Word
  deriving DecidableEq, Repr

/-- The draws of `State.reset`. DESIGN CHOICE, unsafe: log 1 (`GPR_INIT`, non-zero as R10 asks), log 2 (`HI`, `LO`) and
log 3 (`EPC`, `BADV`). -/
def draws : Draws :=
  { gprInit := 0xDEADBEEF#32, gprNonZero := by decide, hiInit := 0#32, loInit := 0#32, epcInit := 0#32, badvInit := 0#32 }

/-- What a byte of RAM or ROM that the memory list does not name reads as. DESIGN CHOICE, unsafe: log 4 (`RAM_INIT`) and
log 5 (`ROM_IMAGE`). -/
def unlistedByte : Byte := 0x00#8

end Sys2Proof.Config
end

