-- ==== Sys2Proof/Syntax.lean ====
section
/-! DEFINITION. The instructions: one constructor per row of spec/opcode_table.json, with the operands the row's rule
reads, in the operand order of 30_encoding.md R137. A field that no rule reads is no operand (R134, log 10). -/

namespace Sys2Proof

/-- A register index, general or COP0: a 5-bit number (10_state.md R20, R35). -/
abbrev Reg := Fin 32

/-- The instruction set (00_scope.md R2; 30_encoding.md R128 to R132). -/
inductive Instr where
  -- shifts, SPECIAL (40_alu.md R161 to R166)
  | sll (rd rt : Reg) (sa : BitVec 5)
  | srl (rd rt : Reg) (sa : BitVec 5)
  | sra (rd rt : Reg) (sa : BitVec 5)
  | sllv (rd rt rs : Reg)
  | srlv (rd rt rs : Reg)
  | srav (rd rt rs : Reg)
  -- register jumps and software traps (42_branch_jump.md R214, R215; 44_system_cop.md R272, R273)
  | jr (rs : Reg)
  | jalr (rd rs : Reg)
  | syscall
  | brk
  -- HI/LO, multiply and divide (41_muldiv.md R191 to R198)
  | mfhi (rd : Reg)
  | mthi (rs : Reg)
  | mflo (rd : Reg)
  | mtlo (rs : Reg)
  | mult (rs rt : Reg)
  | multu (rs rt : Reg)
  | div (rs rt : Reg)
  | divu (rs rt : Reg)
  -- register arithmetic and logic (40_alu.md R151 to R160)
  | add (rd rs rt : Reg)
  | addu (rd rs rt : Reg)
  | sub (rd rs rt : Reg)
  | subu (rd rs rt : Reg)
  | and (rd rs rt : Reg)
  | or (rd rs rt : Reg)
  | xor (rd rs rt : Reg)
  | nor (rd rs rt : Reg)
  | slt (rd rs rt : Reg)
  | sltu (rd rs rt : Reg)
  -- branches and jumps (42_branch_jump.md R212, R213, R216 to R223)
  | bltz (rs : Reg) (imm : BitVec 16)
  | bgez (rs : Reg) (imm : BitVec 16)
  | bltzal (rs : Reg) (imm : BitVec 16)
  | bgezal (rs : Reg) (imm : BitVec 16)
  | j (target : BitVec 26)
  | jal (target : BitVec 26)
  | beq (rs rt : Reg) (imm : BitVec 16)
  | bne (rs rt : Reg) (imm : BitVec 16)
  | blez (rs : Reg) (imm : BitVec 16)
  | bgtz (rs : Reg) (imm : BitVec 16)
  -- immediate arithmetic and logic (40_alu.md R167 to R174)
  | addi (rt rs : Reg) (imm : BitVec 16)
  | addiu (rt rs : Reg) (imm : BitVec 16)
  | slti (rt rs : Reg) (imm : BitVec 16)
  | sltiu (rt rs : Reg) (imm : BitVec 16)
  | andi (rt rs : Reg) (imm : BitVec 16)
  | ori (rt rs : Reg) (imm : BitVec 16)
  | xori (rt rs : Reg) (imm : BitVec 16)
  | lui (rt : Reg) (imm : BitVec 16)
  -- coprocessor 0 (44_system_cop.md R274 to R276)
  | mfc0 (rt rd : Reg)
  | mtc0 (rt rd : Reg)
  | rfe
  -- coprocessors 1 to 3, decoded by op alone (30_encoding.md R132; 44_system_cop.md R280 to R283)
  | cop1
  | cop2
  | cop3
  -- loads and stores (43_load_store.md R241 to R252)
  | lb (rt rs : Reg) (imm : BitVec 16)
  | lh (rt rs : Reg) (imm : BitVec 16)
  | lwl (rt rs : Reg) (imm : BitVec 16)
  | lw (rt rs : Reg) (imm : BitVec 16)
  | lbu (rt rs : Reg) (imm : BitVec 16)
  | lhu (rt rs : Reg) (imm : BitVec 16)
  | lwr (rt rs : Reg) (imm : BitVec 16)
  | sb (rt rs : Reg) (imm : BitVec 16)
  | sh (rt rs : Reg) (imm : BitVec 16)
  | swl (rt rs : Reg) (imm : BitVec 16)
  | sw (rt rs : Reg) (imm : BitVec 16)
  | swr (rt rs : Reg) (imm : BitVec 16)
  -- coprocessor loads and stores, decoded by op alone (30_encoding.md R132; 44_system_cop.md R284 to R286)
  | lwc0
  | lwc1
  | lwc2
  | lwc3
  | swc0
  | swc1
  | swc2
  | swc3
  deriving DecidableEq, Repr

end Sys2Proof
end

