-- ==== Sys2Proof/Machine/State.lean ====
section
/-! DEFINITION. The state of the core as plain data (10_state.md), the reasons a step can stop, and the state right after
construction (70_reset_and_hazards.md R340). -/

namespace Sys2Proof.Machine

/-- RAM and ROM contents: (physical address, byte) pairs, addresses strictly rising, no entry equal to
`Config.unlistedByte` (log 12). `Memory.wf` in Machine/Memory.lean says so. -/
abbrev Memory := List Host.Cell

/-- One event of the diagnostic channel: a discarded unmapped store, with its virtual address, its width in bytes and its
value (20_memory.md R92, R96). -/
structure DiagEvent where
  va : Word
  width : Nat
  value : Word
  deriving DecidableEq, Repr

/-- Why the machine stops without a next state. The hardware itself has no halting fault (15_pipeline.md R60): every error
is an exception the model takes. -/
inductive Fault where
  /-- Raised by `step` alone, on a state already marked `refused`: a refused run has no further states (00_scope.md R19,
  15_pipeline.md R71). Safe: nothing can be proved of such a run. -/
  | refusedRun
  deriving DecidableEq, Repr

/-- Why the model gives an instruction no meaning: the closed list of 00_scope.md R19, and the host's marker. -/
inductive Refusal where
  /-- An arm of `exec` whose meaning is not written. No arm raises it. Safe. -/
  | notModelled (mnemonic : String)
  /-- `execCop2`, `execLwc2` and `execSwc2` while Status.CU2 = 1 (44_system_cop.md R283, R286). Safe. -/
  | cop2Present
  /-- Every branch and jump that executes in a branch delay slot (42_branch_jump.md R211). Safe. -/
  | branchInDelaySlot
  deriving DecidableEq, Repr

/-- The exceptions this core raises, with the information each records (60_exceptions.md R300). -/
inductive ExceptionKind where
  | interrupt
  | addressLoadError (badv : Word)
  | addressStoreError (badv : Word)
  | systemCall
  | breakpoint
  | reservedInstruction
  | coprocessorUnusable (ce : BitVec 2)
  | arithmeticOverflow
  deriving DecidableEq, Repr

/-- The privilege modes (60_exceptions.md R323). -/
inductive Mode where
  | kernel
  | user
  deriving DecidableEq, Repr

/-- Everything the spec gives the machine (10_state.md), the input `int_in`, and the model's own output `diag`. -/
structure State where
  /-- `x[0..31]` (R20). Slot 0 is never read or written: `State.reg` and `State.writeReg` are the accessors (R21). -/
  regs : Vector Word 32
  /-- The current program counter (R24). -/
  pc : Word
  /-- The predicted-next program counter (R24). -/
  npc : Word
  /-- The address the step's instruction was fetched from (R27). -/
  ipc : Word
  /-- The step's instruction is in a branch delay slot (15_pipeline.md R61; log 6). -/
  inDelay : Bool
  /-- And the branch before it was taken (15_pipeline.md R61; log 6). -/
  inTaken : Bool
  /-- Load-delay slot 0, "due" (R28); `none` is the spec's "empty". -/
  ld0 : Option (Reg × Word)
  /-- Load-delay slot 1, "not yet due" (R28). -/
  ld1 : Option (Reg × Word)
  /-- The previous instruction was a branch or jump (R30). -/
  brFlag : Bool
  /-- And its redirect was taken (R30). -/
  tkFlag : Bool
  /-- `HI` (R33). -/
  hi : Word
  /-- `LO` (R33). -/
  lo : Word
  /-- Status, COP0 register 12 (R36, R37). -/
  sr : Word
  /-- Cause, COP0 register 13 (R40). -/
  cause : Word
  /-- EPC, COP0 register 14 (R44). -/
  epc : Word
  /-- BadVAddr, COP0 register 8 (R45). -/
  badv : Word
  /-- The cache-control register (R46). -/
  ccr : Word
  /-- RAM and boot ROM (R49, R50), by physical address (log 12). -/
  mem : Memory
  /-- The input lines `int_in` (R42; log 7). -/
  intIn : BitVec 6
  /-- The diagnostic events of the current step, oldest first: an output, not architectural state (20_memory.md R96; log 9). -/
  diag : List DiagEvent
  /-- The model's mark of a refused run (R52; log 8). -/
  refused : Bool
  deriving DecidableEq, Repr

/-- What a meaning and a step answer. -/
abbrev Result := Host.Outcome State Fault Refusal

/-- The state after construction (70_reset_and_hazards.md R340), for any draws and any RAM and ROM contents. -/
def State.resetOf (d : Config.Draws) (mem : Memory) : State :=
  { regs := (Vector.replicate 32 d.gprInit).set 0 0#32
    pc := 0xBFC00000#32
    npc := 0xBFC00004#32
    ipc := 0#32
    inDelay := false
    inTaken := false
    ld0 := none
    ld1 := none
    brFlag := false
    tkFlag := false
    hi := d.hiInit
    lo := d.loInit
    sr := 0x00400000#32
    cause := 0x00000000#32
    epc := d.epcInit
    badv := d.badvInit
    ccr := 0x00000000#32
    mem := mem
    intIn := 0#6
    diag := []
    refused := false }

/-- The machine right after reset, with the draws of logs 1 to 3 and nothing listed in memory (logs 4 and 5). -/
def State.reset : State := State.resetOf Config.draws []

end Sys2Proof.Machine
end

