-- ==== Sys2Proof/Machine/Flags.lean ====
section
/-! DEFINITION. The core has no condition codes (10_state.md R32). What other machines call flags is here: the fields of
Status and Cause (10_state.md R36, R40), the Status stack (60_exceptions.md R313, 44_system_cop.md R276), the signed
overflow tests (40_alu.md R176) and the comparisons. -/

namespace Sys2Proof.Machine

/-! ### Status fields (10_state.md R36) -/

/-- IEc, `SR[0]`. -/
def State.ieC (s : State) : Bool := s.sr.getLsbD 0
/-- KUc, `SR[1]`: 0 = kernel, 1 = user. -/
def State.kuC (s : State) : Bool := s.sr.getLsbD 1
/-- IM, `SR[15:8]`. -/
def State.im (s : State) : BitVec 8 := s.sr.extractLsb' 8 8
/-- IsC, `SR[16]`. -/
def State.isC (s : State) : Bool := s.sr.getLsbD 16
/-- BEV, `SR[22]`. -/
def State.bev (s : State) : Bool := s.sr.getLsbD 22
/-- CUz, `SR[28 + z]`. -/
def State.cu (s : State) (z : Fin 4) : Bool := s.sr.getLsbD (28 + z.val)

/-- The current privilege mode (60_exceptions.md R323). -/
def State.mode (s : State) : Mode := if s.kuC then .user else .kernel

/-- Exception entry's push: `KUo,IEo <- KUp,IEp <- KUc,IEc <- 0,0`, other bits unchanged (60_exceptions.md R313). -/
def pushStatus (sr : Word) : Word := sr.extractLsb' 6 26 ++ sr.extractLsb' 0 4 ++ 0#2

/-- RFE's pop: `SR[3:0] <- SR[5:2]`, other bits unchanged (44_system_cop.md R276). -/
def popStatus (sr : Word) : Word := sr.extractLsb' 4 28 ++ sr.extractLsb' 2 4

/-! ### Cause fields (10_state.md R40) -/

/-- IP, `CAUSE[15:8]`. -/
def State.ip (s : State) : BitVec 8 := s.cause.extractLsb' 8 8
/-- ExcCode, `CAUSE[6:2]`. -/
def excCode (cause : Word) : BitVec 5 := cause.extractLsb' 2 5

/-- Cause after exception entry: BD, BT and ExcCode are written, CE only when the exception names a coprocessor, every
other bit stays (60_exceptions.md R310). -/
def causeOnEntry (cause : Word) (bd bt : Bool) (ce : Option (BitVec 2)) (code : BitVec 5) : Word :=
  BitVec.ofBool bd ++ BitVec.ofBool bt ++ ce.getD (cause.extractLsb' 28 2) ++ cause.extractLsb' 7 21 ++ code
    ++ cause.extractLsb' 0 2

/-- Cause after the input sample: `CAUSE[15:10] <- int_in[5:0]` (10_state.md R42). -/
def causeWithLines (cause : Word) (lines : BitVec 6) : Word := cause.extractLsb' 16 16 ++ lines ++ cause.extractLsb' 0 10

/-- Cause after MTC0: `CAUSE[9:8] <- v[9:8]` (10_state.md R41). -/
def causeWithSoftwareBits (cause v : Word) : Word := cause.extractLsb' 10 22 ++ v.extractLsb' 8 2 ++ cause.extractLsb' 0 8

/-- The pending-interrupt condition (10_state.md R51, 60_exceptions.md R319). -/
def State.interruptRequested (s : State) : Bool := s.ieC && decide (s.ip &&& s.im ≠ 0)

/-! ### Coprocessor usability -/

/-- COP0 is usable in kernel mode, and in user mode when CU0 = 1 (44_system_cop.md R270). -/
def State.cop0Usable (s : State) : Bool := !s.kuC || s.cu 0

/-- Coprocessor z: R270 for z = 0; for 1 to 3 exactly when CUz = 1, in every mode (44_system_cop.md R271). -/
def State.copUsable (s : State) (z : Fin 4) : Bool := if z = 0 then s.cop0Usable else s.cu z

/-! ### Signed overflow -/

/-- The integer fits in 32 signed bits. -/
def fitsSigned32 (n : Int) : Bool := decide (-2147483648 ≤ n) && decide (n ≤ 2147483647)

/-- The exact signed sum does not fit (40_alu.md R151, R167). -/
def addOverflows (a b : Word) : Bool := !fitsSigned32 (a.toInt + b.toInt)

/-- The exact signed difference does not fit (40_alu.md R153). -/
def subOverflows (a b : Word) : Bool := !fitsSigned32 (a.toInt - b.toInt)

/-- The bit form of the addition test (40_alu.md R176). -/
def ovfAdd (a b : Word) : Bool := a.msb == b.msb && (a + b).msb != a.msb

/-- The bit form of the subtraction test (40_alu.md R176). -/
def ovfSub (a b : Word) : Bool := a.msb != b.msb && (a - b).msb != a.msb

/-! ### Comparisons -/

/-- `(c ? 1 : 0)` as a word. -/
def boolWord (c : Bool) : Word := if c then 1#32 else 0#32

/-- `signed(a) < signed(b)` (40_alu.md R159, R169). -/
def ltSigned (a b : Word) : Bool := decide (a.toInt < b.toInt)

/-- `unsigned(a) < unsigned(b)` (40_alu.md R160, R170). -/
def ltUnsigned (a b : Word) : Bool := decide (a.toNat < b.toNat)

end Sys2Proof.Machine
end

