-- ==== Sys2Proof/Machine/Memory.lean ====
section
/-! DEFINITION. The memory list, the address decoder and the bus map (20_memory.md R81 to R90). -/

namespace Sys2Proof.Machine

/-! ### The memory list -/

/-- The byte at a physical address (R88, R89). -/
def Memory.read : Memory → Nat → Byte
  | [], _ => Config.unlistedByte
  | (k, c) :: rest, a => if a = k then c else Memory.read rest a

/-- The list entry of byte `b` at `a`, before the entries of `rest`: none when `b` is what an unlisted address reads as. -/
def Memory.entry (a : Nat) (b : Byte) (rest : Memory) : Memory :=
  if b = Config.unlistedByte then rest else (a, b) :: rest

/-- Write one byte, keeping the canonical form. -/
def Memory.write : Memory → Nat → Byte → Memory
  | [], a, b => Memory.entry a b []
  | (k, c) :: rest, a, b =>
    if a < k then Memory.entry a b ((k, c) :: rest)
    else if a = k then Memory.entry a b rest
    else (k, c) :: Memory.write rest a b

/-- Every key of the list is at least `lo`, the keys rise strictly and no entry is the unlisted byte. -/
def Memory.wfFrom : Nat → Memory → Bool
  | _, [] => true
  | lo, (k, c) :: rest => decide (lo ≤ k) && decide (c ≠ Config.unlistedByte) && Memory.wfFrom (k + 1) rest

/-- The canonical form (log 12). -/
def Memory.wf (m : Memory) : Bool := Memory.wfFrom 0 m

/-! ### Segments (R81, R82) -/

/-- The mask of the segment that address bits 31:29 select. -/
def segmentMask (top : BitVec 3) : Word :=
  match top with
  | 0#3 | 1#3 | 2#3 | 3#3 => 0xFFFFFFFF#32
  | 4#3 => 0x7FFFFFFF#32
  | 5#3 => 0x1FFFFFFF#32
  | _ => 0xFFFFFFFF#32

/-- `Translate`: a total function from virtual to physical addresses (R81, R83). -/
def physical (va : Word) : Word := va &&& segmentMask (va.extractLsb' 29 3)

/-! ### The device map (R85) -/

/-- The devices of the physical map. -/
inductive Device where
  | ram
  | expansion1
  | memoryControl
  | ramSize
  | sound
  | expansion2
  | bootRom
  deriving DecidableEq, Repr

/-- One row of the physical map. -/
structure DeviceRow where
  device : Device
  base : Nat
  length : Nat
  deriving DecidableEq, Repr

/-- RAM is 2 MiB (00_scope.md R11). -/
def ramSize : Nat := 0x200000

/-- The boot ROM's physical base (R85). -/
def romBase : Nat := 0x1FC00000

/-- The boot ROM is 512 KiB (00_scope.md R11). -/
def romSize : Nat := 0x80000

/-- The physical map in the bus's priority order (R85). -/
def deviceMap : List DeviceRow :=
  [⟨.ram, 0x00000000, ramSize⟩,
   ⟨.expansion1, 0x1F000000, 0x80000⟩,
   ⟨.memoryControl, 0x1F801000, 36⟩,
   ⟨.ramSize, 0x1F801060, 4⟩,
   ⟨.sound, 0x1F801C00, 640⟩,
   ⟨.expansion2, 0x1F802000, 66⟩,
   ⟨.bootRom, romBase, romSize⟩]

/-- The row holds the physical address. -/
def DeviceRow.holds (r : DeviceRow) (p : Nat) : Bool := decide (r.base ≤ p) && decide (p < r.base + r.length)

/-- The first row that holds the physical address (R86). -/
def findRow (p : Nat) : Option DeviceRow := deviceMap.find? (·.holds p)

/-- Where the bus sends an access, with the offset of its lowest byte. -/
inductive BusTarget where
  | ccr (offset : Nat)
  | ram (offset : Nat)
  | rom (offset : Nat)
  | stub
  deriving DecidableEq, Repr

/-- First byte of the cache-control register (R87). -/
def ccrBase : Nat := 0xFFFE0130

/-- What answers an access that a row receives at offset `o` (R85). -/
def Device.target (d : Device) (o : Nat) : BusTarget :=
  match d with
  | .ram => .ram o
  | .bootRom => .rom o
  | .expansion1 | .memoryControl | .ramSize | .sound | .expansion2 => .stub

/-- Routing of a bus access by the virtual address of its lowest byte: the cache-control register before translation
(R87), then the physical map (R86); `none` is unmapped (R91, R92). -/
def busTarget (va : Word) : Option BusTarget :=
  if ccrBase ≤ va.toNat ∧ va.toNat < ccrBase + 4 then some (.ccr (va.toNat - ccrBase))
  else (findRow (physical va).toNat).map fun r => r.device.target ((physical va).toNat - r.base)

/-- A physical address whose byte the memory list may name: RAM or boot ROM. -/
def backed (p : Nat) : Bool := decide (p < ramSize) || (decide (romBase ≤ p) && decide (p < romBase + romSize))

/-- Every entry of the list lies in RAM or in the boot ROM. -/
def Memory.inMap (m : Memory) : Bool := m.all fun c => backed c.1

end Sys2Proof.Machine
end

