-- ==== Sys2Proof/WellFormed.lean ====
section
/-! DEFINITION. Well-formedness of an encoding. Every operand of `Instr` has a type that holds exactly the values its
field admits (`Fin 32` for a register index, `BitVec 5`, `BitVec 16`, `BitVec 26` for `sa`, `imm`, `target`: 30_encoding.md
R121), so every term of `Instr` is well formed and no check on `Instr` is left to make. What can be ill formed is the
opcode table: a row whose pattern has bits outside its mask, or two rows that claim the same word (R136: "every 32-bit word
decodes to exactly one instruction"). -/

namespace Sys2Proof

/-- One row of spec/opcode_table.json: a word belongs to the row when its bits under `mask` are `pattern`. -/
structure EncodingRow where
  mnemonic : String
  pattern : Word
  mask : Word
  deriving DecidableEq, Repr

/-- The row claims the word. -/
def EncodingRow.claims (r : EncodingRow) (w : Word) : Bool := w &&& r.mask = r.pattern

/-- The pattern lies within the mask, so that some word belongs to the row. -/
def EncodingRow.wf (r : EncodingRow) : Bool := r.pattern &&& ~~~r.mask = 0

/-- The two rows differ in a bit that both fix, so that no word belongs to both. -/
def EncodingRow.disjoint (a b : EncodingRow) : Bool := (a.pattern ^^^ b.pattern) &&& (a.mask &&& b.mask) ≠ 0

/-- A table whose rows are each well formed and pairwise disjoint: no word has two readings (R136). -/
def encodingTableWf : List EncodingRow → Bool
  | [] => true
  | r :: rest => r.wf && rest.all r.disjoint && encodingTableWf rest

end Sys2Proof
end

