-- ==== Sys2Proof/Decode.lean ====
section
/-! DEFINITION. Decoding and encoding (30_encoding.md). `decode` follows the spec's dispatch (R128 to R131) and is total on
32-bit words (R136); `decodeBytes` is total on byte lists; a word that is no instruction is rejected by name. `encode`
writes an instruction's word from the format tables (R122 to R124), with every don't-care field (R134) zero. -/

namespace Sys2Proof

/-- Why bytes are no instruction. The first four are the reserved encodings of R133, which the step turns into an
exception; `truncated` is fewer than four bytes (R120), which no fetch produces. -/
inductive DecodeReject where
  /-- A slot marked "—" of the primary map (R128). -/
  | reservedOpcode
  /-- A slot marked "—" of the SPECIAL map (R129). -/
  | reservedFunct
  /-- A REGIMM word whose `rt` is none of 0, 1, 16, 17 (R130). -/
  | reservedRegimm
  /-- An op-16 word that is none of MFC0, MTC0, RFE (R131); its COP0 usability is checked first (R270, R277). -/
  | reservedCop0
  /-- Fewer than four bytes. -/
  | truncated
  deriving DecidableEq, Repr

/-! ### Fields of a word (R121) -/

/-- Bits 31:26. -/
def opField (w : Word) : BitVec 6 := w.extractLsb' 26 6
/-- Bits 25:21. -/
def rsField (w : Word) : Reg := (w.extractLsb' 21 5).toFin
/-- Bits 20:16. -/
def rtField (w : Word) : Reg := (w.extractLsb' 16 5).toFin
/-- Bits 15:11. -/
def rdField (w : Word) : Reg := (w.extractLsb' 11 5).toFin
/-- Bits 10:6. -/
def saField (w : Word) : BitVec 5 := w.extractLsb' 6 5
/-- Bits 5:0. -/
def functField (w : Word) : BitVec 6 := w.extractLsb' 0 6
/-- Bits 15:0. -/
def immField (w : Word) : BitVec 16 := w.extractLsb' 0 16
/-- Bits 25:0. -/
def targetField (w : Word) : BitVec 26 := w.extractLsb' 0 26

/-! ### Dispatch -/

/-- Secondary dispatch for op = 0 on `funct` (R129). -/
def decodeSpecial (w : Word) : Except DecodeReject Instr :=
  match functField w with
  | 0x00#6 => .ok (.sll (rdField w) (rtField w) (saField w))
  | 0x02#6 => .ok (.srl (rdField w) (rtField w) (saField w))
  | 0x03#6 => .ok (.sra (rdField w) (rtField w) (saField w))
  | 0x04#6 => .ok (.sllv (rdField w) (rtField w) (rsField w))
  | 0x06#6 => .ok (.srlv (rdField w) (rtField w) (rsField w))
  | 0x07#6 => .ok (.srav (rdField w) (rtField w) (rsField w))
  | 0x08#6 => .ok (.jr (rsField w))
  | 0x09#6 => .ok (.jalr (rdField w) (rsField w))
  | 0x0C#6 => .ok .syscall
  | 0x0D#6 => .ok .brk
  | 0x10#6 => .ok (.mfhi (rdField w))
  | 0x11#6 => .ok (.mthi (rsField w))
  | 0x12#6 => .ok (.mflo (rdField w))
  | 0x13#6 => .ok (.mtlo (rsField w))
  | 0x18#6 => .ok (.mult (rsField w) (rtField w))
  | 0x19#6 => .ok (.multu (rsField w) (rtField w))
  | 0x1A#6 => .ok (.div (rsField w) (rtField w))
  | 0x1B#6 => .ok (.divu (rsField w) (rtField w))
  | 0x20#6 => .ok (.add (rdField w) (rsField w) (rtField w))
  | 0x21#6 => .ok (.addu (rdField w) (rsField w) (rtField w))
  | 0x22#6 => .ok (.sub (rdField w) (rsField w) (rtField w))
  | 0x23#6 => .ok (.subu (rdField w) (rsField w) (rtField w))
  | 0x24#6 => .ok (.and (rdField w) (rsField w) (rtField w))
  | 0x25#6 => .ok (.or (rdField w) (rsField w) (rtField w))
  | 0x26#6 => .ok (.xor (rdField w) (rsField w) (rtField w))
  | 0x27#6 => .ok (.nor (rdField w) (rsField w) (rtField w))
  | 0x2A#6 => .ok (.slt (rdField w) (rsField w) (rtField w))
  | 0x2B#6 => .ok (.sltu (rdField w) (rsField w) (rtField w))
  | _ => .error .reservedFunct

/-- REGIMM dispatch for op = 1 on `rt` (R130): only 0, 1, 16 and 17 are instructions. -/
def decodeRegimm (w : Word) : Except DecodeReject Instr :=
  match rtField w with
  | 0 => .ok (.bltz (rsField w) (immField w))
  | 1 => .ok (.bgez (rsField w) (immField w))
  | 16 => .ok (.bltzal (rsField w) (immField w))
  | 17 => .ok (.bgezal (rsField w) (immField w))
  | _ => .error .reservedRegimm

/-- COP0 dispatch for op = 16 on `rs`, then on `funct` for rs = 16 (R131). -/
def decodeCop0 (w : Word) : Except DecodeReject Instr :=
  match rsField w with
  | 0 => .ok (.mfc0 (rtField w) (rdField w))
  | 4 => .ok (.mtc0 (rtField w) (rdField w))
  | 16 => if functField w = 0x10#6 then .ok .rfe else .error .reservedCop0
  | _ => .error .reservedCop0

/-- Primary dispatch on `op` (R128); COP1 to COP3 and LWCz/SWCz are decoded by `op` alone (R132). -/
def decode (w : Word) : Except DecodeReject Instr :=
  match opField w with
  | 0x00#6 => decodeSpecial w
  | 0x01#6 => decodeRegimm w
  | 0x02#6 => .ok (.j (targetField w))
  | 0x03#6 => .ok (.jal (targetField w))
  | 0x04#6 => .ok (.beq (rsField w) (rtField w) (immField w))
  | 0x05#6 => .ok (.bne (rsField w) (rtField w) (immField w))
  | 0x06#6 => .ok (.blez (rsField w) (immField w))
  | 0x07#6 => .ok (.bgtz (rsField w) (immField w))
  | 0x08#6 => .ok (.addi (rtField w) (rsField w) (immField w))
  | 0x09#6 => .ok (.addiu (rtField w) (rsField w) (immField w))
  | 0x0A#6 => .ok (.slti (rtField w) (rsField w) (immField w))
  | 0x0B#6 => .ok (.sltiu (rtField w) (rsField w) (immField w))
  | 0x0C#6 => .ok (.andi (rtField w) (rsField w) (immField w))
  | 0x0D#6 => .ok (.ori (rtField w) (rsField w) (immField w))
  | 0x0E#6 => .ok (.xori (rtField w) (rsField w) (immField w))
  | 0x0F#6 => .ok (.lui (rtField w) (immField w))
  | 0x10#6 => decodeCop0 w
  | 0x11#6 => .ok .cop1
  | 0x12#6 => .ok .cop2
  | 0x13#6 => .ok .cop3
  | 0x20#6 => .ok (.lb (rtField w) (rsField w) (immField w))
  | 0x21#6 => .ok (.lh (rtField w) (rsField w) (immField w))
  | 0x22#6 => .ok (.lwl (rtField w) (rsField w) (immField w))
  | 0x23#6 => .ok (.lw (rtField w) (rsField w) (immField w))
  | 0x24#6 => .ok (.lbu (rtField w) (rsField w) (immField w))
  | 0x25#6 => .ok (.lhu (rtField w) (rsField w) (immField w))
  | 0x26#6 => .ok (.lwr (rtField w) (rsField w) (immField w))
  | 0x28#6 => .ok (.sb (rtField w) (rsField w) (immField w))
  | 0x29#6 => .ok (.sh (rtField w) (rsField w) (immField w))
  | 0x2A#6 => .ok (.swl (rtField w) (rsField w) (immField w))
  | 0x2B#6 => .ok (.sw (rtField w) (rsField w) (immField w))
  | 0x2E#6 => .ok (.swr (rtField w) (rsField w) (immField w))
  | 0x30#6 => .ok .lwc0
  | 0x31#6 => .ok .lwc1
  | 0x32#6 => .ok .lwc2
  | 0x33#6 => .ok .lwc3
  | 0x38#6 => .ok .swc0
  | 0x39#6 => .ok .swc1
  | 0x3A#6 => .ok .swc2
  | 0x3B#6 => .ok .swc3
  | _ => .error .reservedOpcode

/-! ### Bytes (R93, R120): an instruction is one little-endian word -/

/-- The word whose bytes, from the lowest address up, are `b0 b1 b2 b3` (R93). -/
def wordOfBytes (b0 b1 b2 b3 : Byte) : Word := b3 ++ b2 ++ b1 ++ b0

/-- Byte `i` of a word, counted from the least significant (R93). -/
def byteOf (v : Word) (i : Nat) : Byte := v.extractLsb' (8 * i) 8

/-- The four bytes of a word from the lowest address up (R93). -/
def bytesOfWord (w : Word) : List Byte := [byteOf w 0, byteOf w 1, byteOf w 2, byteOf w 3]

/-- Decode the instruction at the head of a byte list; the rest of the list is what follows it. -/
def decodeBytes : List Byte → Except DecodeReject (Instr × List Byte)
  | b0 :: b1 :: b2 :: b3 :: rest =>
    match decode (wordOfBytes b0 b1 b2 b3) with
    | .ok i => .ok (i, rest)
    | .error e => .error e
  | _ => .error .truncated

/-! ### Encoding -/

/-- The five bits of a register index. -/
def regBits (r : Reg) : BitVec 5 := BitVec.ofFin r

/-- R-format: `op | rs | rt | rd | sa | funct` (R122). -/
def rWord (op : BitVec 6) (rs rt rd : Reg) (sa : BitVec 5) (funct : BitVec 6) : Word :=
  op ++ regBits rs ++ regBits rt ++ regBits rd ++ sa ++ funct

/-- I-format: `op | rs | rt | imm` (R123). -/
def iWord (op : BitVec 6) (rs rt : Reg) (imm : BitVec 16) : Word := op ++ regBits rs ++ regBits rt ++ imm

/-- J-format: `op | target` (R124); also the words decoded by `op` alone (R132). -/
def jWord (op : BitVec 6) (target : BitVec 26) : Word := op ++ target

/-- The word of an instruction, every field its rule does not read being zero (R134). -/
def encode : Instr → Word
  | .sll rd rt sa => rWord 0x00#6 0 rt rd sa 0x00#6
  | .srl rd rt sa => rWord 0x00#6 0 rt rd sa 0x02#6
  | .sra rd rt sa => rWord 0x00#6 0 rt rd sa 0x03#6
  | .sllv rd rt rs => rWord 0x00#6 rs rt rd 0#5 0x04#6
  | .srlv rd rt rs => rWord 0x00#6 rs rt rd 0#5 0x06#6
  | .srav rd rt rs => rWord 0x00#6 rs rt rd 0#5 0x07#6
  | .jr rs => rWord 0x00#6 rs 0 0 0#5 0x08#6
  | .jalr rd rs => rWord 0x00#6 rs 0 rd 0#5 0x09#6
  | .syscall => rWord 0x00#6 0 0 0 0#5 0x0C#6
  | .brk => rWord 0x00#6 0 0 0 0#5 0x0D#6
  | .mfhi rd => rWord 0x00#6 0 0 rd 0#5 0x10#6
  | .mthi rs => rWord 0x00#6 rs 0 0 0#5 0x11#6
  | .mflo rd => rWord 0x00#6 0 0 rd 0#5 0x12#6
  | .mtlo rs => rWord 0x00#6 rs 0 0 0#5 0x13#6
  | .mult rs rt => rWord 0x00#6 rs rt 0 0#5 0x18#6
  | .multu rs rt => rWord 0x00#6 rs rt 0 0#5 0x19#6
  | .div rs rt => rWord 0x00#6 rs rt 0 0#5 0x1A#6
  | .divu rs rt => rWord 0x00#6 rs rt 0 0#5 0x1B#6
  | .add rd rs rt => rWord 0x00#6 rs rt rd 0#5 0x20#6
  | .addu rd rs rt => rWord 0x00#6 rs rt rd 0#5 0x21#6
  | .sub rd rs rt => rWord 0x00#6 rs rt rd 0#5 0x22#6
  | .subu rd rs rt => rWord 0x00#6 rs rt rd 0#5 0x23#6
  | .and rd rs rt => rWord 0x00#6 rs rt rd 0#5 0x24#6
  | .or rd rs rt => rWord 0x00#6 rs rt rd 0#5 0x25#6
  | .xor rd rs rt => rWord 0x00#6 rs rt rd 0#5 0x26#6
  | .nor rd rs rt => rWord 0x00#6 rs rt rd 0#5 0x27#6
  | .slt rd rs rt => rWord 0x00#6 rs rt rd 0#5 0x2A#6
  | .sltu rd rs rt => rWord 0x00#6 rs rt rd 0#5 0x2B#6
  | .bltz rs imm => iWord 0x01#6 rs 0 imm
  | .bgez rs imm => iWord 0x01#6 rs 1 imm
  | .bltzal rs imm => iWord 0x01#6 rs 16 imm
  | .bgezal rs imm => iWord 0x01#6 rs 17 imm
  | .j target => jWord 0x02#6 target
  | .jal target => jWord 0x03#6 target
  | .beq rs rt imm => iWord 0x04#6 rs rt imm
  | .bne rs rt imm => iWord 0x05#6 rs rt imm
  | .blez rs imm => iWord 0x06#6 rs 0 imm
  | .bgtz rs imm => iWord 0x07#6 rs 0 imm
  | .addi rt rs imm => iWord 0x08#6 rs rt imm
  | .addiu rt rs imm => iWord 0x09#6 rs rt imm
  | .slti rt rs imm => iWord 0x0A#6 rs rt imm
  | .sltiu rt rs imm => iWord 0x0B#6 rs rt imm
  | .andi rt rs imm => iWord 0x0C#6 rs rt imm
  | .ori rt rs imm => iWord 0x0D#6 rs rt imm
  | .xori rt rs imm => iWord 0x0E#6 rs rt imm
  | .lui rt imm => iWord 0x0F#6 0 rt imm
  | .mfc0 rt rd => rWord 0x10#6 0 rt rd 0#5 0x00#6
  | .mtc0 rt rd => rWord 0x10#6 4 rt rd 0#5 0x00#6
  | .rfe => rWord 0x10#6 16 0 0 0#5 0x10#6
  | .cop1 => jWord 0x11#6 0#26
  | .cop2 => jWord 0x12#6 0#26
  | .cop3 => jWord 0x13#6 0#26
  | .lb rt rs imm => iWord 0x20#6 rs rt imm
  | .lh rt rs imm => iWord 0x21#6 rs rt imm
  | .lwl rt rs imm => iWord 0x22#6 rs rt imm
  | .lw rt rs imm => iWord 0x23#6 rs rt imm
  | .lbu rt rs imm => iWord 0x24#6 rs rt imm
  | .lhu rt rs imm => iWord 0x25#6 rs rt imm
  | .lwr rt rs imm => iWord 0x26#6 rs rt imm
  | .sb rt rs imm => iWord 0x28#6 rs rt imm
  | .sh rt rs imm => iWord 0x29#6 rs rt imm
  | .swl rt rs imm => iWord 0x2A#6 rs rt imm
  | .sw rt rs imm => iWord 0x2B#6 rs rt imm
  | .swr rt rs imm => iWord 0x2E#6 rs rt imm
  | .lwc0 => jWord 0x30#6 0#26
  | .lwc1 => jWord 0x31#6 0#26
  | .lwc2 => jWord 0x32#6 0#26
  | .lwc3 => jWord 0x33#6 0#26
  | .swc0 => jWord 0x38#6 0#26
  | .swc1 => jWord 0x39#6 0#26
  | .swc2 => jWord 0x3A#6 0#26
  | .swc3 => jWord 0x3B#6 0#26

/-! ### The opcode table -/

/-- The row of spec/opcode_table.json that an instruction belongs to: its mnemonic, its `match` and its `mask`. -/
def Instr.row : Instr → EncodingRow
  | .sll _ _ _ => ⟨"SLL", 0x00000000#32, 0xFC00003F#32⟩
  | .srl _ _ _ => ⟨"SRL", 0x00000002#32, 0xFC00003F#32⟩
  | .sra _ _ _ => ⟨"SRA", 0x00000003#32, 0xFC00003F#32⟩
  | .sllv _ _ _ => ⟨"SLLV", 0x00000004#32, 0xFC00003F#32⟩
  | .srlv _ _ _ => ⟨"SRLV", 0x00000006#32, 0xFC00003F#32⟩
  | .srav _ _ _ => ⟨"SRAV", 0x00000007#32, 0xFC00003F#32⟩
  | .jr _ => ⟨"JR", 0x00000008#32, 0xFC00003F#32⟩
  | .jalr _ _ => ⟨"JALR", 0x00000009#32, 0xFC00003F#32⟩
  | .syscall => ⟨"SYSCALL", 0x0000000C#32, 0xFC00003F#32⟩
  | .brk => ⟨"BREAK", 0x0000000D#32, 0xFC00003F#32⟩
  | .mfhi _ => ⟨"MFHI", 0x00000010#32, 0xFC00003F#32⟩
  | .mthi _ => ⟨"MTHI", 0x00000011#32, 0xFC00003F#32⟩
  | .mflo _ => ⟨"MFLO", 0x00000012#32, 0xFC00003F#32⟩
  | .mtlo _ => ⟨"MTLO", 0x00000013#32, 0xFC00003F#32⟩
  | .mult _ _ => ⟨"MULT", 0x00000018#32, 0xFC00003F#32⟩
  | .multu _ _ => ⟨"MULTU", 0x00000019#32, 0xFC00003F#32⟩
  | .div _ _ => ⟨"DIV", 0x0000001A#32, 0xFC00003F#32⟩
  | .divu _ _ => ⟨"DIVU", 0x0000001B#32, 0xFC00003F#32⟩
  | .add _ _ _ => ⟨"ADD", 0x00000020#32, 0xFC00003F#32⟩
  | .addu _ _ _ => ⟨"ADDU", 0x00000021#32, 0xFC00003F#32⟩
  | .sub _ _ _ => ⟨"SUB", 0x00000022#32, 0xFC00003F#32⟩
  | .subu _ _ _ => ⟨"SUBU", 0x00000023#32, 0xFC00003F#32⟩
  | .and _ _ _ => ⟨"AND", 0x00000024#32, 0xFC00003F#32⟩
  | .or _ _ _ => ⟨"OR", 0x00000025#32, 0xFC00003F#32⟩
  | .xor _ _ _ => ⟨"XOR", 0x00000026#32, 0xFC00003F#32⟩
  | .nor _ _ _ => ⟨"NOR", 0x00000027#32, 0xFC00003F#32⟩
  | .slt _ _ _ => ⟨"SLT", 0x0000002A#32, 0xFC00003F#32⟩
  | .sltu _ _ _ => ⟨"SLTU", 0x0000002B#32, 0xFC00003F#32⟩
  | .bltz _ _ => ⟨"BLTZ", 0x04000000#32, 0xFC1F0000#32⟩
  | .bgez _ _ => ⟨"BGEZ", 0x04010000#32, 0xFC1F0000#32⟩
  | .bltzal _ _ => ⟨"BLTZAL", 0x04100000#32, 0xFC1F0000#32⟩
  | .bgezal _ _ => ⟨"BGEZAL", 0x04110000#32, 0xFC1F0000#32⟩
  | .j _ => ⟨"J", 0x08000000#32, 0xFC000000#32⟩
  | .jal _ => ⟨"JAL", 0x0C000000#32, 0xFC000000#32⟩
  | .beq _ _ _ => ⟨"BEQ", 0x10000000#32, 0xFC000000#32⟩
  | .bne _ _ _ => ⟨"BNE", 0x14000000#32, 0xFC000000#32⟩
  | .blez _ _ => ⟨"BLEZ", 0x18000000#32, 0xFC000000#32⟩
  | .bgtz _ _ => ⟨"BGTZ", 0x1C000000#32, 0xFC000000#32⟩
  | .addi _ _ _ => ⟨"ADDI", 0x20000000#32, 0xFC000000#32⟩
  | .addiu _ _ _ => ⟨"ADDIU", 0x24000000#32, 0xFC000000#32⟩
  | .slti _ _ _ => ⟨"SLTI", 0x28000000#32, 0xFC000000#32⟩
  | .sltiu _ _ _ => ⟨"SLTIU", 0x2C000000#32, 0xFC000000#32⟩
  | .andi _ _ _ => ⟨"ANDI", 0x30000000#32, 0xFC000000#32⟩
  | .ori _ _ _ => ⟨"ORI", 0x34000000#32, 0xFC000000#32⟩
  | .xori _ _ _ => ⟨"XORI", 0x38000000#32, 0xFC000000#32⟩
  | .lui _ _ => ⟨"LUI", 0x3C000000#32, 0xFC000000#32⟩
  | .mfc0 _ _ => ⟨"MFC0", 0x40000000#32, 0xFFE00000#32⟩
  | .mtc0 _ _ => ⟨"MTC0", 0x40800000#32, 0xFFE00000#32⟩
  | .rfe => ⟨"RFE", 0x42000010#32, 0xFFE0003F#32⟩
  | .cop1 => ⟨"COP1", 0x44000000#32, 0xFC000000#32⟩
  | .cop2 => ⟨"COP2", 0x48000000#32, 0xFC000000#32⟩
  | .cop3 => ⟨"COP3", 0x4C000000#32, 0xFC000000#32⟩
  | .lb _ _ _ => ⟨"LB", 0x80000000#32, 0xFC000000#32⟩
  | .lh _ _ _ => ⟨"LH", 0x84000000#32, 0xFC000000#32⟩
  | .lwl _ _ _ => ⟨"LWL", 0x88000000#32, 0xFC000000#32⟩
  | .lw _ _ _ => ⟨"LW", 0x8C000000#32, 0xFC000000#32⟩
  | .lbu _ _ _ => ⟨"LBU", 0x90000000#32, 0xFC000000#32⟩
  | .lhu _ _ _ => ⟨"LHU", 0x94000000#32, 0xFC000000#32⟩
  | .lwr _ _ _ => ⟨"LWR", 0x98000000#32, 0xFC000000#32⟩
  | .sb _ _ _ => ⟨"SB", 0xA0000000#32, 0xFC000000#32⟩
  | .sh _ _ _ => ⟨"SH", 0xA4000000#32, 0xFC000000#32⟩
  | .swl _ _ _ => ⟨"SWL", 0xA8000000#32, 0xFC000000#32⟩
  | .sw _ _ _ => ⟨"SW", 0xAC000000#32, 0xFC000000#32⟩
  | .swr _ _ _ => ⟨"SWR", 0xB8000000#32, 0xFC000000#32⟩
  | .lwc0 => ⟨"LWC0", 0xC0000000#32, 0xFC000000#32⟩
  | .lwc1 => ⟨"LWC1", 0xC4000000#32, 0xFC000000#32⟩
  | .lwc2 => ⟨"LWC2", 0xC8000000#32, 0xFC000000#32⟩
  | .lwc3 => ⟨"LWC3", 0xCC000000#32, 0xFC000000#32⟩
  | .swc0 => ⟨"SWC0", 0xE0000000#32, 0xFC000000#32⟩
  | .swc1 => ⟨"SWC1", 0xE4000000#32, 0xFC000000#32⟩
  | .swc2 => ⟨"SWC2", 0xE8000000#32, 0xFC000000#32⟩
  | .swc3 => ⟨"SWC3", 0xEC000000#32, 0xFC000000#32⟩

/-- One instruction of each constructor, every operand zero, in the table's order: SPECIAL. -/
def oneOfEachSpecial : List Instr :=
  [.sll 0 0 0#5, .srl 0 0 0#5, .sra 0 0 0#5, .sllv 0 0 0, .srlv 0 0 0, .srav 0 0 0, .jr 0, .jalr 0 0, .syscall, .brk,
   .mfhi 0, .mthi 0, .mflo 0, .mtlo 0, .mult 0 0, .multu 0 0, .div 0 0, .divu 0 0, .add 0 0 0, .addu 0 0 0,
   .sub 0 0 0, .subu 0 0 0, .and 0 0 0, .or 0 0 0, .xor 0 0 0, .nor 0 0 0, .slt 0 0 0, .sltu 0 0 0]

/-- The same for branches and jumps. -/
def oneOfEachBranch : List Instr :=
  [.bltz 0 0#16, .bgez 0 0#16, .bltzal 0 0#16, .bgezal 0 0#16, .j 0#26, .jal 0#26, .beq 0 0 0#16, .bne 0 0 0#16,
   .blez 0 0#16, .bgtz 0 0#16]

/-- The same for immediate ALU and coprocessor operations. -/
def oneOfEachImmCop : List Instr :=
  [.addi 0 0 0#16, .addiu 0 0 0#16, .slti 0 0 0#16, .sltiu 0 0 0#16, .andi 0 0 0#16, .ori 0 0 0#16, .xori 0 0 0#16,
   .lui 0 0#16, .mfc0 0 0, .mtc0 0 0, .rfe, .cop1, .cop2, .cop3]

/-- The same for loads and stores. -/
def oneOfEachMem : List Instr :=
  [.lb 0 0 0#16, .lh 0 0 0#16, .lwl 0 0 0#16, .lw 0 0 0#16, .lbu 0 0 0#16, .lhu 0 0 0#16, .lwr 0 0 0#16,
   .sb 0 0 0#16, .sh 0 0 0#16, .swl 0 0 0#16, .sw 0 0 0#16, .swr 0 0 0#16, .lwc0, .lwc1, .lwc2, .lwc3, .swc0, .swc1,
   .swc2, .swc3]

/-- The 72 rows of spec/opcode_table.json, in its order. -/
def opcodeTable : List EncodingRow :=
  (oneOfEachSpecial ++ oneOfEachBranch ++ oneOfEachImmCop ++ oneOfEachMem).map Instr.row

/-! ### The host's question: the instruction of a table word -/

/-- The instruction the decoder reads from the low `nbits` bits of `w`, numbered as spec/opcode_table.json numbers them,
every higher bit being zero, laid out as the hardware stores it. Every row has 32 bits (log 15). -/
def decodeTableWord (nbits w : Nat) : Option Instr :=
  match decodeBytes (bytesOfWord (BitVec.ofNat 32 (w % 2 ^ nbits))) with
  | .ok (i, _) => some i
  | .error _ => none

end Sys2Proof
end

