-- ==== Sys2Proof/Machine/Operands.lean ====
section
/-! DEFINITION. Operand forms (30_encoding.md R125 to R127): register reads, immediates, shift amounts, effective addresses
and branch, jump and link addresses. -/

namespace Sys2Proof.Machine

/-- `x[r]`: register 0 reads as zero, and a value pending in the load-delay queue is not seen (00_scope.md R16,
10_state.md R21). -/
def State.reg (s : State) (r : Reg) : Word := if r = 0 then 0#32 else s.regs[r]

/-- `sext_16(imm)` (R125). -/
def immS (imm : BitVec 16) : Word := imm.signExtend 32

/-- `zext_16(imm)` (R125). -/
def immZ (imm : BitVec 16) : Word := imm.setWidth 32

/-- `imm || 0x0000`, LUI's operand (R125). -/
def immUpper (imm : BitVec 16) : Word := imm ++ 0#16

/-- A variable shift amount, `x[rs][4:0]` (R125). -/
def shiftAmount (v : Word) : BitVec 5 := v.extractLsb' 0 5

/-- `v << n`, zeros entering at bit 0 (40_alu.md R161). -/
def shiftLeft (v : Word) (n : BitVec 5) : Word := v <<< n.toNat

/-- `v >>u n`, zeros entering at bit 31 (40_alu.md R162). -/
def shiftRightLogical (v : Word) (n : BitVec 5) : Word := v >>> n.toNat

/-- `v >>s n`, copies of bit 31 entering (40_alu.md R163). -/
def shiftRightArith (v : Word) (n : BitVec 5) : Word := v.sshiftRight n.toNat

/-- `ea <- x[rs] + sext_16(imm)` (43_load_store.md R240). -/
def State.ea (s : State) (rs : Reg) (imm : BitVec 16) : Word := s.reg rs + immS imm

/-- The byte's place in its aligned word, `ea[1:0]`. -/
def lane (ea : Word) : Nat := (ea.extractLsb' 0 2).toNat

/-- The aligned word that holds an address, `ea & 0xFFFFFFFC`. -/
def alignedWord (ea : Word) : Word := ea &&& 0xFFFFFFFC#32

/-- `ipc + 4 + (sext_16(imm) << 2)` (R126). -/
def branchTarget (ipc : Word) (imm : BitVec 16) : Word := ipc + 4#32 + (immS imm <<< 2)

/-- `(ipc + 4)[31:28] || target || 00` (R127). -/
def jumpTarget (ipc : Word) (target : BitVec 26) : Word := (ipc + 4#32).extractLsb' 28 4 ++ target ++ 0#2

/-- The link value `ipc + 8` (42_branch_jump.md R210). -/
def linkValue (ipc : Word) : Word := ipc + 8#32

/-- `sext_8` of a byte load (43_load_store.md R241). -/
def sextByte (v : Word) : Word := (v.extractLsb' 0 8).signExtend 32

/-- `sext_16` of a halfword load (43_load_store.md R243). -/
def sextHalf (v : Word) : Word := (v.extractLsb' 0 16).signExtend 32

end Sys2Proof.Machine
end

