-- ==== Sys2Proof/Machine/Ops.lean ====
section
/-! DEFINITION. The shared operations: register writes and the load-delay queue (15_pipeline.md R66 to R68), the bus
(20_memory.md R94, R95, R104), redirects (15_pipeline.md R75), exception entry and RFE's pop (60_exceptions.md R310,
44_system_cop.md R276), the phases of a step (15_pipeline.md R61 to R64) and construction (70_reset_and_hazards.md R340). -/

namespace Sys2Proof.Machine

/-! ### Register writes and the load-delay queue -/

/-- Empty a load-delay slot that holds register `r` (R66). -/
def cancelSlot (r : Reg) : Option (Reg × Word) → Option (Reg × Word)
  | none => none
  | some (q, v) => if q = r then none else some (q, v)

/-- `x[r] <- v`, the synchronous write: nothing for register 0; otherwise the register takes the value and a pending
delayed write to it, in either slot, is cancelled (R66; 90_conflicts.md C4). -/
def State.writeReg (s : State) (r : Reg) (v : Word) : State :=
  if r = 0 then s
  else { s with regs := s.regs.set r v, ld0 := cancelSlot r s.ld0, ld1 := cancelSlot r s.ld1 }

/-- `x[r] <=delay v`, the delayed write of loads and MFC0 (R67). -/
def State.delayedWrite (s : State) (r : Reg) (v : Word) : State := { s with ld1 := some (r, v) }

/-- The register file after slot 0 commits; a commit to register 0 has no effect (R68, 10_state.md R21). -/
def State.committedRegs (s : State) : Vector Word 32 :=
  match s.ld0 with
  | none => s.regs
  | some (r, v) => if r = 0 then s.regs else s.regs.set r v

/-- `AgeLoadDelay()`: commit slot 0, shift slot 1 into it, empty slot 1 (R68). -/
def State.ageLoadDelay (s : State) : State := { s with regs := s.committedRegs, ld0 := s.ld1, ld1 := none }

/-- The merge input of LWL and LWR: the value pending in slot 0 for `r`, else `x[r]` (43_load_store.md R246, R247). -/
def State.pendingOrReg (s : State) (r : Reg) : Word :=
  match s.ld0 with
  | none => s.reg r
  | some (q, v) => if q = r then v else s.reg r

/-! ### The bus -/

/-- The access widths (20_memory.md R100). -/
inductive Width where
  | byte
  | half
  | word
  deriving DecidableEq, Repr

/-- The width in bytes. -/
def Width.bytes : Width → Nat
  | .byte => 1
  | .half => 2
  | .word => 4

/-- The low 8n bits of a value. -/
def Width.low : Width → Word → Word
  | .byte, v => (v.extractLsb' 0 8).setWidth 32
  | .half, v => (v.extractLsb' 0 16).setWidth 32
  | .word, v => v

/-- Little-endian composition, zero-extended to a word: byte 0 is least significant (20_memory.md R93). -/
def Width.compose (w : Width) (b : Nat → Byte) : Word :=
  match w with
  | .byte => (b 0).setWidth 32
  | .half => (b 1 ++ b 0).setWidth 32
  | .word => wordOfBytes (b 0) (b 1) (b 2) (b 3)

/-- The address meets the width's alignment (20_memory.md R97). -/
def Width.aligned : Width → Word → Bool
  | .byte, _ => true
  | .half, va => va.extractLsb' 0 1 = 0
  | .word, va => va.extractLsb' 0 2 = 0

/-- Byte `i` of an access routed to `t` (20_memory.md R87 to R90). -/
def State.targetByte (s : State) (t : BusTarget) (i : Nat) : Byte :=
  match t with
  | .ccr o => byteOf s.ccr (o + i)
  | .ram o => s.mem.read ((o + i) % ramSize)
  | .rom o => s.mem.read (romBase + (o + i))
  | .stub => 0xFF#8

/-- `MemRead(va, n)`, the bus load: `none` when the address is unmapped (20_memory.md R94; log 11). -/
def State.memRead (s : State) (w : Width) (va : Word) : Option Word :=
  (busTarget va).map fun t => w.compose (s.targetByte t)

/-- The byte at one virtual address, as a bus load reads it. -/
def State.readByte (s : State) (va : Word) : Option Byte := (busTarget va).map fun t => s.targetByte t 0

/-- A word with byte `k` replaced. -/
def setByte (v : Word) (k : Nat) (b : Byte) : Word :=
  (v &&& ~~~(0xFF#32 <<< (8 * k))) ||| (b.setWidth 32 <<< (8 * k))

/-- Write byte `i` of an access routed to `t`; ROM and stubs discard it (20_memory.md R87 to R90). -/
def State.writeTargetByte (s : State) (t : BusTarget) (i : Nat) (b : Byte) : State :=
  match t with
  | .ccr o => { s with ccr := setByte s.ccr (o + i) b }
  | .ram o => { s with mem := s.mem.write ((o + i) % ramSize) b }
  | .rom _ => s
  | .stub => s

/-- Write the low `n` bytes of `v`, the least significant first (20_memory.md R95). -/
def State.writeTarget (s : State) (t : BusTarget) (v : Word) : Nat → State
  | 0 => s
  | n + 1 => (s.writeTarget t v n).writeTargetByte t n (byteOf v n)

/-- `Diagnostic(UnmappedStore, va, n, v)` (20_memory.md R92, R96). -/
def State.emit (s : State) (w : Width) (va v : Word) : State :=
  { s with diag := s.diag ++ [⟨va, w.bytes, w.low v⟩] }

/-- `BusStore(va, n, v)` (20_memory.md R95). -/
def State.busStore (s : State) (w : Width) (va v : Word) : State :=
  match busTarget va with
  | none => s.emit w va v
  | some t => s.writeTarget t v w.bytes

/-- `MemWrite(va, n, v)`: discarded while the cache is isolated, otherwise a bus store (20_memory.md R104). -/
def State.memWrite (s : State) (w : Width) (va v : Word) : State := if s.isC then s else s.busStore w va v

/-- `n` byte stores from `va` up, of bytes `first`, `first + 1`, … of `v`: SWL's and SWR's one access
(43_load_store.md R251, R252). -/
def State.storeBytes (s : State) (va v : Word) (first : Nat) : Nat → State
  | 0 => s
  | n + 1 =>
    (s.storeBytes va v first n).memWrite .byte (va + BitVec.ofNat 32 n) ((byteOf v (first + n)).setWidth 32)

/-! ### Redirects -/

/-- `BranchTo(taken, target)` (R75). -/
def State.branchTo (s : State) (taken : Bool) (target : Word) : State :=
  { s with brFlag := true, tkFlag := taken, npc := if taken then target else s.npc }

/-- A branch or jump in a delay slot is refused before any of its effects; otherwise its effect is `t`
(42_branch_jump.md R211). -/
def State.unlessInDelay (s : State) (t : State) : Result :=
  if s.inDelay then .refused .branchInDelaySlot else .next t

/-! ### Exceptions -/

/-- Cause.ExcCode of an exception (60_exceptions.md R300). -/
def ExceptionKind.code : ExceptionKind → BitVec 5
  | .interrupt => 0#5
  | .addressLoadError _ => 4#5
  | .addressStoreError _ => 5#5
  | .systemCall => 8#5
  | .breakpoint => 9#5
  | .reservedInstruction => 10#5
  | .coprocessorUnusable _ => 11#5
  | .arithmeticOverflow => 12#5

/-- The coprocessor number an exception records in Cause.CE, if it records one (60_exceptions.md R307, R310). -/
def ExceptionKind.ce : ExceptionKind → Option (BitVec 2)
  | .coprocessorUnusable ce => some ce
  | .interrupt | .addressLoadError _ | .addressStoreError _ | .systemCall | .breakpoint | .reservedInstruction
  | .arithmeticOverflow => none

/-- The address an exception records in BadVAddr, if it records one (60_exceptions.md R302, R303, R310). -/
def ExceptionKind.badv : ExceptionKind → Option Word
  | .addressLoadError a | .addressStoreError a => some a
  | .interrupt | .systemCall | .breakpoint | .reservedInstruction | .coprocessorUnusable _ | .arithmeticOverflow => none

/-- The exception vector that Status.BEV selects (60_exceptions.md R314). -/
def State.vector (s : State) : Word := if s.bev then 0xBFC00180#32 else 0x80000080#32

/-- The resume address: the branch's when the instruction is in a delay slot (60_exceptions.md R312). -/
def State.resumeAddress (s : State) : Word := if s.inDelay then s.ipc - 4#32 else s.ipc

/-- Exception entry, the one procedure for every exception (60_exceptions.md R310 to R314). -/
def State.enterException (s : State) (e : ExceptionKind) : State :=
  { s with
    epc := s.resumeAddress
    cause := causeOnEntry s.cause s.inDelay (s.inDelay && s.inTaken) e.ce e.code
    badv := e.badv.getD s.badv
    sr := pushStatus s.sr
    pc := s.vector
    npc := s.vector + 4#32 }

/-- An instruction raises an exception: entry is its whole effect (00_scope.md R18, 15_pipeline.md R70). -/
def State.raise (s : State) (e : ExceptionKind) : Result := .next (s.enterException e)

/-- Return from exception: the Status stack is popped; nothing else changes (44_system_cop.md R276). -/
def State.restoreStatus (s : State) : State := { s with sr := popStatus s.sr }

/-! ### Phases of a step -/

/-- Phase A, delay context (R61). The diagnostic output of the step before is dropped (log 9). -/
def State.delayContext (s : State) : State :=
  { s with inDelay := s.brFlag, inTaken := s.tkFlag, brFlag := false, tkFlag := false, ipc := s.pc, diag := [] }

/-- The input sample of phase B (R62). -/
def State.sampleLines (s : State) : State := { s with cause := causeWithLines s.cause s.intIn }

/-- Phase A and the sample of phase B: the state in which a step decides what it does. -/
def State.beginStep (s : State) : State := s.delayContext.sampleLines

/-- Phase C, fetch: `none` when the address is misaligned or unmapped (R63, 20_memory.md R99). -/
def State.fetch (s : State) : Option Word := if Width.word.aligned s.ipc then s.memRead .word s.ipc else none

/-- Phase D, advance (R64). -/
def State.advance (s : State) : State := { s with pc := s.npc, npc := s.npc + 4#32 }

/-- A step whose whole work is an exception entry: the interrupt of phase B or the fetch error of phase C, then aging
(R62, R63). -/
def State.trapInstead (s : State) (e : ExceptionKind) : State := (s.enterException e).ageLoadDelay

/-- Phase F after phase E (R68). -/
def ageResult : Result → Result
  | .next t => .next t.ageLoadDelay
  | .fault f => .fault f
  | .refused r => .refused r

/-- What a word that decodes to no instruction does: ReservedInstruction, after the COP0 usability check for a reserved
COP0 form (30_encoding.md R133; 44_system_cop.md R270, R277, R287). -/
def execReject (e : DecodeReject) (s : State) : Result :=
  match e with
  | .reservedCop0 => if s.cop0Usable then s.raise .reservedInstruction else s.raise (.coprocessorUnusable 0#2)
  | .reservedOpcode | .reservedFunct | .reservedRegimm | .truncated => s.raise .reservedInstruction

/-! ### Construction -/

/-- Memory with the bytes of an image written from `base` up. -/
def Memory.load (m : Memory) (base : Nat) : List Byte → Memory
  | [] => m
  | b :: rest => Memory.load (m.write base b) (base + 1) rest

/-- Construction from a boot image: a machine exactly when the image has 524,288 bytes (70_reset_and_hazards.md R340,
92_eei_decisions.md D42). `ram` is `RAM_INIT` (00_scope.md R13). -/
def construct (d : Config.Draws) (ram : Memory) (romImage : List Byte) : Option State :=
  if romImage.length = romSize then some (State.resetOf d (ram.load romBase romImage)) else none

end Sys2Proof.Machine
end

