-- ==== Sys2Proof/Machine/Alu.lean ====
section
/-! DEFINITION. The ALU instructions (40_alu.md). Each reads its sources, computes a word and writes it synchronously
(R150); ADD, SUB and ADDI trap on signed overflow and write nothing then, whatever their destination. -/

namespace Sys2Proof.Machine

/-- Raise ArithmeticOverflow or write the result (R151, R153, R167). -/
def State.writeTrapping (s : State) (rd : Reg) (overflows : Bool) (v : Word) : Result :=
  if overflows then s.raise .arithmeticOverflow else .next (s.writeReg rd v)

/-! ### Register-register arithmetic and logic -/

/-- ADD (R151). -/
def execAdd (rd rs rt : Reg) (s : State) : Result :=
  s.writeTrapping rd (addOverflows (s.reg rs) (s.reg rt)) (s.reg rs + s.reg rt)

/-- ADDU (R152). -/
def execAddu (rd rs rt : Reg) (s : State) : Result := .next (s.writeReg rd (s.reg rs + s.reg rt))

/-- SUB (R153). -/
def execSub (rd rs rt : Reg) (s : State) : Result :=
  s.writeTrapping rd (subOverflows (s.reg rs) (s.reg rt)) (s.reg rs - s.reg rt)

/-- SUBU (R154). -/
def execSubu (rd rs rt : Reg) (s : State) : Result := .next (s.writeReg rd (s.reg rs - s.reg rt))

/-- AND (R155). -/
def execAnd (rd rs rt : Reg) (s : State) : Result := .next (s.writeReg rd (s.reg rs &&& s.reg rt))

/-- OR (R156). -/
def execOr (rd rs rt : Reg) (s : State) : Result := .next (s.writeReg rd (s.reg rs ||| s.reg rt))

/-- XOR (R157). -/
def execXor (rd rs rt : Reg) (s : State) : Result := .next (s.writeReg rd (s.reg rs ^^^ s.reg rt))

/-- NOR (R158). -/
def execNor (rd rs rt : Reg) (s : State) : Result := .next (s.writeReg rd (~~~(s.reg rs ||| s.reg rt)))

/-- SLT (R159). -/
def execSlt (rd rs rt : Reg) (s : State) : Result :=
  .next (s.writeReg rd (boolWord (ltSigned (s.reg rs) (s.reg rt))))

/-- SLTU (R160). -/
def execSltu (rd rs rt : Reg) (s : State) : Result :=
  .next (s.writeReg rd (boolWord (ltUnsigned (s.reg rs) (s.reg rt))))

/-! ### Shifts -/

/-- SLL (R161); the all-zero word is this with rd = 0, the NOP (30_encoding.md R135). -/
def execSll (rd rt : Reg) (sa : BitVec 5) (s : State) : Result := .next (s.writeReg rd (shiftLeft (s.reg rt) sa))

/-- SRL (R162). -/
def execSrl (rd rt : Reg) (sa : BitVec 5) (s : State) : Result :=
  .next (s.writeReg rd (shiftRightLogical (s.reg rt) sa))

/-- SRA (R163). -/
def execSra (rd rt : Reg) (sa : BitVec 5) (s : State) : Result :=
  .next (s.writeReg rd (shiftRightArith (s.reg rt) sa))

/-- SLLV (R164). -/
def execSllv (rd rt rs : Reg) (s : State) : Result :=
  .next (s.writeReg rd (shiftLeft (s.reg rt) (shiftAmount (s.reg rs))))

/-- SRLV (R165). -/
def execSrlv (rd rt rs : Reg) (s : State) : Result :=
  .next (s.writeReg rd (shiftRightLogical (s.reg rt) (shiftAmount (s.reg rs))))

/-- SRAV (R166). -/
def execSrav (rd rt rs : Reg) (s : State) : Result :=
  .next (s.writeReg rd (shiftRightArith (s.reg rt) (shiftAmount (s.reg rs))))

/-! ### Register-immediate arithmetic and logic -/

/-- ADDI (R167). -/
def execAddi (rt rs : Reg) (imm : BitVec 16) (s : State) : Result :=
  s.writeTrapping rt (addOverflows (s.reg rs) (immS imm)) (s.reg rs + immS imm)

/-- ADDIU (R168). -/
def execAddiu (rt rs : Reg) (imm : BitVec 16) (s : State) : Result := .next (s.writeReg rt (s.reg rs + immS imm))

/-- SLTI (R169). -/
def execSlti (rt rs : Reg) (imm : BitVec 16) (s : State) : Result :=
  .next (s.writeReg rt (boolWord (ltSigned (s.reg rs) (immS imm))))

/-- SLTIU (R170): the immediate is sign-extended, then compared unsigned. -/
def execSltiu (rt rs : Reg) (imm : BitVec 16) (s : State) : Result :=
  .next (s.writeReg rt (boolWord (ltUnsigned (s.reg rs) (immS imm))))

/-- ANDI (R171). -/
def execAndi (rt rs : Reg) (imm : BitVec 16) (s : State) : Result := .next (s.writeReg rt (s.reg rs &&& immZ imm))

/-- ORI (R172). -/
def execOri (rt rs : Reg) (imm : BitVec 16) (s : State) : Result := .next (s.writeReg rt (s.reg rs ||| immZ imm))

/-- XORI (R173). -/
def execXori (rt rs : Reg) (imm : BitVec 16) (s : State) : Result := .next (s.writeReg rt (s.reg rs ^^^ immZ imm))

/-- LUI (R174): a synchronous write, not a load. -/
def execLui (rt : Reg) (imm : BitVec 16) (s : State) : Result := .next (s.writeReg rt (immUpper imm))

end Sys2Proof.Machine
end

