-- ==== Sys2Proof/Machine/Branch.lean ====
section
/-! DEFINITION. Branches and jumps (42_branch_jump.md). Every one is refused in a branch delay slot (R211); otherwise it
reads its sources, writes its link if it has one, and ends with `BranchTo` (R210). -/

namespace Sys2Proof.Machine

/-- A conditional branch (R210, R216 to R221). -/
def State.condBranch (s : State) (taken : Bool) (imm : BitVec 16) : Result :=
  s.unlessInDelay (s.branchTo taken (branchTarget s.ipc imm))

/-- A conditional branch that links, taken or not; the condition was computed before the link is written (R222, R223). -/
def State.condBranchLink (s : State) (taken : Bool) (imm : BitVec 16) : Result :=
  s.unlessInDelay ((s.writeReg 31 (linkValue s.ipc)).branchTo taken (branchTarget s.ipc imm))

/-- J (R212). -/
def execJ (target : BitVec 26) (s : State) : Result := s.unlessInDelay (s.branchTo true (jumpTarget s.ipc target))

/-- JAL (R213). -/
def execJal (target : BitVec 26) (s : State) : Result :=
  s.unlessInDelay ((s.writeReg 31 (linkValue s.ipc)).branchTo true (jumpTarget s.ipc target))

/-- JR (R214). -/
def execJr (rs : Reg) (s : State) : Result := s.unlessInDelay (s.branchTo true (s.reg rs))

/-- JALR (R215): the target is the old value of `rs`, even when rd = rs. -/
def execJalr (rd rs : Reg) (s : State) : Result :=
  s.unlessInDelay ((s.writeReg rd (linkValue s.ipc)).branchTo true (s.reg rs))

/-- BEQ (R216). -/
def execBeq (rs rt : Reg) (imm : BitVec 16) (s : State) : Result := s.condBranch (s.reg rs == s.reg rt) imm

/-- BNE (R217). -/
def execBne (rs rt : Reg) (imm : BitVec 16) (s : State) : Result := s.condBranch (s.reg rs != s.reg rt) imm

/-- BLEZ (R218). -/
def execBlez (rs : Reg) (imm : BitVec 16) (s : State) : Result := s.condBranch (decide ((s.reg rs).toInt ≤ 0)) imm

/-- BGTZ (R219). -/
def execBgtz (rs : Reg) (imm : BitVec 16) (s : State) : Result := s.condBranch (decide (0 < (s.reg rs).toInt)) imm

/-- BLTZ (R220). -/
def execBltz (rs : Reg) (imm : BitVec 16) (s : State) : Result := s.condBranch ((s.reg rs).getLsbD 31) imm

/-- BGEZ (R221). -/
def execBgez (rs : Reg) (imm : BitVec 16) (s : State) : Result := s.condBranch (!(s.reg rs).getLsbD 31) imm

/-- BLTZAL (R222). -/
def execBltzal (rs : Reg) (imm : BitVec 16) (s : State) : Result := s.condBranchLink ((s.reg rs).getLsbD 31) imm

/-- BGEZAL (R223). -/
def execBgezal (rs : Reg) (imm : BitVec 16) (s : State) : Result := s.condBranchLink (!(s.reg rs).getLsbD 31) imm

end Sys2Proof.Machine
end

