-- ==== Sys2Proof/Machine/LoadStore.lean ====
section
/-! DEFINITION. Loads and stores (43_load_store.md). The checks come before any effect: alignment, then for a load the
mapping (R240); loads write through the load-delay queue, stores through the isolation gate. -/

namespace Sys2Proof.Machine

/-- A load of width `w`: misaligned or unmapped raises AddressLoadError with BadVAddr = ea; otherwise the extended value is
written with a delay (R240). -/
def State.load (s : State) (w : Width) (rt : Reg) (ea : Word) (extend : Word → Word) : Result :=
  if w.aligned ea then
    match s.memRead w ea with
    | none => s.raise (.addressLoadError ea)
    | some v => .next (s.delayedWrite rt (extend v))
  else s.raise (.addressLoadError ea)

/-- LWL and LWR: read the aligned word that holds `ea` and merge it with the pending or current value of `rt`; unmapped
raises AddressLoadError with BadVAddr = ea, the unaligned address (R246, R247). -/
def State.loadMerge (s : State) (rt : Reg) (ea : Word) (merge : Word → Word → Word) : Result :=
  match s.memRead .word (alignedWord ea) with
  | none => s.raise (.addressLoadError ea)
  | some v => .next (s.delayedWrite rt (merge (s.pendingOrReg rt) v))

/-- A store of width `w`: misaligned raises AddressStoreError with BadVAddr = ea; otherwise `MemWrite` (R240). -/
def State.store (s : State) (w : Width) (ea v : Word) : Result :=
  if w.aligned ea then .next (s.memWrite w ea v) else s.raise (.addressStoreError ea)

/-- LWL's merge: bytes `3-k .. 3` of the register take bytes `0 .. k` of the memory word (R246). -/
def mergeLeft (k : Nat) (cur mem : Word) : Word :=
  match k with
  | 0 => (cur &&& 0x00FFFFFF#32) ||| (mem <<< 24)
  | 1 => (cur &&& 0x0000FFFF#32) ||| (mem <<< 16)
  | 2 => (cur &&& 0x000000FF#32) ||| (mem <<< 8)
  | _ => mem

/-- LWR's merge: bytes `0 .. 3-k` of the register take bytes `k .. 3` of the memory word (R247). -/
def mergeRight (k : Nat) (cur mem : Word) : Word :=
  match k with
  | 0 => mem
  | 1 => (cur &&& 0xFF000000#32) ||| (mem >>> 8)
  | 2 => (cur &&& 0xFFFF0000#32) ||| (mem >>> 16)
  | _ => (cur &&& 0xFFFFFF00#32) ||| (mem >>> 24)

/-- LB (R241). -/
def execLb (rt rs : Reg) (imm : BitVec 16) (s : State) : Result := s.load .byte rt (s.ea rs imm) sextByte

/-- LBU (R242). -/
def execLbu (rt rs : Reg) (imm : BitVec 16) (s : State) : Result := s.load .byte rt (s.ea rs imm) id

/-- LH (R243). -/
def execLh (rt rs : Reg) (imm : BitVec 16) (s : State) : Result := s.load .half rt (s.ea rs imm) sextHalf

/-- LHU (R244). -/
def execLhu (rt rs : Reg) (imm : BitVec 16) (s : State) : Result := s.load .half rt (s.ea rs imm) id

/-- LW (R245). -/
def execLw (rt rs : Reg) (imm : BitVec 16) (s : State) : Result := s.load .word rt (s.ea rs imm) id

/-- LWL (R246). -/
def execLwl (rt rs : Reg) (imm : BitVec 16) (s : State) : Result :=
  s.loadMerge rt (s.ea rs imm) (mergeLeft (lane (s.ea rs imm)))

/-- LWR (R247). -/
def execLwr (rt rs : Reg) (imm : BitVec 16) (s : State) : Result :=
  s.loadMerge rt (s.ea rs imm) (mergeRight (lane (s.ea rs imm)))

/-- SB (R248). -/
def execSb (rt rs : Reg) (imm : BitVec 16) (s : State) : Result := s.store .byte (s.ea rs imm) (s.reg rt)

/-- SH (R249). -/
def execSh (rt rs : Reg) (imm : BitVec 16) (s : State) : Result := s.store .half (s.ea rs imm) (s.reg rt)

/-- SW (R250). -/
def execSw (rt rs : Reg) (imm : BitVec 16) (s : State) : Result := s.store .word (s.ea rs imm) (s.reg rt)

/-- SWL (R251): bytes `3-k .. 3` of the register to the aligned word's bytes `0 .. k`. -/
def execSwl (rt rs : Reg) (imm : BitVec 16) (s : State) : Result :=
  .next (s.storeBytes (alignedWord (s.ea rs imm)) (s.reg rt) (3 - lane (s.ea rs imm)) (lane (s.ea rs imm) + 1))

/-- SWR (R252): bytes `0 .. 3-k` of the register to `ea` up to the end of its aligned word. -/
def execSwr (rt rs : Reg) (imm : BitVec 16) (s : State) : Result :=
  .next (s.storeBytes (s.ea rs imm) (s.reg rt) 0 (4 - lane (s.ea rs imm)))

end Sys2Proof.Machine
end

