-- ==== Sys2Proof/Machine/MulDiv.lean ====
section
/-! DEFINITION. Multiply, divide and the HI/LO moves (41_muldiv.md). No instruction of the family raises an exception, and
results are there for the very next instruction (R190). -/

namespace Sys2Proof.Machine

/-- HI and LO of a 64-bit product. -/
def splitProduct (p : BitVec 64) : Word × Word := (p.extractLsb' 32 32, p.extractLsb' 0 32)

/-- HI and LO of the exact signed product, modulo 2^64 (R191). -/
def mulSigned (a b : Word) : Word × Word := splitProduct (BitVec.ofInt 64 (a.toInt * b.toInt))

/-- HI and LO of the exact unsigned product (R192). -/
def mulUnsigned (a b : Word) : Word × Word := splitProduct (BitVec.ofNat 64 (a.toNat * b.toNat))

/-- HI (remainder) and LO (quotient) of the signed division, the quotient truncated toward zero; the spec fixes the
results for a zero divisor and for -2^31 / -1 (R193; 92_eei_decisions.md D30). -/
def divSigned (a b : Word) : Word × Word :=
  let n := a.toInt
  let d := b.toInt
  if d = 0 then (a, if 0 ≤ n then 0xFFFFFFFF#32 else 0x00000001#32)
  else if n = -2147483648 ∧ d = -1 then (0x00000000#32, 0x80000000#32)
  else (BitVec.ofInt 32 (n - d * n.tdiv d), BitVec.ofInt 32 (n.tdiv d))

/-- HI (remainder) and LO (quotient) of the unsigned division (R194). -/
def divUnsigned (a b : Word) : Word × Word :=
  if b.toNat = 0 then (a, 0xFFFFFFFF#32)
  else (BitVec.ofNat 32 (a.toNat % b.toNat), BitVec.ofNat 32 (a.toNat / b.toNat))

/-- Write both registers: HI the first of the pair, LO the second. -/
def State.writeHiLo (s : State) (p : Word × Word) : State := { s with hi := p.1, lo := p.2 }

/-- MULT (R191). -/
def execMult (rs rt : Reg) (s : State) : Result := .next (s.writeHiLo (mulSigned (s.reg rs) (s.reg rt)))

/-- MULTU (R192). -/
def execMultu (rs rt : Reg) (s : State) : Result := .next (s.writeHiLo (mulUnsigned (s.reg rs) (s.reg rt)))

/-- DIV (R193). -/
def execDiv (rs rt : Reg) (s : State) : Result := .next (s.writeHiLo (divSigned (s.reg rs) (s.reg rt)))

/-- DIVU (R194). -/
def execDivu (rs rt : Reg) (s : State) : Result := .next (s.writeHiLo (divUnsigned (s.reg rs) (s.reg rt)))

/-- MFHI (R195). -/
def execMfhi (rd : Reg) (s : State) : Result := .next (s.writeReg rd s.hi)

/-- MFLO (R196). -/
def execMflo (rd : Reg) (s : State) : Result := .next (s.writeReg rd s.lo)

/-- MTHI (R197). -/
def execMthi (rs : Reg) (s : State) : Result := .next { s with hi := s.reg rs }

/-- MTLO (R198). -/
def execMtlo (rs : Reg) (s : State) : Result := .next { s with lo := s.reg rs }

end Sys2Proof.Machine
end

