-- ==== Sys2Proof/Machine/System.lean ====
section
/-! DEFINITION. Software traps, COP0 and the other coprocessors (44_system_cop.md). -/

namespace Sys2Proof.Machine

/-! ### Software traps -/

/-- SYSCALL (R272). -/
def execSyscall (s : State) : Result := s.raise .systemCall

/-- BREAK (R273). -/
def execBrk (s : State) : Result := s.raise .breakpoint

/-! ### COP0 -/

/-- The COP0 usability check that precedes every COP0 instruction's effect (R270). -/
def State.ifCop0Usable (s : State) (effect : Result) : Result :=
  if s.cop0Usable then effect else s.raise (.coprocessorUnusable 0#2)

/-- The COP0 registers MFC0 can read: BadVAddr, Status, Cause, EPC (R274, 10_state.md R35). -/
def State.readCop0 (s : State) (rd : Reg) : Option Word :=
  if rd = 8 then some s.badv
  else if rd = 12 then some s.sr
  else if rd = 13 then some s.cause
  else if rd = 14 then some s.epc
  else none

/-- MTC0's effect: Status takes all 32 bits, Cause its two software bits, every other register ignores the write
(R275, 10_state.md R37, R41, R44, R45). -/
def State.writeCop0 (s : State) (rd : Reg) (v : Word) : State :=
  if rd = 12 then { s with sr := v }
  else if rd = 13 then { s with cause := causeWithSoftwareBits s.cause v }
  else s

/-- MFC0's effect once COP0 is usable: a delayed write, or ReservedInstruction for a register the core does not hold
(R274). -/
def State.moveFromCop0 (s : State) (rt rd : Reg) : Result :=
  match s.readCop0 rd with
  | some v => .next (s.delayedWrite rt v)
  | none => s.raise .reservedInstruction

/-- MFC0 (R274). -/
def execMfc0 (rt rd : Reg) (s : State) : Result := s.ifCop0Usable (s.moveFromCop0 rt rd)

/-- MTC0 (R275). -/
def execMtc0 (rt rd : Reg) (s : State) : Result := s.ifCop0Usable (.next (s.writeCop0 rd (s.reg rt)))

/-- RFE (R276). -/
def execRfe (s : State) : Result := s.ifCop0Usable (.next s.restoreStatus)

/-! ### Coprocessors without an instruction in this core -/

/-- An instruction of coprocessor z that this core does not have: CoprocessorUnusable with CE = z when z is not usable,
ReservedInstruction when it is (R280, R281, R284, R285). No address is formed. -/
def State.copAbsent (s : State) (z : Fin 4) : Result :=
  if s.copUsable z then s.raise .reservedInstruction else s.raise (.coprocessorUnusable (BitVec.ofNat 2 z.val))

/-- An instruction of coprocessor 2: CoprocessorUnusable with CE = 2 when CU2 = 0; with CU2 = 1 the spec itself gives it no
meaning and refuses it (R282, R283, R286; 00_scope.md R19). -/
def State.cop2Operation (s : State) : Result :=
  if s.copUsable 2 then .refused .cop2Present else s.raise (.coprocessorUnusable 2#2)

/-- COP1 (R280). -/
def execCop1 (s : State) : Result := s.copAbsent 1

/-- COP2 (R282, R283). -/
def execCop2 (s : State) : Result := s.cop2Operation

/-- COP3 (R281). -/
def execCop3 (s : State) : Result := s.copAbsent 3

/-- LWC0 (R284). -/
def execLwc0 (s : State) : Result := s.copAbsent 0

/-- LWC1 (R285). -/
def execLwc1 (s : State) : Result := s.copAbsent 1

/-- LWC2 (R286). -/
def execLwc2 (s : State) : Result := s.cop2Operation

/-- LWC3 (R285). -/
def execLwc3 (s : State) : Result := s.copAbsent 3

/-- SWC0 (R284). -/
def execSwc0 (s : State) : Result := s.copAbsent 0

/-- SWC1 (R285). -/
def execSwc1 (s : State) : Result := s.copAbsent 1

/-- SWC2 (R286). -/
def execSwc2 (s : State) : Result := s.cop2Operation

/-- SWC3 (R285). -/
def execSwc3 (s : State) : Result := s.copAbsent 3

end Sys2Proof.Machine
end

