-- ==== Sys2Proof/Machine/Step.lean ====
section
/-! DEFINITION. One step of the core, `clock()` (15_pipeline.md R60, R69), and how an instruction is placed where the next
step fetches it. -/

namespace Sys2Proof.Machine

/-- Phase E for a fetched word: the decoded instruction's meaning, or what a reserved word does (R65, 30_encoding.md R136). -/
def execWord (w : Word) (s : State) : Result :=
  match decode w with
  | .ok i => exec i s
  | .error e => execReject e s

/-- One step (R69): a refused run has none (R71); an interrupt (R62) or a fetch error (R63) is the step's whole work;
otherwise the word is fetched, the counter pair advances (R64), the instruction executes and the load-delay queue ages
(R68). -/
def step (s : State) : Host.Outcome State Fault Refusal :=
  if s.refused then .fault .refusedRun
  else if s.beginStep.interruptRequested then .next (s.beginStep.trapInstead .interrupt)
  else
    match s.beginStep.fetch with
    | none => .next (s.beginStep.trapInstead (.addressLoadError s.pc))
    | some w => ageResult (execWord w s.beginStep.advance)

/-- The state a run records after a step: the next state, or the same state marked `refused` (R69, R71; log 8). -/
def recordStep (s : State) : State :=
  match step s with
  | .next t => t
  | .fault _ => s
  | .refused _ => { s with refused := true }

/-- `s` with the instruction word of the low `nbits` bits of `w` stored where the next step fetches: the four bytes at `pc`
in RAM, in the boot ROM or in the cache-control register. It stands for the boot image the host hands to construction
(log 5); a `pc` that is misaligned, unmapped or in a stub range has no such place and `s` is unchanged (log 13). -/
def State.withFetchWord (s : State) (nbits w : Nat) : State :=
  let v := BitVec.ofNat 32 (w % 2 ^ nbits)
  if Width.word.aligned s.pc then
    match busTarget s.pc with
    | some (.ram o) => { s with mem := s.mem.load o (bytesOfWord v) }
    | some (.rom o) => { s with mem := s.mem.load (romBase + o) (bytesOfWord v) }
    | some (.ccr _) => { s with ccr := v }
    | some .stub => s
    | none => s
  else s

end Sys2Proof.Machine
end

