-- ==== Sys2Proof/Safety.lean ====
section
/-! DEFINITION. The words claims are stated in: what each instruction may write, what a synchronous write, a delayed write,
a store and an exception entry leave changed and unchanged, and the invariant that every step keeps. -/

namespace Sys2Proof

/-- The register an instruction writes synchronously, if it writes one (10_state.md R22): `rd`, `rt`, or the link
register 31 of JAL, BLTZAL and BGEZAL. Loads and MFC0 write through the load-delay queue instead. -/
def Instr.syncDest : Instr → Option Reg
  | .sll rd _ _ | .srl rd _ _ | .sra rd _ _ | .sllv rd _ _ | .srlv rd _ _ | .srav rd _ _ | .jalr rd _
  | .mfhi rd | .mflo rd | .add rd _ _ | .addu rd _ _ | .sub rd _ _ | .subu rd _ _ | .and rd _ _ | .or rd _ _
  | .xor rd _ _ | .nor rd _ _ | .slt rd _ _ | .sltu rd _ _ => some rd
  | .addi rt _ _ | .addiu rt _ _ | .slti rt _ _ | .sltiu rt _ _ | .andi rt _ _ | .ori rt _ _ | .xori rt _ _
  | .lui rt _ => some rt
  | .jal _ | .bltzal _ _ | .bgezal _ _ => some 31
  | .jr _ | .syscall | .brk | .mthi _ | .mtlo _ | .mult _ _ | .multu _ _ | .div _ _ | .divu _ _ | .bltz _ _
  | .bgez _ _ | .j _ | .beq _ _ _ | .bne _ _ _ | .blez _ _ | .bgtz _ _ | .mfc0 _ _ | .mtc0 _ _ | .rfe
  | .cop1 | .cop2 | .cop3 | .lb _ _ _ | .lh _ _ _ | .lwl _ _ _ | .lw _ _ _ | .lbu _ _ _ | .lhu _ _ _
  | .lwr _ _ _ | .sb _ _ _ | .sh _ _ _ | .swl _ _ _ | .sw _ _ _ | .swr _ _ _ | .lwc0 | .lwc1 | .lwc2
  | .lwc3 | .swc0 | .swc1 | .swc2 | .swc3 => none

/-- The data stores (43_load_store.md R248 to R252). -/
def Instr.isStore : Instr → Bool
  | .sb _ _ _ | .sh _ _ _ | .swl _ _ _ | .sw _ _ _ | .swr _ _ _ => true
  | .sll _ _ _ | .srl _ _ _ | .sra _ _ _ | .sllv _ _ _ | .srlv _ _ _ | .srav _ _ _ | .jr _ | .jalr _ _
  | .syscall | .brk | .mfhi _ | .mthi _ | .mflo _ | .mtlo _ | .mult _ _ | .multu _ _ | .div _ _ | .divu _ _
  | .add _ _ _ | .addu _ _ _ | .sub _ _ _ | .subu _ _ _ | .and _ _ _ | .or _ _ _ | .xor _ _ _ | .nor _ _ _
  | .slt _ _ _ | .sltu _ _ _ | .bltz _ _ | .bgez _ _ | .bltzal _ _ | .bgezal _ _ | .j _ | .jal _ | .beq _ _ _
  | .bne _ _ _ | .blez _ _ | .bgtz _ _ | .addi _ _ _ | .addiu _ _ _ | .slti _ _ _ | .sltiu _ _ _ | .andi _ _ _
  | .ori _ _ _ | .xori _ _ _ | .lui _ _ | .mfc0 _ _ | .mtc0 _ _ | .rfe | .cop1 | .cop2 | .cop3 | .lb _ _ _
  | .lh _ _ _ | .lwl _ _ _ | .lw _ _ _ | .lbu _ _ _ | .lhu _ _ _ | .lwr _ _ _ | .lwc0 | .lwc1 | .lwc2
  | .lwc3 | .swc0 | .swc1 | .swc2 | .swc3 => false

/-- The branches and jumps (42_branch_jump.md). -/
def Instr.isBranch : Instr → Bool
  | .jr _ | .jalr _ _ | .bltz _ _ | .bgez _ _ | .bltzal _ _ | .bgezal _ _ | .j _ | .jal _ | .beq _ _ _
  | .bne _ _ _ | .blez _ _ | .bgtz _ _ => true
  | .sll _ _ _ | .srl _ _ _ | .sra _ _ _ | .sllv _ _ _ | .srlv _ _ _ | .srav _ _ _ | .syscall | .brk
  | .mfhi _ | .mthi _ | .mflo _ | .mtlo _ | .mult _ _ | .multu _ _ | .div _ _ | .divu _ _ | .add _ _ _
  | .addu _ _ _ | .sub _ _ _ | .subu _ _ _ | .and _ _ _ | .or _ _ _ | .xor _ _ _ | .nor _ _ _ | .slt _ _ _
  | .sltu _ _ _ | .addi _ _ _ | .addiu _ _ _ | .slti _ _ _ | .sltiu _ _ _ | .andi _ _ _ | .ori _ _ _
  | .xori _ _ _ | .lui _ _ | .mfc0 _ _ | .mtc0 _ _ | .rfe | .cop1 | .cop2 | .cop3 | .lb _ _ _ | .lh _ _ _
  | .lwl _ _ _ | .lw _ _ _ | .lbu _ _ _ | .lhu _ _ _ | .lwr _ _ _ | .sb _ _ _ | .sh _ _ _ | .swl _ _ _
  | .sw _ _ _ | .swr _ _ _ | .lwc0 | .lwc1 | .lwc2 | .lwc3 | .swc0 | .swc1 | .swc2 | .swc3 => false

/-- The coprocessor 2 operations (44_system_cop.md R282, R283, R286). -/
def Instr.isCop2 : Instr → Bool
  | .cop2 | .lwc2 | .swc2 => true
  | .sll _ _ _ | .srl _ _ _ | .sra _ _ _ | .sllv _ _ _ | .srlv _ _ _ | .srav _ _ _ | .jr _ | .jalr _ _
  | .syscall | .brk | .mfhi _ | .mthi _ | .mflo _ | .mtlo _ | .mult _ _ | .multu _ _ | .div _ _ | .divu _ _
  | .add _ _ _ | .addu _ _ _ | .sub _ _ _ | .subu _ _ _ | .and _ _ _ | .or _ _ _ | .xor _ _ _ | .nor _ _ _
  | .slt _ _ _ | .sltu _ _ _ | .bltz _ _ | .bgez _ _ | .bltzal _ _ | .bgezal _ _ | .j _ | .jal _ | .beq _ _ _
  | .bne _ _ _ | .blez _ _ | .bgtz _ _ | .addi _ _ _ | .addiu _ _ _ | .slti _ _ _ | .sltiu _ _ _ | .andi _ _ _
  | .ori _ _ _ | .xori _ _ _ | .lui _ _ | .mfc0 _ _ | .mtc0 _ _ | .rfe | .cop1 | .cop3 | .lb _ _ _
  | .lh _ _ _ | .lwl _ _ _ | .lw _ _ _ | .lbu _ _ _ | .lhu _ _ _ | .lwr _ _ _ | .sb _ _ _ | .sh _ _ _
  | .swl _ _ _ | .sw _ _ _ | .swr _ _ _ | .lwc0 | .lwc1 | .lwc3 | .swc0 | .swc1 | .swc3 => false

namespace Machine

/-! ### Regions of the bus (20_memory.md R85, R87) -/

/-- A virtual address of the cache-control register. -/
abbrev ccrAddress (va : Word) : Prop := 0xFFFE0130 ≤ va.toNat ∧ va.toNat ≤ 0xFFFE0133

/-- A virtual address whose physical address lies in RAM. -/
abbrev ramAddress (va : Word) : Prop := (physical va).toNat ≤ 0x001FFFFF

/-- A virtual address whose physical address lies in the boot ROM. -/
abbrev romAddress (va : Word) : Prop := 0x1FC00000 ≤ (physical va).toNat ∧ (physical va).toNat ≤ 0x1FC7FFFF

/-- A virtual address whose physical address lies in one of the five stub ranges. -/
abbrev stubAddress (va : Word) : Prop :=
  (0x1F000000 ≤ (physical va).toNat ∧ (physical va).toNat ≤ 0x1F07FFFF) ∨
  (0x1F801000 ≤ (physical va).toNat ∧ (physical va).toNat ≤ 0x1F801023) ∨
  (0x1F801060 ≤ (physical va).toNat ∧ (physical va).toNat ≤ 0x1F801063) ∨
  (0x1F801C00 ≤ (physical va).toNat ∧ (physical va).toNat ≤ 0x1F801E7F) ∨
  (0x1F802000 ≤ (physical va).toNat ∧ (physical va).toNat ≤ 0x1F802041)

/-- A virtual address that no device answers (R91, R92). -/
abbrev unmappedAddress (va : Word) : Prop :=
  ¬ ccrAddress va ∧ ¬ ramAddress va ∧ ¬ romAddress va ∧ ¬ stubAddress va

/-! ### What an effect changes and what it leaves -/

/-- `t` is `s` after the synchronous write `x[r] <- v` (15_pipeline.md R66, 10_state.md R21): register `r` alone changes, and
not register 0; a pending delayed write to `r` is cancelled; nothing else moves. -/
structure State.WritesReg (s t : State) (r : Reg) (v : Word) : Prop where
  dest : ∀ q, t.reg q = if q = r ∧ r ≠ 0 then v else s.reg q
  due : t.ld0 = if r ≠ 0 ∧ s.ld0.map (·.1) = some r then none else s.ld0
  notYetDue : t.ld1 = if r ≠ 0 ∧ s.ld1.map (·.1) = some r then none else s.ld1
  rest : t = { s with regs := t.regs, ld0 := t.ld0, ld1 := t.ld1 }
  bytes : ∀ a, t.readByte a = s.readByte a

/-- `t` is `s` after the delayed write `x[r] <=delay v` (15_pipeline.md R67): slot 1 holds it and nothing else moves, no
register among them. -/
structure State.WritesDelayed (s t : State) (r : Reg) (v : Word) : Prop where
  queued : t.ld1 = some (r, v)
  regs : ∀ q, t.reg q = s.reg q
  rest : t = { s with ld1 := t.ld1 }
  bytes : ∀ a, t.readByte a = s.readByte a

/-- `t` is `s` after a store of the `n` bytes `b 0`, `b 1`, … from `va` up to RAM or the cache-control register: those
bytes read back, every address that is not an alias of one of them reads as before, nothing else moves. -/
structure State.StoresBytes (s t : State) (va : Word) (n : Nat) (b : Nat → Byte) : Prop where
  stored : ∀ i, i < n → t.readByte (va + BitVec.ofNat 32 i) = some (b i)
  others : ∀ a, (∀ i, i < n → physical a ≠ physical (va + BitVec.ofNat 32 i)) → t.readByte a = s.readByte a
  rest : t = { s with mem := t.mem, ccr := t.ccr }

/-- `t` is `s` after entry into the exception with this code, coprocessor number and bad address
(60_exceptions.md R310, R312 to R314). -/
structure State.EntersException (s t : State) (code : BitVec 5) (ce : Option (BitVec 2)) (bad : Option Word) : Prop where
  epc : t.epc = if s.inDelay then s.ipc - 4#32 else s.ipc
  bd : t.cause.getLsbD 31 = s.inDelay
  bt : t.cause.getLsbD 30 = (s.inDelay && s.inTaken)
  exc : t.cause.extractLsb' 2 5 = code
  coprocessor : t.cause.extractLsb' 28 2 = ce.getD (s.cause.extractLsb' 28 2)
  causeRest : ∀ n, n < 2 ∨ (6 < n ∧ n < 28) → t.cause.getLsbD n = s.cause.getLsbD n
  badv : t.badv = bad.getD s.badv
  disabled : t.sr.getLsbD 0 = false
  kernel : t.sr.getLsbD 1 = false
  pushed : ∀ n, n < 4 → t.sr.getLsbD (n + 2) = s.sr.getLsbD n
  srRest : ∀ n, 6 ≤ n → t.sr.getLsbD n = s.sr.getLsbD n
  pc : t.pc = if s.sr.getLsbD 22 then 0xBFC00180#32 else 0x80000080#32
  npc : t.npc = t.pc + 4#32
  rest : t = { s with epc := t.epc, cause := t.cause, badv := t.badv, sr := t.sr, pc := t.pc, npc := t.npc }
  bytes : ∀ a, t.readByte a = s.readByte a

/-- `t` is `s` after `BranchTo(taken, target)` (15_pipeline.md R75), with nothing else moved. -/
structure State.Redirects (s t : State) (taken : Bool) (target : Word) : Prop where
  branch : t.brFlag = true
  took : t.tkFlag = taken
  npc : t.npc = if taken then target else s.npc
  rest : t = { s with brFlag := t.brFlag, tkFlag := t.tkFlag, npc := t.npc }
  regs : ∀ q, t.reg q = s.reg q
  bytes : ∀ a, t.readByte a = s.readByte a

/-- `t` is `s` with at most HI and LO changed (41_muldiv.md R190). -/
structure State.OnlyHiLo (s t : State) : Prop where
  rest : t = { s with hi := t.hi, lo := t.lo }
  regs : ∀ q, t.reg q = s.reg q
  bytes : ∀ a, t.readByte a = s.readByte a

/-- `t` is `s` with at most Status and Cause changed (44_system_cop.md R275, R276). -/
structure State.OnlyStatusCause (s t : State) : Prop where
  rest : t = { s with sr := t.sr, cause := t.cause }
  regs : ∀ q, t.reg q = s.reg q
  bytes : ∀ a, t.readByte a = s.readByte a

/-- COP0 is usable: kernel mode, or CU0 (44_system_cop.md R270). -/
abbrev State.Cop0Open (s : State) : Prop := s.sr.getLsbD 1 = false ∨ s.sr.getLsbD 28 = true

/-- An interrupt is requested once the input lines are sampled (15_pipeline.md R62). -/
abbrev State.InterruptDue (s : State) : Prop :=
  s.sr.getLsbD 0 = true ∧ (s.intIn ++ s.cause.extractLsb' 8 2) &&& s.sr.extractLsb' 8 8 ≠ 0#8

/-! ### The invariant -/

/-- What holds between two steps of every run: register slot 0 is zero (10_state.md R21); memory is canonical and names only
RAM and ROM (log 12); slot 1 of the queue is empty (15_pipeline.md R74); with no redirect pending `npc` is `pc + 4` (R72);
a taken flag comes with a branch flag (R30); Cause bits that nothing writes read 0 (10_state.md R40); ExcCode is a code this
core writes (60_exceptions.md R300, R309); BT only with BD (R312); the run is not refused (R52). -/
structure State.Inv (s : State) : Prop where
  zeroSlot : s.regs[0] = 0#32
  memCanonical : s.mem.wf = true
  memInMap : s.mem.inMap = true
  slot1Empty : s.ld1 = none
  sequential : s.tkFlag = false → s.npc = s.pc + 4#32
  takenIsBranch : s.tkFlag = true → s.brFlag = true
  causeReserved : ∀ n, n < 2 ∨ n = 7 ∨ (15 < n ∧ n < 28) → s.cause.getLsbD n = false
  legalCode : excCode s.cause ∈ [0#5, 4#5, 5#5, 8#5, 9#5, 10#5, 11#5, 12#5]
  takenInDelay : s.cause.getLsbD 30 = true → s.cause.getLsbD 31 = true
  notRefused : s.refused = false

end Machine

end Sys2Proof
end

