-- ==== Sys2Proof/Certificates/Slice0/Obligations.lean ====
section
/-! DEFINITION. The statements for the provers. Each docstring names the rules of spec/ it formalises, or says that it is
derived. -/

open Sys2Proof
open Sys2Proof.Machine

/-! ### Encoding -/

/-- Derived (30_encoding.md R121 to R132): decoding an encoded instruction gives it back, with every operand at every value
its field admits. -/
def Obligations.DecodeEncodeRoundTrip : Prop := ∀ i : Instr, decode (encode i) = .ok i

/-- Derived (30_encoding.md R128 to R136, opcode_table.json): a word decodes to an instruction exactly when the
instruction's row claims it, and no two rows claim one word. -/
def Obligations.DecoderFollowsOpcodeTable : Prop :=
  (∀ w i, decode w = .ok i → i.row ∈ opcodeTable ∧ i.row.claims w = true) ∧
  (∀ w r, r ∈ opcodeTable → r.claims w = true → ∃ i, decode w = .ok i ∧ i.row = r) ∧
  (∀ w r r', r ∈ opcodeTable → r' ∈ opcodeTable → r.claims w = true → r'.claims w = true → r = r')

/-- R129: the SPECIAL map by `funct`, every other field of the R-format free (R134), and every other slot reserved. -/
def Obligations.SpecialWordsDecode : Prop :=
  ∀ (rs rt rd : Reg) (sa : BitVec 5),
    decode (rWord 0x00#6 rs rt rd sa 0x00#6) = .ok (.sll rd rt sa) ∧
    decode (rWord 0x00#6 rs rt rd sa 0x02#6) = .ok (.srl rd rt sa) ∧
    decode (rWord 0x00#6 rs rt rd sa 0x03#6) = .ok (.sra rd rt sa) ∧
    decode (rWord 0x00#6 rs rt rd sa 0x04#6) = .ok (.sllv rd rt rs) ∧
    decode (rWord 0x00#6 rs rt rd sa 0x06#6) = .ok (.srlv rd rt rs) ∧
    decode (rWord 0x00#6 rs rt rd sa 0x07#6) = .ok (.srav rd rt rs) ∧
    decode (rWord 0x00#6 rs rt rd sa 0x08#6) = .ok (.jr rs) ∧
    decode (rWord 0x00#6 rs rt rd sa 0x09#6) = .ok (.jalr rd rs) ∧
    decode (rWord 0x00#6 rs rt rd sa 0x0C#6) = .ok .syscall ∧
    decode (rWord 0x00#6 rs rt rd sa 0x0D#6) = .ok .brk ∧
    decode (rWord 0x00#6 rs rt rd sa 0x10#6) = .ok (.mfhi rd) ∧
    decode (rWord 0x00#6 rs rt rd sa 0x11#6) = .ok (.mthi rs) ∧
    decode (rWord 0x00#6 rs rt rd sa 0x12#6) = .ok (.mflo rd) ∧
    decode (rWord 0x00#6 rs rt rd sa 0x13#6) = .ok (.mtlo rs) ∧
    decode (rWord 0x00#6 rs rt rd sa 0x18#6) = .ok (.mult rs rt) ∧
    decode (rWord 0x00#6 rs rt rd sa 0x19#6) = .ok (.multu rs rt) ∧
    decode (rWord 0x00#6 rs rt rd sa 0x1A#6) = .ok (.div rs rt) ∧
    decode (rWord 0x00#6 rs rt rd sa 0x1B#6) = .ok (.divu rs rt) ∧
    decode (rWord 0x00#6 rs rt rd sa 0x20#6) = .ok (.add rd rs rt) ∧
    decode (rWord 0x00#6 rs rt rd sa 0x21#6) = .ok (.addu rd rs rt) ∧
    decode (rWord 0x00#6 rs rt rd sa 0x22#6) = .ok (.sub rd rs rt) ∧
    decode (rWord 0x00#6 rs rt rd sa 0x23#6) = .ok (.subu rd rs rt) ∧
    decode (rWord 0x00#6 rs rt rd sa 0x24#6) = .ok (.and rd rs rt) ∧
    decode (rWord 0x00#6 rs rt rd sa 0x25#6) = .ok (.or rd rs rt) ∧
    decode (rWord 0x00#6 rs rt rd sa 0x26#6) = .ok (.xor rd rs rt) ∧
    decode (rWord 0x00#6 rs rt rd sa 0x27#6) = .ok (.nor rd rs rt) ∧
    decode (rWord 0x00#6 rs rt rd sa 0x2A#6) = .ok (.slt rd rs rt) ∧
    decode (rWord 0x00#6 rs rt rd sa 0x2B#6) = .ok (.sltu rd rs rt) ∧
    ∀ f : BitVec 6,
      f ∉ [0x00#6, 0x02#6, 0x03#6, 0x04#6, 0x06#6, 0x07#6, 0x08#6, 0x09#6, 0x0C#6, 0x0D#6, 0x10#6, 0x11#6, 0x12#6, 0x13#6] →
      f ∉ [0x18#6, 0x19#6, 0x1A#6, 0x1B#6, 0x20#6, 0x21#6, 0x22#6, 0x23#6, 0x24#6, 0x25#6, 0x26#6, 0x27#6, 0x2A#6, 0x2B#6] →
      decode (rWord 0x00#6 rs rt rd sa f) = .error .reservedFunct

/-- R128 and R132: the primary map by `op`, COP1 to COP3 and LWCz/SWCz by `op` alone, every other slot reserved; op 0, 1
and 16 are dispatched further (R129 to R131). -/
def Obligations.PrimaryWordsDecode : Prop :=
  (∀ (rs rt : Reg) (imm : BitVec 16),
    decode (iWord 0x04#6 rs rt imm) = .ok (.beq rs rt imm) ∧ decode (iWord 0x05#6 rs rt imm) = .ok (.bne rs rt imm) ∧
    decode (iWord 0x06#6 rs rt imm) = .ok (.blez rs imm) ∧ decode (iWord 0x07#6 rs rt imm) = .ok (.bgtz rs imm) ∧
    decode (iWord 0x08#6 rs rt imm) = .ok (.addi rt rs imm) ∧ decode (iWord 0x09#6 rs rt imm) = .ok (.addiu rt rs imm) ∧
    decode (iWord 0x0A#6 rs rt imm) = .ok (.slti rt rs imm) ∧ decode (iWord 0x0B#6 rs rt imm) = .ok (.sltiu rt rs imm) ∧
    decode (iWord 0x0C#6 rs rt imm) = .ok (.andi rt rs imm) ∧ decode (iWord 0x0D#6 rs rt imm) = .ok (.ori rt rs imm) ∧
    decode (iWord 0x0E#6 rs rt imm) = .ok (.xori rt rs imm) ∧ decode (iWord 0x0F#6 rs rt imm) = .ok (.lui rt imm) ∧
    decode (iWord 0x20#6 rs rt imm) = .ok (.lb rt rs imm) ∧ decode (iWord 0x21#6 rs rt imm) = .ok (.lh rt rs imm) ∧
    decode (iWord 0x22#6 rs rt imm) = .ok (.lwl rt rs imm) ∧ decode (iWord 0x23#6 rs rt imm) = .ok (.lw rt rs imm) ∧
    decode (iWord 0x24#6 rs rt imm) = .ok (.lbu rt rs imm) ∧ decode (iWord 0x25#6 rs rt imm) = .ok (.lhu rt rs imm) ∧
    decode (iWord 0x26#6 rs rt imm) = .ok (.lwr rt rs imm) ∧ decode (iWord 0x28#6 rs rt imm) = .ok (.sb rt rs imm) ∧
    decode (iWord 0x29#6 rs rt imm) = .ok (.sh rt rs imm) ∧ decode (iWord 0x2A#6 rs rt imm) = .ok (.swl rt rs imm) ∧
    decode (iWord 0x2B#6 rs rt imm) = .ok (.sw rt rs imm) ∧ decode (iWord 0x2E#6 rs rt imm) = .ok (.swr rt rs imm)) ∧
  ∀ x : BitVec 26,
    decode (jWord 0x02#6 x) = .ok (.j x) ∧ decode (jWord 0x03#6 x) = .ok (.jal x) ∧
    decode (jWord 0x11#6 x) = .ok .cop1 ∧ decode (jWord 0x12#6 x) = .ok .cop2 ∧ decode (jWord 0x13#6 x) = .ok .cop3 ∧
    decode (jWord 0x30#6 x) = .ok .lwc0 ∧ decode (jWord 0x31#6 x) = .ok .lwc1 ∧ decode (jWord 0x32#6 x) = .ok .lwc2 ∧
    decode (jWord 0x33#6 x) = .ok .lwc3 ∧ decode (jWord 0x38#6 x) = .ok .swc0 ∧ decode (jWord 0x39#6 x) = .ok .swc1 ∧
    decode (jWord 0x3A#6 x) = .ok .swc2 ∧ decode (jWord 0x3B#6 x) = .ok .swc3 ∧
    decode (jWord 0x00#6 x) = decodeSpecial (jWord 0x00#6 x) ∧ decode (jWord 0x01#6 x) = decodeRegimm (jWord 0x01#6 x) ∧
    decode (jWord 0x10#6 x) = decodeCop0 (jWord 0x10#6 x) ∧
    ∀ op ∈ [0x14#6, 0x15#6, 0x16#6, 0x17#6, 0x18#6, 0x19#6, 0x1A#6, 0x1B#6, 0x1C#6, 0x1D#6, 0x1E#6, 0x1F#6, 0x27#6, 0x2C#6,
        0x2D#6, 0x2F#6, 0x34#6, 0x35#6, 0x36#6, 0x37#6, 0x3C#6, 0x3D#6, 0x3E#6, 0x3F#6],
      decode (jWord op x) = .error .reservedOpcode

/-- R130, and R131 with its usability check: REGIMM by `rt`, COP0 by `rs` and `funct`, every other value reserved; while
COP0 is not usable every op-16 word raises CoprocessorUnusable with CE = 0, the reserved ones too. -/
def Obligations.RegimmAndCop0WordsDecode : Prop :=
  (∀ (rs : Reg) (imm : BitVec 16),
    decode (iWord 0x01#6 rs 0 imm) = .ok (.bltz rs imm) ∧ decode (iWord 0x01#6 rs 1 imm) = .ok (.bgez rs imm) ∧
    decode (iWord 0x01#6 rs 16 imm) = .ok (.bltzal rs imm) ∧ decode (iWord 0x01#6 rs 17 imm) = .ok (.bgezal rs imm) ∧
    ∀ rt : Reg, rt ≠ 0 → rt ≠ 1 → rt ≠ 16 → rt ≠ 17 → decode (iWord 0x01#6 rs rt imm) = .error .reservedRegimm) ∧
  (∀ (rt rd : Reg) (sa : BitVec 5) (f : BitVec 6),
    decode (rWord 0x10#6 0 rt rd sa f) = .ok (.mfc0 rt rd) ∧ decode (rWord 0x10#6 4 rt rd sa f) = .ok (.mtc0 rt rd) ∧
    decode (rWord 0x10#6 16 rt rd sa 0x10#6) = .ok .rfe ∧
    (f ≠ 0x10#6 → decode (rWord 0x10#6 16 rt rd sa f) = .error .reservedCop0) ∧
    ∀ rs : Reg, rs ≠ 0 → rs ≠ 4 → rs ≠ 16 → decode (rWord 0x10#6 rs rt rd sa f) = .error .reservedCop0) ∧
  ∀ (x : BitVec 26) (s : State), ¬ s.Cop0Open →
    ∃ t, execWord (jWord 0x10#6 x) s = .next t ∧ s.EntersException t 11#5 (some 0#2) none

/-- A sanity check of 95_test_vectors.md's words, one or more of each family: each decodes to the instruction it stands for. -/
def Obligations.SampleWordsDecode : Prop :=
  decode 0x3C080013#32 = .ok (.lui 8 0x0013#16) ∧ decode 0x00221820#32 = .ok (.add 3 1 2) ∧
  decode 0x00021FC3#32 = .ok (.sra 3 2 31#5) ∧ decode 0x00221804#32 = .ok (.sllv 3 2 1) ∧
  decode 0x2422FFFF#32 = .ok (.addiu 2 1 0xFFFF#16) ∧ decode 0x0022001A#32 = .ok (.div 1 2) ∧
  decode 0x00001810#32 = .ok (.mfhi 3) ∧ decode 0x0080F809#32 = .ok (.jalr 31 4) ∧
  decode 0x0C000800#32 = .ok (.jal 0x800#26) ∧ decode 0x14228000#32 = .ok (.bne 1 2 0x8000#16) ∧
  decode 0x07F10002#32 = .ok (.bgezal 31 2#16) ∧ decode 0x8C220004#32 = .ok (.lw 2 1 4#16) ∧
  decode 0x88220005#32 = .ok (.lwl 2 1 5#16) ∧ decode 0xA4220002#32 = .ok (.sh 2 1 2#16) ∧
  decode 0x03FFFFCD#32 = .ok .brk ∧ decode 0x40086000#32 = .ok (.mfc0 8 12) ∧ decode 0x421FFFD0#32 = .ok .rfe ∧
  decode 0xE8000000#32 = .ok .swc2 ∧ decode 0x0000000F#32 = .error .reservedFunct

/-! ### Reset -/

/-- R340: construction gives a machine exactly when the image has 524,288 bytes, with the state of its table for every
draw; a register not written since reset never reads 0 (R10). -/
def Obligations.ConstructionState : Prop :=
  ∀ (d : Config.Draws) (ram : Memory) (rom : List Byte), ram.wf = true →
    (rom.length ≠ 524288 → construct d ram rom = none) ∧
    (rom.length = 524288 → ∃ s, construct d ram rom = some s ∧
      s.reg 0 = 0#32 ∧ (∀ r, r ≠ 0 → s.reg r = d.gprInit ∧ s.reg r ≠ 0#32) ∧ s.pc = 0xBFC00000#32 ∧ s.npc = 0xBFC00004#32 ∧
      s.ld0 = none ∧ s.ld1 = none ∧ s.brFlag = false ∧ s.tkFlag = false ∧ s.hi = d.hiInit ∧ s.lo = d.loInit ∧
      s.sr = 0x00400000#32 ∧ s.cause = 0#32 ∧ s.epc = d.epcInit ∧ s.badv = d.badvInit ∧ s.ccr = 0#32 ∧ s.refused = false ∧
      (∀ a, a < 0x200000 → s.mem.read a = ram.read a) ∧
      ∀ o (h : o < rom.length), s.mem.read (0x1FC00000 + o) = rom[o])

/-- The reset state satisfies the invariant. Derived; the values of logs 1 to 5 play no part in it. -/
def Obligations.ResetSatisfiesInvariant : Prop := State.reset.Inv

/-- R341: the first step after construction takes no interrupt and fetches the word at `0xBFC00000`, the image's first four
bytes composed little-endian; the advance leaves `pc` = reset vector + 4 and `npc` = reset vector + 8; the rule's scenario, a first word `lui r8, 0x0013`. -/
def Obligations.BootFetchesFirstImageWord : Prop :=
  ∀ (d : Config.Draws) (ram : Memory) (rom : List Byte) (s : State), ram.wf = true → construct d ram rom = some s →
    ∃ h : rom.length = 524288,
      ¬ s.InterruptDue ∧ s.memRead .word s.pc = some (rom[3] ++ rom[2] ++ rom[1] ++ rom[0]) ∧
      s.beginStep.fetch = some (rom[3] ++ rom[2] ++ rom[1] ++ rom[0]) ∧
      s.beginStep.advance.pc = 0xBFC00004#32 ∧ s.beginStep.advance.npc = 0xBFC00008#32 ∧
      (rom[3] ++ rom[2] ++ rom[1] ++ rom[0] = 0x3C080013#32 →
        ∃ t, step s = .next t ∧ t.reg 8 = 0x00130000#32 ∧ t.pc = 0xBFC00004#32 ∧ t.npc = 0xBFC00008#32)

/-! ### The step -/

/-- Derived (15_pipeline.md R61, R62, R64): what a step does to the state before it executes an instruction. That `inDelay` and
`inTaken` are fields is log 6, and that `diag` is emptied is log 9: the model's own choices. -/
def Obligations.PhasesBeforeExecution : Prop :=
  ∀ s : State,
    s.beginStep = { s with
      inDelay := s.brFlag, inTaken := s.tkFlag, brFlag := false, tkFlag := false, ipc := s.pc, diag := [],
      cause := s.cause.extractLsb' 16 16 ++ s.intIn ++ s.cause.extractLsb' 0 10 } ∧
    s.advance = { s with pc := s.npc, npc := s.npc + 4#32 }

/-- Derived (15_pipeline.md R69): where no interrupt is due and the word at `pc` decodes to `i`, the step is `exec i` on the
advanced state, followed by the queue's aging (R68) when it answers a next state. -/
def Obligations.StepRunsDecodedInstruction : Prop :=
  ∀ (s : State) (w : Word) (i : Instr), s.refused = false → ¬ s.InterruptDue → s.pc.extractLsb' 0 2 = 0#2 →
    s.memRead .word s.pc = some w → decode w = .ok i →
    step s = match exec i s.beginStep.advance with
      | .next t => .next t.ageLoadDelay
      | .fault f => .fault f
      | .refused r => .refused r

/-- Derived (30_encoding.md R133; 44_system_cop.md R270, R277, R287): a word that decodes to no instruction raises ReservedInstruction, in every mode, after the
usability check when it is a reserved COP0 form. -/
def Obligations.StepTrapsOnReservedWord : Prop :=
  ∀ (s : State) (w : Word) (e : DecodeReject), s.refused = false → ¬ s.InterruptDue → s.pc.extractLsb' 0 2 = 0#2 →
    s.memRead .word s.pc = some w → decode w = .error e →
    ∃ t, step s = .next t.ageLoadDelay ∧
      (e ≠ .reservedCop0 ∨ s.Cop0Open → s.beginStep.advance.EntersException t 10#5 none none) ∧
      (e = .reservedCop0 ∧ ¬ s.Cop0Open → s.beginStep.advance.EntersException t 11#5 (some 0#2) none)

/-- R62: every step samples the input lines into `CAUSE[15:10]` before it decides anything; a due interrupt is then the
step's whole work, nothing is fetched or executed, and the queue ages. -/
def Obligations.StepTakesInterrupt : Prop :=
  (∀ s : State, s.beginStep.cause = s.cause.extractLsb' 16 16 ++ s.intIn ++ s.cause.extractLsb' 0 10 ∧
    (s.beginStep.interruptRequested = true ↔
      s.sr.getLsbD 0 = true ∧ s.beginStep.cause.extractLsb' 8 8 &&& s.sr.extractLsb' 8 8 ≠ 0#8)) ∧
  ∀ s : State, s.refused = false → s.InterruptDue →
    ∃ t, step s = .next t.ageLoadDelay ∧ s.beginStep.EntersException t 0#5 none none

/-- R99: a fetch from a misaligned or unmapped address raises AddressLoadError with BadVAddr = the fetch address. -/
def Obligations.StepTrapsOnFetchError : Prop :=
  ∀ s : State, s.refused = false → ¬ s.InterruptDue → (s.pc.extractLsb' 0 2 ≠ 0#2 ∨ unmappedAddress s.pc) →
    ∃ t, step s = .next t.ageLoadDelay ∧ s.beginStep.EntersException t 4#5 none (some s.pc)

/-- Derived (15_pipeline.md R60, R71; 00_scope.md R19): a step of a run that is not refused answers a next state or one of
the two listed refusals, each only where its rule says; a refused run has no further step, and a refusal is recorded. -/
def Obligations.StepEndsOnlyByListedRefusals : Prop :=
  (∀ s : State, s.refused = false →
    (∃ t, step s = .next t) ∨
    (step s = .refused .branchInDelaySlot ∧ s.brFlag = true ∧
      ∃ w i, s.memRead .word s.pc = some w ∧ decode w = .ok i ∧ i.isBranch = true) ∨
    (step s = .refused .cop2Present ∧ s.sr.getLsbD 30 = true ∧
      ∃ w i, s.memRead .word s.pc = some w ∧ decode w = .ok i ∧ i.isCop2 = true)) ∧
  (∀ s : State, s.refused = true → step s = .fault .refusedRun) ∧
  ∀ (s : State) (r : Refusal), step s = .refused r → recordStep s = { s with refused := true }

/-- Derived: a word placed by `withFetchWord` is what the next step fetches, and nothing but memory or the cache-control
register moves. It rests on logs 5 and 13, the model's own. -/
def Obligations.PlacedWordIsFetched : Prop :=
  ∀ (s : State) (w : Nat), s.mem.wf = true → s.pc.extractLsb' 0 2 = 0#2 →
    (ramAddress s.pc ∨ romAddress s.pc ∨ ccrAddress s.pc) →
    (s.withFetchWord 32 w).beginStep.fetch = some (BitVec.ofNat 32 w) ∧
    s.withFetchWord 32 w = { s with mem := (s.withFetchWord 32 w).mem, ccr := (s.withFetchWord 32 w).ccr }

/-- Derived: every step keeps the invariant. -/
def Obligations.InvariantKeptByStep : Prop := ∀ s t : State, s.Inv → step s = .next t → t.Inv

/-! ### Register writes and the load-delay queue -/

/-- R66 and R21: the synchronous write; register 0 reads as zero, and a write to it is a no-op, whether synchronous, at a
delayed write's commit, or by an instruction that names it as its destination. -/
def Obligations.SynchronousWrite : Prop :=
  (∀ (s : State) (r : Reg) (v : Word), s.WritesReg (s.writeReg r v) r v) ∧
  (∀ s : State, s.reg 0 = 0#32) ∧
  (∀ (s : State) (v : Word), s.writeReg 0 v = s) ∧
  (∀ (s : State) (v : Word), s.ld0 = some (0, v) → s.ageLoadDelay = { s with ld0 := s.ld1, ld1 := none }) ∧
  ∀ (i : Instr) (s t : State), exec i s = .next t → i.syncDest = some 0 → ∀ q, t.reg q = s.reg q

/-- R67, with the aging of R68 and its consequence R76: the delayed write fills slot 1; aging commits slot 0 (not to register 0), shifts slot 1 down and empties
it; two consecutive loads to one register both commit. -/
def Obligations.DelayedWriteAndAging : Prop :=
  (∀ (s : State) (r : Reg) (v : Word), s.WritesDelayed (s.delayedWrite r v) r v) ∧
  (∀ s : State,
    (∀ q, s.ageLoadDelay.reg q = match s.ld0 with
      | some (r, v) => if q = r ∧ r ≠ 0 then v else s.reg q
      | none => s.reg q) ∧
    s.ageLoadDelay.ld0 = s.ld1 ∧ s.ageLoadDelay.ld1 = none ∧
    s.ageLoadDelay = { s with regs := s.ageLoadDelay.regs, ld0 := s.ld1, ld1 := none }) ∧
  ∀ (s : State) (r : Reg) (v v' : Word), r ≠ 0 → s.ld0 = some (r, v) →
    (s.delayedWrite r v').ageLoadDelay.reg r = v ∧ (s.delayedWrite r v').ageLoadDelay.ageLoadDelay.reg r = v'

/-- Derived (15_pipeline.md R66, R68, R73; 60_exceptions.md R315; 43_load_store.md R254): a value in slot 0 is not seen by the
step's instruction and is in its register after the step, whatever the step does (an interrupt, a fetch error or an
instruction's exception entry included), unless the step's instruction ran, entered no exception and wrote that register
synchronously: then slot 0 was emptied and the register holds what the instruction wrote. -/
def Obligations.LoadCommitsUnlessOverwritten : Prop :=
  ∀ (s u : State) (r : Reg) (v : Word), s.ld0 = some (r, v) → r ≠ 0 → step s = .next u →
    s.beginStep.advance.reg r = s.reg r ∧
    (u.reg r = v ∨ ∃ w i t, ¬ s.InterruptDue ∧ s.beginStep.fetch = some w ∧ decode w = .ok i ∧ i.syncDest = some r ∧
      exec i s.beginStep.advance = .next t ∧ (∀ code ce bad, ¬ s.beginStep.advance.EntersException t code ce bad) ∧
      t.ld0 = none ∧ u.reg r = t.reg r)

/-- Derived (10_state.md R22): an instruction writes no general register but its destination; the only register written implicitly is `x[31]`,
by JAL, BLTZAL and BGEZAL. -/
def Obligations.ExecWritesOnlyItsDestination : Prop :=
  ∀ (i : Instr) (s t : State), exec i s = .next t →
    (∀ q, i.syncDest ≠ some q → t.reg q = s.reg q) ∧ t.reg 0 = 0#32

/-! ### Exceptions -/

/-- R310, R313 and R314, with the codes of R300 and the addresses of R312: entry into each of the eight exceptions. -/
def Obligations.ExceptionEntryProcedure : Prop :=
  ∀ (s : State) (a : Word) (ce : BitVec 2),
    s.EntersException (s.enterException .interrupt) 0#5 none none ∧
    s.EntersException (s.enterException (.addressLoadError a)) 4#5 none (some a) ∧
    s.EntersException (s.enterException (.addressStoreError a)) 5#5 none (some a) ∧
    s.EntersException (s.enterException .systemCall) 8#5 none none ∧
    s.EntersException (s.enterException .breakpoint) 9#5 none none ∧
    s.EntersException (s.enterException .reservedInstruction) 10#5 none none ∧
    s.EntersException (s.enterException (.coprocessorUnusable ce)) 11#5 (some ce) none ∧
    s.EntersException (s.enterException .arithmeticOverflow) 12#5 none none

/-- Derived (15_pipeline.md R70, 60_exceptions.md R311): an instruction's next state is an exception entry, with no effect of
its own, or leaves `pc`, EPC, BadVAddr and every Cause bit but 9:8 as they were. -/
def Obligations.ExecIsPrecise : Prop :=
  ∀ (i : Instr) (s t : State), exec i s = .next t →
    (∃ code ce bad, s.EntersException t code ce bad) ∨
    (t.pc = s.pc ∧ t.epc = s.epc ∧ t.badv = s.badv ∧ ∀ n, n ≠ 8 → n ≠ 9 → t.cause.getLsbD n = s.cause.getLsbD n)

/-- Derived (60_exceptions.md R313, R316): RFE after an entry restores the current and previous levels, and every Status bit
from 6 up. -/
def Obligations.ReturnUndoesStatusPush : Prop :=
  ∀ (s : State) (e : ExceptionKind) (n : Nat), n < 4 ∨ 6 ≤ n →
    (s.enterException e).restoreStatus.sr.getLsbD n = s.sr.getLsbD n

/-- Derived (60_exceptions.md R324, R325): a step from user mode with CU0 = 0 leaves Status, EPC, BadVAddr and Cause outside
the hardware lines alone, or enters the kernel at the exception vector. -/
def Obligations.UserModeConfined : Prop :=
  ∀ s t : State, step s = .next t → s.sr.getLsbD 1 = true → s.sr.getLsbD 28 = false →
    (t.sr = s.sr ∧ t.epc = s.epc ∧ t.badv = s.badv ∧ ∀ n, n < 10 ∨ 15 < n → t.cause.getLsbD n = s.cause.getLsbD n) ∨
    (t.sr.getLsbD 0 = false ∧ t.sr.getLsbD 1 = false ∧ (∀ n, n < 4 → t.sr.getLsbD (n + 2) = s.sr.getLsbD n) ∧
      (∀ n, 6 ≤ n → t.sr.getLsbD n = s.sr.getLsbD n) ∧
      t.pc = (if s.sr.getLsbD 22 then 0xBFC00180#32 else 0x80000080#32) ∧ t.npc = t.pc + 4#32)

/-- Derived (60_exceptions.md R325): only RFE and MTC0 to Status take the machine from kernel mode to user mode. -/
def Obligations.KernelLeftOnlyByRfeOrMtc0 : Prop :=
  ∀ s t : State, step s = .next t → s.sr.getLsbD 1 = false → t.sr.getLsbD 1 = true →
    ∃ w, s.memRead .word s.pc = some w ∧ (decode w = .ok .rfe ∨ ∃ rt, decode w = .ok (.mtc0 rt 12))

/-- Derived (10_state.md R42, 60_exceptions.md R318): after every step `CAUSE[15:10]` is the input of that step. That the input is
a field of the state which no step changes is log 7: the model's own choice. -/
def Obligations.HardwareLinesSampled : Prop :=
  ∀ s t : State, step s = .next t → t.intIn = s.intIn ∧ t.cause.extractLsb' 10 6 = s.intIn

/-! ### Memory -/

/-- R81, R82 and R83: translation by segment, and the aliases of a physical address below 512 MiB. -/
def Obligations.TranslateBySegment : Prop :=
  (∀ va : Word,
    (va.toNat < 0x80000000 → physical va = va) ∧
    (0x80000000 ≤ va.toNat → va.toNat < 0xA0000000 → (physical va).toNat = va.toNat - 0x80000000) ∧
    (0xA0000000 ≤ va.toNat → va.toNat < 0xC0000000 → (physical va).toNat = va.toNat - 0xA0000000) ∧
    (0xC0000000 ≤ va.toNat → physical va = va)) ∧
  ∀ p : Word, p.toNat < 0x20000000 →
    physical p = p ∧ physical (p + 0x80000000#32) = p ∧ physical (p + 0xA0000000#32) = p

/-- R94: the bus load, by device, and the exception a load raises where there is none; the five regions exclude one
another. -/
def Obligations.BusLoadByDevice : Prop :=
  ∀ (s : State) (w : Width) (va : Word), w.aligned va = true →
    (ccrAddress va → s.memRead w va = some (w.low (s.ccr >>> (8 * (va.toNat - 0xFFFE0130))))) ∧
    (ramAddress va → s.memRead w va = some (w.compose fun i => s.mem.read ((physical va).toNat + i))) ∧
    (romAddress va → s.memRead w va = some (w.compose fun i => s.mem.read ((physical va).toNat + i))) ∧
    (stubAddress va → s.memRead w va = some (w.low 0xFFFFFFFF#32)) ∧
    (unmappedAddress va → s.memRead w va = none ∧
      ∀ rt extend, ∃ t, s.load w rt va extend = .next t ∧ s.EntersException t 4#5 none (some va))

/-- R95, behind the gate of R104: the store, by device. -/
def Obligations.StoreByDevice : Prop :=
  ∀ (s : State) (w : Width) (va v : Word), w.aligned va = true → s.mem.wf = true →
    (s.sr.getLsbD 16 = true → s.memWrite w va v = s) ∧
    (s.sr.getLsbD 16 = false →
      (ccrAddress va ∨ ramAddress va → s.StoresBytes (s.memWrite w va v) va w.bytes (byteOf v)) ∧
      (romAddress va ∨ stubAddress va → s.memWrite w va v = s) ∧
      (unmappedAddress va → s.memWrite w va v = { s with diag := s.diag ++ [⟨va, w.bytes, w.low v⟩] }))

/-- Derived (20_memory.md R103, R107; 95_test_vectors.md W9): a store to RAM or the cache-control register, then a load of the
same width there, gives the stored low bytes back; a fetch there gives the stored word (R105). -/
def Obligations.StoreThenLoadRoundTrip : Prop :=
  ∀ (s : State) (w : Width) (va v : Word), w.aligned va = true → s.mem.wf = true → s.sr.getLsbD 16 = false →
    ccrAddress va ∨ ramAddress va →
    (s.memWrite w va v).memRead w va = some (w.low v) ∧
    (w = .word → s.ipc = va → (s.memWrite w va v).fetch = some v)

/-- Derived (log 12): the memory list keeps its canonical form and behaves as an array, and equal contents are equal lists. -/
def Obligations.MemoryListLaws : Prop :=
  (∀ (m : Memory) (a : Nat) (b : Byte), m.wf = true →
    (m.write a b).wf = true ∧ (m.write a b).read a = b ∧ ∀ a', a' ≠ a → (m.write a b).read a' = m.read a') ∧
  ∀ m m' : Memory, m.wf = true → m'.wf = true → (∀ a, m.read a = m'.read a) → m = m'

/-- Derived (10_state.md R50, 20_memory.md R89): no step changes a byte of the boot ROM. -/
def Obligations.RomNeverChanges : Prop :=
  ∀ s t : State, step s = .next t → ∀ o, o < 0x80000 → t.mem.read (0x1FC00000 + o) = s.mem.read (0x1FC00000 + o)

/-- Derived (70_reset_and_hazards.md R356): while Status.IsC = 1 a step discards every data store: memory, the cache-control
register and every readable byte stay; loads and fetches read as they would with IsC clear. That the step's list of
diagnostic events is empty afterwards rests on log 9 (a field emptied at each step): the model's own choice. -/
def Obligations.IsolatedStepKeepsMemory : Prop :=
  (∀ s t : State, step s = .next t → s.sr.getLsbD 16 = true →
    t.mem = s.mem ∧ t.ccr = s.ccr ∧ t.diag = [] ∧ ∀ a, t.readByte a = s.readByte a) ∧
  ∀ (s : State) (sr : Word) (w : Width) (va : Word),
    ({ s with sr := sr } : State).memRead w va = s.memRead w va ∧ ({ s with sr := sr } : State).fetch = s.fetch

/-- Derived (20_memory.md R102, 43_load_store.md R240): an instruction that is not a store changes no byte of memory and no
bit of the cache-control register, and emits no diagnostic event. -/
def Obligations.OnlyStoresWriteMemory : Prop :=
  ∀ (i : Instr) (s t : State), exec i s = .next t → i.isStore = false →
    t.mem = s.mem ∧ t.ccr = s.ccr ∧ t.diag = s.diag ∧ ∀ a, t.readByte a = s.readByte a

/-! ### ALU -/

/-- R151, R153 and R167: ADD, SUB and ADDI write the exact signed result when it fits in 32 bits and otherwise raise
ArithmeticOverflow, whatever the destination. -/
def Obligations.TrappingAddSub : Prop :=
  (∀ (rd rs rt : Reg) (sa : BitVec 5) (s : State),
    decode (rWord 0x00#6 rs rt rd sa 0x20#6) = .ok (.add rd rs rt) ∧
    decode (rWord 0x00#6 rs rt rd sa 0x22#6) = .ok (.sub rd rs rt) ∧
    (∀ n : Int, n = (s.reg rs).toInt + (s.reg rt).toInt →
      (-2 ^ 31 ≤ n ∧ n ≤ 2 ^ 31 - 1 → ∃ t v, exec (.add rd rs rt) s = .next t ∧ s.WritesReg t rd v ∧ v.toInt = n) ∧
      (n < -2 ^ 31 ∨ n > 2 ^ 31 - 1 → ∃ t, exec (.add rd rs rt) s = .next t ∧ s.EntersException t 12#5 none none)) ∧
    (∀ n : Int, n = (s.reg rs).toInt - (s.reg rt).toInt →
      (-2 ^ 31 ≤ n ∧ n ≤ 2 ^ 31 - 1 → ∃ t v, exec (.sub rd rs rt) s = .next t ∧ s.WritesReg t rd v ∧ v.toInt = n) ∧
      (n < -2 ^ 31 ∨ n > 2 ^ 31 - 1 → ∃ t, exec (.sub rd rs rt) s = .next t ∧ s.EntersException t 12#5 none none))) ∧
  ∀ (rt rs : Reg) (imm : BitVec 16) (s : State),
    decode (iWord 0x08#6 rs rt imm) = .ok (.addi rt rs imm) ∧
    ∀ n : Int, n = (s.reg rs).toInt + imm.toInt →
      (-2 ^ 31 ≤ n ∧ n ≤ 2 ^ 31 - 1 → ∃ t v, exec (.addi rt rs imm) s = .next t ∧ s.WritesReg t rt v ∧ v.toInt = n) ∧
      (n < -2 ^ 31 ∨ n > 2 ^ 31 - 1 → ∃ t, exec (.addi rt rs imm) s = .next t ∧ s.EntersException t 12#5 none none)

/-- R176: the overflow test the instructions use is the rule's bit test, and is true exactly when the exact signed result does
not fit in 32 bits. -/
def Obligations.OverflowBitTest : Prop :=
  ∀ a b : Word,
    addOverflows a b = ovfAdd a b ∧ subOverflows a b = ovfSub a b ∧
    (ovfAdd a b = true ↔ a.getLsbD 31 = b.getLsbD 31 ∧ (a + b).getLsbD 31 ≠ a.getLsbD 31) ∧
    (ovfSub a b = true ↔ a.getLsbD 31 ≠ b.getLsbD 31 ∧ (a - b).getLsbD 31 ≠ a.getLsbD 31) ∧
    (ovfAdd a b = true ↔ a.toInt + b.toInt < -2 ^ 31 ∨ a.toInt + b.toInt > 2 ^ 31 - 1) ∧
    (ovfSub a b = true ↔ a.toInt - b.toInt < -2 ^ 31 ∨ a.toInt - b.toInt > 2 ^ 31 - 1)

/-- R152, R154 and R168: ADDU, SUBU and ADDIU wrap modulo 2^32 and never trap. -/
def Obligations.WrappingAddSub : Prop :=
  (∀ (rd rs rt : Reg) (sa : BitVec 5) (s : State),
    decode (rWord 0x00#6 rs rt rd sa 0x21#6) = .ok (.addu rd rs rt) ∧
    decode (rWord 0x00#6 rs rt rd sa 0x23#6) = .ok (.subu rd rs rt) ∧
    (∃ t, exec (.addu rd rs rt) s = .next t ∧ s.WritesReg t rd (s.reg rs + s.reg rt)) ∧
    (∃ t, exec (.subu rd rs rt) s = .next t ∧ s.WritesReg t rd (s.reg rs - s.reg rt))) ∧
  ∀ (rt rs : Reg) (imm : BitVec 16) (s : State),
    decode (iWord 0x09#6 rs rt imm) = .ok (.addiu rt rs imm) ∧
    ∃ t, exec (.addiu rt rs imm) s = .next t ∧ s.WritesReg t rt (s.reg rs + imm.signExtend 32)

/-- R155 to R158 and R171 to R174: the logic instructions and LUI; immediates are zero-extended. -/
def Obligations.LogicResults : Prop :=
  (∀ (rd rs rt : Reg) (sa : BitVec 5) (s : State),
    decode (rWord 0x00#6 rs rt rd sa 0x24#6) = .ok (.and rd rs rt) ∧
    decode (rWord 0x00#6 rs rt rd sa 0x25#6) = .ok (.or rd rs rt) ∧
    decode (rWord 0x00#6 rs rt rd sa 0x26#6) = .ok (.xor rd rs rt) ∧
    decode (rWord 0x00#6 rs rt rd sa 0x27#6) = .ok (.nor rd rs rt) ∧
    (∃ t, exec (.and rd rs rt) s = .next t ∧ s.WritesReg t rd (s.reg rs &&& s.reg rt)) ∧
    (∃ t, exec (.or rd rs rt) s = .next t ∧ s.WritesReg t rd (s.reg rs ||| s.reg rt)) ∧
    (∃ t, exec (.xor rd rs rt) s = .next t ∧ s.WritesReg t rd (s.reg rs ^^^ s.reg rt)) ∧
    (∃ t, exec (.nor rd rs rt) s = .next t ∧ s.WritesReg t rd (~~~(s.reg rs ||| s.reg rt)))) ∧
  ∀ (rt rs : Reg) (imm : BitVec 16) (s : State),
    decode (iWord 0x0C#6 rs rt imm) = .ok (.andi rt rs imm) ∧ decode (iWord 0x0D#6 rs rt imm) = .ok (.ori rt rs imm) ∧
    decode (iWord 0x0E#6 rs rt imm) = .ok (.xori rt rs imm) ∧ decode (iWord 0x0F#6 rs rt imm) = .ok (.lui rt imm) ∧
    (∃ t, exec (.andi rt rs imm) s = .next t ∧ s.WritesReg t rt (s.reg rs &&& imm.zeroExtend 32)) ∧
    (∃ t, exec (.ori rt rs imm) s = .next t ∧ s.WritesReg t rt (s.reg rs ||| imm.zeroExtend 32)) ∧
    (∃ t, exec (.xori rt rs imm) s = .next t ∧ s.WritesReg t rt (s.reg rs ^^^ imm.zeroExtend 32)) ∧
    (∃ t, exec (.lui rt imm) s = .next t ∧ s.WritesReg t rt (BitVec.ofNat 32 (imm.toNat * 65536)))

/-- R159, R160, R169 and R170: set on less than, signed and unsigned; SLTIU sign-extends its immediate first. -/
def Obligations.SetOnLessThan : Prop :=
  (∀ (rd rs rt : Reg) (sa : BitVec 5) (s : State),
    decode (rWord 0x00#6 rs rt rd sa 0x2A#6) = .ok (.slt rd rs rt) ∧
    decode (rWord 0x00#6 rs rt rd sa 0x2B#6) = .ok (.sltu rd rs rt) ∧
    (∃ t, exec (.slt rd rs rt) s = .next t ∧
      s.WritesReg t rd (if (s.reg rs).toInt < (s.reg rt).toInt then 1#32 else 0#32)) ∧
    (∃ t, exec (.sltu rd rs rt) s = .next t ∧
      s.WritesReg t rd (if (s.reg rs).toNat < (s.reg rt).toNat then 1#32 else 0#32))) ∧
  ∀ (rt rs : Reg) (imm : BitVec 16) (s : State),
    decode (iWord 0x0A#6 rs rt imm) = .ok (.slti rt rs imm) ∧ decode (iWord 0x0B#6 rs rt imm) = .ok (.sltiu rt rs imm) ∧
    (∃ t, exec (.slti rt rs imm) s = .next t ∧
      s.WritesReg t rt (if (s.reg rs).toInt < imm.toInt then 1#32 else 0#32)) ∧
    (∃ t, exec (.sltiu rt rs imm) s = .next t ∧
      s.WritesReg t rt (if (s.reg rs).toNat < (imm.signExtend 32).toNat then 1#32 else 0#32))

/-- R161 to R166: shifts as multiplication and floor division by a power of two; a variable amount counts modulo 32. -/
def Obligations.ShiftResults : Prop :=
  ∀ (rd rt rs : Reg) (sa : BitVec 5) (s : State),
    decode (rWord 0x00#6 rs rt rd sa 0x00#6) = .ok (.sll rd rt sa) ∧
    decode (rWord 0x00#6 rs rt rd sa 0x02#6) = .ok (.srl rd rt sa) ∧
    decode (rWord 0x00#6 rs rt rd sa 0x03#6) = .ok (.sra rd rt sa) ∧
    decode (rWord 0x00#6 rs rt rd sa 0x04#6) = .ok (.sllv rd rt rs) ∧
    decode (rWord 0x00#6 rs rt rd sa 0x06#6) = .ok (.srlv rd rt rs) ∧
    decode (rWord 0x00#6 rs rt rd sa 0x07#6) = .ok (.srav rd rt rs) ∧
    (∃ t, exec (.sll rd rt sa) s = .next t ∧
      s.WritesReg t rd (BitVec.ofNat 32 ((s.reg rt).toNat * 2 ^ sa.toNat))) ∧
    (∃ t, exec (.srl rd rt sa) s = .next t ∧
      s.WritesReg t rd (BitVec.ofNat 32 ((s.reg rt).toNat / 2 ^ sa.toNat))) ∧
    (∃ t, exec (.sra rd rt sa) s = .next t ∧
      s.WritesReg t rd (BitVec.ofInt 32 ((s.reg rt).toInt / 2 ^ sa.toNat))) ∧
    (∃ t, exec (.sllv rd rt rs) s = .next t ∧
      s.WritesReg t rd (BitVec.ofNat 32 ((s.reg rt).toNat * 2 ^ ((s.reg rs).toNat % 32)))) ∧
    (∃ t, exec (.srlv rd rt rs) s = .next t ∧
      s.WritesReg t rd (BitVec.ofNat 32 ((s.reg rt).toNat / 2 ^ ((s.reg rs).toNat % 32)))) ∧
    (∃ t, exec (.srav rd rt rs) s = .next t ∧
      s.WritesReg t rd (BitVec.ofInt 32 ((s.reg rt).toInt / 2 ^ ((s.reg rs).toNat % 32))))

/-! ### Multiply and divide -/

/-- R191 and R192: HI and LO together are the exact product. -/
def Obligations.MultiplyResults : Prop :=
  ∀ (rs rt rd : Reg) (sa : BitVec 5) (s : State),
    decode (rWord 0x00#6 rs rt rd sa 0x18#6) = .ok (.mult rs rt) ∧
    decode (rWord 0x00#6 rs rt rd sa 0x19#6) = .ok (.multu rs rt) ∧
    (∃ t, exec (.mult rs rt) s = .next t ∧ s.OnlyHiLo t ∧
      (t.hi ++ t.lo).toInt = (s.reg rs).toInt * (s.reg rt).toInt) ∧
    (∃ t, exec (.multu rs rt) s = .next t ∧ s.OnlyHiLo t ∧
      (t.hi ++ t.lo).toNat = (s.reg rs).toNat * (s.reg rt).toNat)

/-- R193 and R194: quotient in LO, remainder in HI, with the spec's results for a zero divisor and for -2^31 / -1. -/
def Obligations.DivideResults : Prop :=
  ∀ (rs rt rd : Reg) (sa : BitVec 5) (s : State) (n d : Int), n = (s.reg rs).toInt → d = (s.reg rt).toInt →
    decode (rWord 0x00#6 rs rt rd sa 0x1A#6) = .ok (.div rs rt) ∧
    decode (rWord 0x00#6 rs rt rd sa 0x1B#6) = .ok (.divu rs rt) ∧
    (∃ t, exec (.div rs rt) s = .next t ∧ s.OnlyHiLo t ∧
      (d = 0 → t.lo = (if n ≥ 0 then 0xFFFFFFFF#32 else 0x00000001#32) ∧ t.hi = s.reg rs) ∧
      (n = -2 ^ 31 → d = -1 → t.lo = 0x80000000#32 ∧ t.hi = 0#32) ∧
      (d ≠ 0 → ¬ (n = -2 ^ 31 ∧ d = -1) → t.lo.toInt = n.tdiv d ∧ t.hi.toInt = n - d * n.tdiv d)) ∧
    (∃ t, exec (.divu rs rt) s = .next t ∧ s.OnlyHiLo t ∧
      ((s.reg rt).toNat = 0 → t.lo = 0xFFFFFFFF#32 ∧ t.hi = s.reg rs) ∧
      ((s.reg rt).toNat ≠ 0 →
        t.lo.toNat = (s.reg rs).toNat / (s.reg rt).toNat ∧ t.hi.toNat = (s.reg rs).toNat % (s.reg rt).toNat))

/-- R195 to R198: the HI/LO moves; MFHI and MFLO are synchronous writes. -/
def Obligations.HiLoMoves : Prop :=
  ∀ (rs rt rd : Reg) (sa : BitVec 5) (s : State),
    decode (rWord 0x00#6 rs rt rd sa 0x10#6) = .ok (.mfhi rd) ∧ decode (rWord 0x00#6 rs rt rd sa 0x12#6) = .ok (.mflo rd) ∧
    decode (rWord 0x00#6 rs rt rd sa 0x11#6) = .ok (.mthi rs) ∧ decode (rWord 0x00#6 rs rt rd sa 0x13#6) = .ok (.mtlo rs) ∧
    (∃ t, exec (.mfhi rd) s = .next t ∧ s.WritesReg t rd s.hi) ∧
    (∃ t, exec (.mflo rd) s = .next t ∧ s.WritesReg t rd s.lo) ∧
    (∃ t, exec (.mthi rs) s = .next t ∧ s.OnlyHiLo t ∧ t.hi = s.reg rs ∧ t.lo = s.lo) ∧
    (∃ t, exec (.mtlo rs) s = .next t ∧ s.OnlyHiLo t ∧ t.lo = s.reg rs ∧ t.hi = s.hi)

/-! ### Branches and jumps -/

/-- R216 to R221: the conditional branches outside a delay slot. -/
def Obligations.ConditionalBranches : Prop :=
  ∀ (rs rt : Reg) (imm : BitVec 16) (s : State) (target : Word), target = s.ipc + 4#32 + (imm.signExtend 32 <<< 2) →
    decode (iWord 0x04#6 rs rt imm) = .ok (.beq rs rt imm) ∧ decode (iWord 0x05#6 rs rt imm) = .ok (.bne rs rt imm) ∧
    decode (iWord 0x06#6 rs rt imm) = .ok (.blez rs imm) ∧ decode (iWord 0x07#6 rs rt imm) = .ok (.bgtz rs imm) ∧
    decode (iWord 0x01#6 rs 0 imm) = .ok (.bltz rs imm) ∧ decode (iWord 0x01#6 rs 1 imm) = .ok (.bgez rs imm) ∧
    (s.inDelay = false →
      (∃ t, exec (.beq rs rt imm) s = .next t ∧ s.Redirects t (decide (s.reg rs = s.reg rt)) target) ∧
      (∃ t, exec (.bne rs rt imm) s = .next t ∧ s.Redirects t (decide (s.reg rs ≠ s.reg rt)) target) ∧
      (∃ t, exec (.blez rs imm) s = .next t ∧ s.Redirects t (decide ((s.reg rs).toInt ≤ 0)) target) ∧
      (∃ t, exec (.bgtz rs imm) s = .next t ∧ s.Redirects t (decide ((s.reg rs).toInt > 0)) target) ∧
      (∃ t, exec (.bltz rs imm) s = .next t ∧ s.Redirects t (decide ((s.reg rs).toInt < 0)) target) ∧
      (∃ t, exec (.bgez rs imm) s = .next t ∧ s.Redirects t (decide ((s.reg rs).toInt ≥ 0)) target))

/-- R222 and R223: the linking branches outside a delay slot; the condition uses the old `x[rs]` and the link is written
whether or not the branch is taken. -/
def Obligations.LinkingBranches : Prop :=
  ∀ (rs : Reg) (imm : BitVec 16) (s : State) (target : Word), target = s.ipc + 4#32 + (imm.signExtend 32 <<< 2) →
    decode (iWord 0x01#6 rs 16 imm) = .ok (.bltzal rs imm) ∧ decode (iWord 0x01#6 rs 17 imm) = .ok (.bgezal rs imm) ∧
    (s.inDelay = false →
      (∃ u t, exec (.bltzal rs imm) s = .next t ∧ s.WritesReg u 31 (s.ipc + 8#32) ∧
        u.Redirects t (decide ((s.reg rs).toInt < 0)) target) ∧
      (∃ u t, exec (.bgezal rs imm) s = .next t ∧ s.WritesReg u 31 (s.ipc + 8#32) ∧
        u.Redirects t (decide ((s.reg rs).toInt ≥ 0)) target))

/-- R212 to R215: the jumps outside a delay slot; JALR jumps to the old `x[rs]`. -/
def Obligations.JumpsAndLinks : Prop :=
  (∀ (x : BitVec 26) (s : State) (target : Word), target = (s.ipc + 4#32).extractLsb' 28 4 ++ x ++ 0#2 →
    decode (jWord 0x02#6 x) = .ok (.j x) ∧ decode (jWord 0x03#6 x) = .ok (.jal x) ∧
    (s.inDelay = false →
      (∃ t, exec (.j x) s = .next t ∧ s.Redirects t true target) ∧
      (∃ u t, exec (.jal x) s = .next t ∧ s.WritesReg u 31 (s.ipc + 8#32) ∧ u.Redirects t true target))) ∧
  ∀ (rd rs rt : Reg) (sa : BitVec 5) (s : State),
    decode (rWord 0x00#6 rs rt rd sa 0x08#6) = .ok (.jr rs) ∧ decode (rWord 0x00#6 rs rt rd sa 0x09#6) = .ok (.jalr rd rs) ∧
    (s.inDelay = false →
      (∃ t, exec (.jr rs) s = .next t ∧ s.Redirects t true (s.reg rs)) ∧
      (∃ u t, exec (.jalr rd rs) s = .next t ∧ s.WritesReg u rd (s.ipc + 8#32) ∧ u.Redirects t true (s.reg rs)))

/-- R211: a branch or jump in a delay slot is refused, and only there. -/
def Obligations.BranchInDelaySlotRefused : Prop :=
  ∀ (i : Instr) (s : State), i.isBranch = true →
    (s.inDelay = true → exec i s = .refused .branchInDelaySlot) ∧
    (s.inDelay = false → ∃ t, exec i s = .next t ∧ t.brFlag = true)

/-- Derived (42_branch_jump.md R224, 15_pipeline.md R72): from a word-aligned `ipc` and `npc`, every branch and jump but JR and
JALR leaves `npc` word-aligned. -/
def Obligations.BranchTargetsAligned : Prop :=
  ∀ (i : Instr) (s t : State), exec i s = .next t → i.isBranch = true → (∀ rs, i ≠ .jr rs) → (∀ rd rs, i ≠ .jalr rd rs) →
    s.ipc.extractLsb' 0 2 = 0#2 → s.npc.extractLsb' 0 2 = 0#2 → t.npc.extractLsb' 0 2 = 0#2

/-! ### Loads and stores -/

/-- R241 to R245: the aligned loads; a misaligned or unmapped address raises AddressLoadError with BadVAddr = ea. -/
def Obligations.AlignedLoads : Prop :=
  ∀ (rt rs : Reg) (imm : BitVec 16) (s : State) (ea : Word), ea = s.reg rs + imm.signExtend 32 →
    decode (iWord 0x20#6 rs rt imm) = .ok (.lb rt rs imm) ∧ decode (iWord 0x24#6 rs rt imm) = .ok (.lbu rt rs imm) ∧
    decode (iWord 0x21#6 rs rt imm) = .ok (.lh rt rs imm) ∧ decode (iWord 0x25#6 rs rt imm) = .ok (.lhu rt rs imm) ∧
    decode (iWord 0x23#6 rs rt imm) = .ok (.lw rt rs imm) ∧
    (∀ b, s.memRead .byte ea = some b →
      (∃ t, exec (.lb rt rs imm) s = .next t ∧ s.WritesDelayed t rt (BitVec.ofInt 32 (b.setWidth 8).toInt)) ∧
      (∃ t, exec (.lbu rt rs imm) s = .next t ∧ s.WritesDelayed t rt (BitVec.ofNat 32 (b.setWidth 8).toNat))) ∧
    (∀ h, ea.getLsbD 0 = false → s.memRead .half ea = some h →
      (∃ t, exec (.lh rt rs imm) s = .next t ∧ s.WritesDelayed t rt (BitVec.ofInt 32 (h.setWidth 16).toInt)) ∧
      (∃ t, exec (.lhu rt rs imm) s = .next t ∧ s.WritesDelayed t rt (BitVec.ofNat 32 (h.setWidth 16).toNat))) ∧
    (∀ w, ea.extractLsb' 0 2 = 0#2 → s.memRead .word ea = some w →
      ∃ t, exec (.lw rt rs imm) s = .next t ∧ s.WritesDelayed t rt w) ∧
    (unmappedAddress ea → ∀ i ∈ [Instr.lb rt rs imm, .lbu rt rs imm, .lh rt rs imm, .lhu rt rs imm, .lw rt rs imm],
      ∃ t, exec i s = .next t ∧ s.EntersException t 4#5 none (some ea)) ∧
    (ea.getLsbD 0 = true → ∀ i ∈ [Instr.lh rt rs imm, .lhu rt rs imm],
      ∃ t, exec i s = .next t ∧ s.EntersException t 4#5 none (some ea)) ∧
    (ea.extractLsb' 0 2 ≠ 0#2 → ∃ t, exec (.lw rt rs imm) s = .next t ∧ s.EntersException t 4#5 none (some ea))

/-- R246 and R247, in their byte view: LWL and LWR merge the aligned word that holds `ea` with the value pending in slot 0
for `rt`, else with `x[rt]`; unmapped raises AddressLoadError with BadVAddr = the unaligned `ea`. -/
def Obligations.UnalignedLoads : Prop :=
  ∀ (rt rs : Reg) (imm : BitVec 16) (s : State) (ea cur : Word) (k : Nat), ea = s.reg rs + imm.signExtend 32 →
    k = ea.toNat % 4 →
    (cur = match s.ld0 with
      | some (q, v) => if q = rt then v else s.reg rt
      | none => s.reg rt) →
    decode (iWord 0x22#6 rs rt imm) = .ok (.lwl rt rs imm) ∧ decode (iWord 0x26#6 rs rt imm) = .ok (.lwr rt rs imm) ∧
    (∀ w, s.memRead .word (ea &&& 0xFFFFFFFC#32) = some w →
      (∃ t r, exec (.lwl rt rs imm) s = .next t ∧ s.WritesDelayed t rt r ∧
        ∀ j, j < 4 → byteOf r j = if 3 - k ≤ j then byteOf w (j - (3 - k)) else byteOf cur j) ∧
      (∃ t r, exec (.lwr rt rs imm) s = .next t ∧ s.WritesDelayed t rt r ∧
        ∀ j, j < 4 → byteOf r j = if j ≤ 3 - k then byteOf w (j + k) else byteOf cur j)) ∧
    (unmappedAddress (ea &&& 0xFFFFFFFC#32) → ∀ i ∈ [Instr.lwl rt rs imm, .lwr rt rs imm],
      ∃ t, exec i s = .next t ∧ s.EntersException t 4#5 none (some ea))

/-- R248 to R250: SB, SH and SW store the low bytes of `x[rt]` at `ea` through the isolation gate and the bus; a misaligned
SH or SW raises AddressStoreError with BadVAddr = ea even when the cache is isolated. -/
def Obligations.AlignedStores : Prop :=
  ∀ (rt rs : Reg) (imm : BitVec 16) (s : State) (ea : Word), ea = s.reg rs + imm.signExtend 32 → s.mem.wf = true →
    decode (iWord 0x28#6 rs rt imm) = .ok (.sb rt rs imm) ∧ decode (iWord 0x29#6 rs rt imm) = .ok (.sh rt rs imm) ∧
    decode (iWord 0x2B#6 rs rt imm) = .ok (.sw rt rs imm) ∧
    (ea.getLsbD 0 = true → ∃ t, exec (.sh rt rs imm) s = .next t ∧ s.EntersException t 5#5 none (some ea)) ∧
    (ea.extractLsb' 0 2 ≠ 0#2 → ∃ t, exec (.sw rt rs imm) s = .next t ∧ s.EntersException t 5#5 none (some ea)) ∧
    ∀ (i : Instr) (n : Nat),
      (i = .sb rt rs imm ∧ n = 1) ∨ (i = .sh rt rs imm ∧ n = 2 ∧ ea.getLsbD 0 = false) ∨
        (i = .sw rt rs imm ∧ n = 4 ∧ ea.extractLsb' 0 2 = 0#2) →
      ∃ t, exec i s = .next t ∧ (∀ q, t.reg q = s.reg q) ∧
        (s.sr.getLsbD 16 = true → t = s) ∧
        (s.sr.getLsbD 16 = false → ccrAddress ea ∨ ramAddress ea → s.StoresBytes t ea n (byteOf (s.reg rt))) ∧
        (s.sr.getLsbD 16 = false → romAddress ea ∨ stubAddress ea → t = s) ∧
        (s.sr.getLsbD 16 = false → unmappedAddress ea →
          t = { s with diag := s.diag ++ [⟨ea, n, BitVec.ofNat 32 ((s.reg rt).toNat % 2 ^ (8 * n))⟩] })

/-- R251 and R252: SWL and SWR store their bytes of the aligned word that holds `ea`, and no other byte of it, through the
isolation gate and the bus; outside RAM and the cache-control register nothing but the diagnostic output changes, which
gets one event per unmapped byte. -/
def Obligations.UnalignedStores : Prop :=
  ∀ (rt rs : Reg) (imm : BitVec 16) (s : State) (ea base : Word) (k : Nat), ea = s.reg rs + imm.signExtend 32 →
    k = ea.toNat % 4 → base = ea &&& 0xFFFFFFFC#32 → s.mem.wf = true →
    decode (iWord 0x2A#6 rs rt imm) = .ok (.swl rt rs imm) ∧ decode (iWord 0x2E#6 rs rt imm) = .ok (.swr rt rs imm) ∧
    ∀ (i : Instr) (va : Word) (first n : Nat),
      (i = .swl rt rs imm ∧ va = base ∧ first = 3 - k ∧ n = k + 1) ∨
        (i = .swr rt rs imm ∧ va = ea ∧ first = 0 ∧ n = 4 - k) →
      ∃ t, exec i s = .next t ∧ (∀ q, t.reg q = s.reg q) ∧
        (s.sr.getLsbD 16 = true → t = s) ∧
        (s.sr.getLsbD 16 = false → ccrAddress base ∨ ramAddress base →
          s.StoresBytes t va n fun j => byteOf (s.reg rt) (first + j)) ∧
        (¬ ccrAddress base → ¬ ramAddress base → t = { s with diag := t.diag } ∧ ∀ a, t.readByte a = s.readByte a) ∧
        (s.sr.getLsbD 16 = false → ¬ ccrAddress base → ¬ ramAddress base →
          t.diag = s.diag ++ ((List.range n).filter fun j => decide (unmappedAddress (va + BitVec.ofNat 32 j))).map fun j =>
            ⟨va + BitVec.ofNat 32 j, 1, (byteOf (s.reg rt) (first + j)).setWidth 32⟩)

/-- Derived (43_load_store.md R253): LWR at `a`, then LWL of the same register at `a + 3` in the next step, leaves the
little-endian word at bytes `a .. a + 3` pending for the register, whatever the two registers hold and wherever `a` is. -/
def Obligations.UnalignedLoadIdiom : Prop :=
  ∀ (s t u : State) (rt rs rs' : Reg) (imm imm' : BitVec 16) (a : Word) (b0 b1 b2 b3 : Byte),
    a = s.reg rs + imm.signExtend 32 → s.readByte a = some b0 → s.readByte (a + 1#32) = some b1 →
    s.readByte (a + 2#32) = some b2 → s.readByte (a + 3#32) = some b3 →
    exec (.lwr rt rs imm) s = .next t →
    u.mem = t.mem → u.ccr = t.ccr → u.ld0 = t.ld1 → u.reg rs' + imm'.signExtend 32 = a + 3#32 →
    ∃ v, exec (.lwl rt rs' imm') u = .next v ∧ u.WritesDelayed v rt (b3 ++ b2 ++ b1 ++ b0)

/-! ### System and coprocessor instructions -/

/-- R272 and R273 (with R304, R305): SYSCALL and BREAK always raise their exception, in every mode and for every code. -/
def Obligations.SyscallAndBreak : Prop :=
  ∀ (rs rt rd : Reg) (sa : BitVec 5) (s : State),
    decode (rWord 0x00#6 rs rt rd sa 0x0C#6) = .ok .syscall ∧ decode (rWord 0x00#6 rs rt rd sa 0x0D#6) = .ok .brk ∧
    (∃ t, exec .syscall s = .next t ∧ s.EntersException t 8#5 none none) ∧
    (∃ t, exec .brk s = .next t ∧ s.EntersException t 9#5 none none)

/-- R274: MFC0, by register and by usability. -/
def Obligations.MoveFromCop0 : Prop :=
  ∀ (rt rd : Reg) (sa : BitVec 5) (f : BitVec 6) (s : State),
    decode (rWord 0x10#6 0 rt rd sa f) = .ok (.mfc0 rt rd) ∧
    (¬ s.Cop0Open → ∃ t, exec (.mfc0 rt rd) s = .next t ∧ s.EntersException t 11#5 (some 0#2) none) ∧
    (s.Cop0Open →
      (∃ t, exec (.mfc0 rt 8) s = .next t ∧ s.WritesDelayed t rt s.badv) ∧
      (∃ t, exec (.mfc0 rt 12) s = .next t ∧ s.WritesDelayed t rt s.sr) ∧
      (∃ t, exec (.mfc0 rt 13) s = .next t ∧ s.WritesDelayed t rt s.cause) ∧
      (∃ t, exec (.mfc0 rt 14) s = .next t ∧ s.WritesDelayed t rt s.epc) ∧
      (rd ∉ ([8, 12, 13, 14] : List Reg) → ∃ t, exec (.mfc0 rt rd) s = .next t ∧ s.EntersException t 10#5 none none))

/-- R275 and R276: MTC0 writes all of Status, only bits 9:8 of Cause, and nothing for any other register; RFE pops the Status
stack; both raise CoprocessorUnusable with CE = 0 while COP0 is not usable. -/
def Obligations.MoveToCop0AndRfe : Prop :=
  ∀ (rt rd : Reg) (sa : BitVec 5) (f : BitVec 6) (s : State),
    decode (rWord 0x10#6 4 rt rd sa f) = .ok (.mtc0 rt rd) ∧ decode (rWord 0x10#6 16 rt rd sa 0x10#6) = .ok .rfe ∧
    (¬ s.Cop0Open → ∀ i ∈ [Instr.mtc0 rt rd, .rfe],
      ∃ t, exec i s = .next t ∧ s.EntersException t 11#5 (some 0#2) none) ∧
    (s.Cop0Open →
      (∃ t, exec (.mtc0 rt 12) s = .next t ∧ s.OnlyStatusCause t ∧ t.sr = s.reg rt ∧ t.cause = s.cause) ∧
      (∃ t, exec (.mtc0 rt 13) s = .next t ∧ s.OnlyStatusCause t ∧ t.sr = s.sr ∧
        (∀ n, n = 8 ∨ n = 9 → t.cause.getLsbD n = (s.reg rt).getLsbD n) ∧
        ∀ n, n ≠ 8 → n ≠ 9 → t.cause.getLsbD n = s.cause.getLsbD n) ∧
      (rd ≠ 12 → rd ≠ 13 → ∃ t, exec (.mtc0 rt rd) s = .next t ∧ t = s) ∧
      (∃ t, exec .rfe s = .next t ∧ s.OnlyStatusCause t ∧ t.cause = s.cause ∧
        (∀ n, n < 4 → t.sr.getLsbD n = s.sr.getLsbD (n + 2)) ∧ ∀ n, 4 ≤ n → t.sr.getLsbD n = s.sr.getLsbD n))

/-- R280 to R286: the instructions of coprocessors this core lacks. COP1, COP3 and LWCz/SWCz for z = 1, 3 need CUz in every
mode, LWC0 and SWC0 need COP0 usable: CoprocessorUnusable with CE = z without it, ReservedInstruction with it. The coprocessor 2
operations raise CoprocessorUnusable with CE = 2 while CU2 = 0 and are refused while CU2 = 1. -/
def Obligations.AbsentCoprocessors : Prop :=
  (∀ x : BitVec 26,
    decode (jWord 0x11#6 x) = .ok .cop1 ∧ decode (jWord 0x12#6 x) = .ok .cop2 ∧ decode (jWord 0x13#6 x) = .ok .cop3 ∧
    decode (jWord 0x30#6 x) = .ok .lwc0 ∧ decode (jWord 0x31#6 x) = .ok .lwc1 ∧ decode (jWord 0x32#6 x) = .ok .lwc2 ∧
    decode (jWord 0x33#6 x) = .ok .lwc3 ∧ decode (jWord 0x38#6 x) = .ok .swc0 ∧ decode (jWord 0x39#6 x) = .ok .swc1 ∧
    decode (jWord 0x3A#6 x) = .ok .swc2 ∧ decode (jWord 0x3B#6 x) = .ok .swc3) ∧
  ∀ s : State,
    (∀ i ∈ [Instr.lwc0, .swc0],
      (¬ s.Cop0Open → ∃ t, exec i s = .next t ∧ s.EntersException t 11#5 (some 0#2) none) ∧
      (s.Cop0Open → ∃ t, exec i s = .next t ∧ s.EntersException t 10#5 none none)) ∧
    (∀ i ∈ [Instr.cop1, .lwc1, .swc1],
      (s.sr.getLsbD 29 = false → ∃ t, exec i s = .next t ∧ s.EntersException t 11#5 (some 1#2) none) ∧
      (s.sr.getLsbD 29 = true → ∃ t, exec i s = .next t ∧ s.EntersException t 10#5 none none)) ∧
    (∀ i ∈ [Instr.cop3, .lwc3, .swc3],
      (s.sr.getLsbD 31 = false → ∃ t, exec i s = .next t ∧ s.EntersException t 11#5 (some 3#2) none) ∧
      (s.sr.getLsbD 31 = true → ∃ t, exec i s = .next t ∧ s.EntersException t 10#5 none none)) ∧
    ∀ i ∈ [Instr.cop2, .lwc2, .swc2],
      (s.sr.getLsbD 30 = false → ∃ t, exec i s = .next t ∧ s.EntersException t 11#5 (some 2#2) none) ∧
      (s.sr.getLsbD 30 = true → exec i s = .refused .cop2Present)
end

