-- ==== Sys2Proof/Laws/State.lean ====
section
/-! SUPPORT. What each shared update does to each field of State: one lemma per field per update, and what the accessors
`reg`, `readByte` and `memRead` see of it. -/

namespace Sys2Proof.Machine.State

variable (s t : State)

/-! ### `writeReg` (15_pipeline.md R66) -/

@[simp] theorem writeReg_pc (r : Reg) (v : Word) : (s.writeReg r v).pc = s.pc := by unfold writeReg; split <;> rfl
@[simp] theorem writeReg_npc (r : Reg) (v : Word) : (s.writeReg r v).npc = s.npc := by unfold writeReg; split <;> rfl
@[simp] theorem writeReg_ipc (r : Reg) (v : Word) : (s.writeReg r v).ipc = s.ipc := by unfold writeReg; split <;> rfl
@[simp] theorem writeReg_inDelay (r : Reg) (v : Word) : (s.writeReg r v).inDelay = s.inDelay := by unfold writeReg; split <;> rfl
@[simp] theorem writeReg_inTaken (r : Reg) (v : Word) : (s.writeReg r v).inTaken = s.inTaken := by unfold writeReg; split <;> rfl
@[simp] theorem writeReg_brFlag (r : Reg) (v : Word) : (s.writeReg r v).brFlag = s.brFlag := by unfold writeReg; split <;> rfl
@[simp] theorem writeReg_tkFlag (r : Reg) (v : Word) : (s.writeReg r v).tkFlag = s.tkFlag := by unfold writeReg; split <;> rfl
@[simp] theorem writeReg_hi (r : Reg) (v : Word) : (s.writeReg r v).hi = s.hi := by unfold writeReg; split <;> rfl
@[simp] theorem writeReg_lo (r : Reg) (v : Word) : (s.writeReg r v).lo = s.lo := by unfold writeReg; split <;> rfl
@[simp] theorem writeReg_sr (r : Reg) (v : Word) : (s.writeReg r v).sr = s.sr := by unfold writeReg; split <;> rfl
@[simp] theorem writeReg_cause (r : Reg) (v : Word) : (s.writeReg r v).cause = s.cause := by unfold writeReg; split <;> rfl
@[simp] theorem writeReg_epc (r : Reg) (v : Word) : (s.writeReg r v).epc = s.epc := by unfold writeReg; split <;> rfl
@[simp] theorem writeReg_badv (r : Reg) (v : Word) : (s.writeReg r v).badv = s.badv := by unfold writeReg; split <;> rfl
@[simp] theorem writeReg_ccr (r : Reg) (v : Word) : (s.writeReg r v).ccr = s.ccr := by unfold writeReg; split <;> rfl
@[simp] theorem writeReg_mem (r : Reg) (v : Word) : (s.writeReg r v).mem = s.mem := by unfold writeReg; split <;> rfl
@[simp] theorem writeReg_intIn (r : Reg) (v : Word) : (s.writeReg r v).intIn = s.intIn := by unfold writeReg; split <;> rfl
@[simp] theorem writeReg_diag (r : Reg) (v : Word) : (s.writeReg r v).diag = s.diag := by unfold writeReg; split <;> rfl
@[simp] theorem writeReg_refused (r : Reg) (v : Word) : (s.writeReg r v).refused = s.refused := by unfold writeReg; split <;> rfl
@[simp] theorem writeReg_targetByte (r : Reg) (v : Word) (d : BusTarget) (i : Nat) :
    (s.writeReg r v).targetByte d i = s.targetByte d i := by cases d <;> simp [targetByte]
@[simp] theorem writeReg_readByte (r : Reg) (v : Word) (a : Word) : (s.writeReg r v).readByte a = s.readByte a := by simp [readByte]
@[simp] theorem writeReg_memRead (r : Reg) (v : Word) (w : Width) (a : Word) :
    (s.writeReg r v).memRead w a = s.memRead w a := by
  unfold memRead; rw [show (s.writeReg r v).targetByte = s.targetByte by funext x i; simp]

/-- The register file after a synchronous write (10_state.md R21). -/
@[simp] theorem writeReg_reg (r : Reg) (v : Word) (q : Reg) :
    (s.writeReg r v).reg q = if q = r ∧ r ≠ 0 then v else s.reg q := by
  unfold writeReg reg
  by_cases hr : r = 0
  · simp [hr]
  · by_cases hq : q = r
    · subst hq; simp [hr]
    · have : (r : Nat) ≠ q := fun h => hq (Fin.ext h.symm)
      simp [hr, hq, this]

/-- A synchronous write to register 0 is no write (10_state.md R21). -/
@[simp] theorem writeReg_zero (v : Word) : s.writeReg 0 v = s := by simp [writeReg]

theorem cancelSlot_eq (r : Reg) (o : Option (Reg × Word)) :
    cancelSlot r o = if o.map (·.1) = some r then none else o := by
  rcases o with _ | ⟨q, v⟩ <;> simp [cancelSlot]

theorem writeReg_ld0 (r : Reg) (v : Word) :
    (s.writeReg r v).ld0 = if r ≠ 0 ∧ s.ld0.map (·.1) = some r then none else s.ld0 := by
  unfold writeReg; by_cases hr : r = 0 <;> simp [hr, cancelSlot_eq]

theorem writeReg_ld1 (r : Reg) (v : Word) :
    (s.writeReg r v).ld1 = if r ≠ 0 ∧ s.ld1.map (·.1) = some r then none else s.ld1 := by
  unfold writeReg; by_cases hr : r = 0 <;> simp [hr, cancelSlot_eq]

theorem writeReg_rest (r : Reg) (v : Word) :
    s.writeReg r v = { s with
      regs := (s.writeReg r v).regs, ld0 := (s.writeReg r v).ld0, ld1 := (s.writeReg r v).ld1 } := by
  unfold writeReg; split <;> rfl

/-! ### `delayedWrite` (R67) -/

@[simp] theorem delayedWrite_regs (r : Reg) (v : Word) : (s.delayedWrite r v).regs = s.regs := rfl
@[simp] theorem delayedWrite_pc (r : Reg) (v : Word) : (s.delayedWrite r v).pc = s.pc := rfl
@[simp] theorem delayedWrite_npc (r : Reg) (v : Word) : (s.delayedWrite r v).npc = s.npc := rfl
@[simp] theorem delayedWrite_ipc (r : Reg) (v : Word) : (s.delayedWrite r v).ipc = s.ipc := rfl
@[simp] theorem delayedWrite_inDelay (r : Reg) (v : Word) : (s.delayedWrite r v).inDelay = s.inDelay := rfl
@[simp] theorem delayedWrite_inTaken (r : Reg) (v : Word) : (s.delayedWrite r v).inTaken = s.inTaken := rfl
@[simp] theorem delayedWrite_ld0 (r : Reg) (v : Word) : (s.delayedWrite r v).ld0 = s.ld0 := rfl
@[simp] theorem delayedWrite_ld1 (r : Reg) (v : Word) : (s.delayedWrite r v).ld1 = some (r, v) := rfl
@[simp] theorem delayedWrite_brFlag (r : Reg) (v : Word) : (s.delayedWrite r v).brFlag = s.brFlag := rfl
@[simp] theorem delayedWrite_tkFlag (r : Reg) (v : Word) : (s.delayedWrite r v).tkFlag = s.tkFlag := rfl
@[simp] theorem delayedWrite_hi (r : Reg) (v : Word) : (s.delayedWrite r v).hi = s.hi := rfl
@[simp] theorem delayedWrite_lo (r : Reg) (v : Word) : (s.delayedWrite r v).lo = s.lo := rfl
@[simp] theorem delayedWrite_sr (r : Reg) (v : Word) : (s.delayedWrite r v).sr = s.sr := rfl
@[simp] theorem delayedWrite_cause (r : Reg) (v : Word) : (s.delayedWrite r v).cause = s.cause := rfl
@[simp] theorem delayedWrite_epc (r : Reg) (v : Word) : (s.delayedWrite r v).epc = s.epc := rfl
@[simp] theorem delayedWrite_badv (r : Reg) (v : Word) : (s.delayedWrite r v).badv = s.badv := rfl
@[simp] theorem delayedWrite_ccr (r : Reg) (v : Word) : (s.delayedWrite r v).ccr = s.ccr := rfl
@[simp] theorem delayedWrite_mem (r : Reg) (v : Word) : (s.delayedWrite r v).mem = s.mem := rfl
@[simp] theorem delayedWrite_intIn (r : Reg) (v : Word) : (s.delayedWrite r v).intIn = s.intIn := rfl
@[simp] theorem delayedWrite_diag (r : Reg) (v : Word) : (s.delayedWrite r v).diag = s.diag := rfl
@[simp] theorem delayedWrite_refused (r : Reg) (v : Word) : (s.delayedWrite r v).refused = s.refused := rfl
@[simp] theorem delayedWrite_reg (r : Reg) (v : Word) (q : Reg) : (s.delayedWrite r v).reg q = s.reg q := rfl
@[simp] theorem delayedWrite_targetByte (r : Reg) (v : Word) (d : BusTarget) (i : Nat) :
    (s.delayedWrite r v).targetByte d i = s.targetByte d i := rfl
@[simp] theorem delayedWrite_readByte (r : Reg) (v : Word) (a : Word) : (s.delayedWrite r v).readByte a = s.readByte a := rfl
@[simp] theorem delayedWrite_memRead (r : Reg) (v : Word) (w : Width) (a : Word) :
    (s.delayedWrite r v).memRead w a = s.memRead w a := rfl

/-! ### `ageLoadDelay` (R68) -/

@[simp] theorem ageLoadDelay_regs : (s.ageLoadDelay).regs = s.committedRegs := rfl
@[simp] theorem ageLoadDelay_pc : (s.ageLoadDelay).pc = s.pc := rfl
@[simp] theorem ageLoadDelay_npc : (s.ageLoadDelay).npc = s.npc := rfl
@[simp] theorem ageLoadDelay_ipc : (s.ageLoadDelay).ipc = s.ipc := rfl
@[simp] theorem ageLoadDelay_inDelay : (s.ageLoadDelay).inDelay = s.inDelay := rfl
@[simp] theorem ageLoadDelay_inTaken : (s.ageLoadDelay).inTaken = s.inTaken := rfl
@[simp] theorem ageLoadDelay_ld0 : (s.ageLoadDelay).ld0 = s.ld1 := rfl
@[simp] theorem ageLoadDelay_ld1 : (s.ageLoadDelay).ld1 = none := rfl
@[simp] theorem ageLoadDelay_brFlag : (s.ageLoadDelay).brFlag = s.brFlag := rfl
@[simp] theorem ageLoadDelay_tkFlag : (s.ageLoadDelay).tkFlag = s.tkFlag := rfl
@[simp] theorem ageLoadDelay_hi : (s.ageLoadDelay).hi = s.hi := rfl
@[simp] theorem ageLoadDelay_lo : (s.ageLoadDelay).lo = s.lo := rfl
@[simp] theorem ageLoadDelay_sr : (s.ageLoadDelay).sr = s.sr := rfl
@[simp] theorem ageLoadDelay_cause : (s.ageLoadDelay).cause = s.cause := rfl
@[simp] theorem ageLoadDelay_epc : (s.ageLoadDelay).epc = s.epc := rfl
@[simp] theorem ageLoadDelay_badv : (s.ageLoadDelay).badv = s.badv := rfl
@[simp] theorem ageLoadDelay_ccr : (s.ageLoadDelay).ccr = s.ccr := rfl
@[simp] theorem ageLoadDelay_mem : (s.ageLoadDelay).mem = s.mem := rfl
@[simp] theorem ageLoadDelay_intIn : (s.ageLoadDelay).intIn = s.intIn := rfl
@[simp] theorem ageLoadDelay_diag : (s.ageLoadDelay).diag = s.diag := rfl
@[simp] theorem ageLoadDelay_refused : (s.ageLoadDelay).refused = s.refused := rfl
@[simp] theorem ageLoadDelay_targetByte (d : BusTarget) (i : Nat) :
    (s.ageLoadDelay).targetByte d i = s.targetByte d i := rfl
@[simp] theorem ageLoadDelay_readByte (a : Word) : (s.ageLoadDelay).readByte a = s.readByte a := rfl
@[simp] theorem ageLoadDelay_memRead (w : Width) (a : Word) :
    (s.ageLoadDelay).memRead w a = s.memRead w a := rfl

/-- The register file after the commit of slot 0 (R68, 10_state.md R21). -/
theorem ageLoadDelay_reg (q : Reg) :
    s.ageLoadDelay.reg q = match s.ld0 with
      | some (r, v) => if q = r ∧ r ≠ 0 then v else s.reg q
      | none => s.reg q := by
  unfold reg ageLoadDelay committedRegs
  rcases s.ld0 with _ | ⟨r, v⟩
  · rfl
  · by_cases hr : r = 0
    · simp [hr]
    · by_cases hq : q = r
      · subst hq; simp [hr]
      · have : (r : Nat) ≠ q := fun h => hq (Fin.ext h.symm)
        simp [hr, hq, this]

/-! ### `emit` (20_memory.md R96) -/

@[simp] theorem emit_regs (k : Width) (va v : Word) : (s.emit k va v).regs = s.regs := rfl
@[simp] theorem emit_pc (k : Width) (va v : Word) : (s.emit k va v).pc = s.pc := rfl
@[simp] theorem emit_npc (k : Width) (va v : Word) : (s.emit k va v).npc = s.npc := rfl
@[simp] theorem emit_ipc (k : Width) (va v : Word) : (s.emit k va v).ipc = s.ipc := rfl
@[simp] theorem emit_inDelay (k : Width) (va v : Word) : (s.emit k va v).inDelay = s.inDelay := rfl
@[simp] theorem emit_inTaken (k : Width) (va v : Word) : (s.emit k va v).inTaken = s.inTaken := rfl
@[simp] theorem emit_ld0 (k : Width) (va v : Word) : (s.emit k va v).ld0 = s.ld0 := rfl
@[simp] theorem emit_ld1 (k : Width) (va v : Word) : (s.emit k va v).ld1 = s.ld1 := rfl
@[simp] theorem emit_brFlag (k : Width) (va v : Word) : (s.emit k va v).brFlag = s.brFlag := rfl
@[simp] theorem emit_tkFlag (k : Width) (va v : Word) : (s.emit k va v).tkFlag = s.tkFlag := rfl
@[simp] theorem emit_hi (k : Width) (va v : Word) : (s.emit k va v).hi = s.hi := rfl
@[simp] theorem emit_lo (k : Width) (va v : Word) : (s.emit k va v).lo = s.lo := rfl
@[simp] theorem emit_sr (k : Width) (va v : Word) : (s.emit k va v).sr = s.sr := rfl
@[simp] theorem emit_cause (k : Width) (va v : Word) : (s.emit k va v).cause = s.cause := rfl
@[simp] theorem emit_epc (k : Width) (va v : Word) : (s.emit k va v).epc = s.epc := rfl
@[simp] theorem emit_badv (k : Width) (va v : Word) : (s.emit k va v).badv = s.badv := rfl
@[simp] theorem emit_ccr (k : Width) (va v : Word) : (s.emit k va v).ccr = s.ccr := rfl
@[simp] theorem emit_mem (k : Width) (va v : Word) : (s.emit k va v).mem = s.mem := rfl
@[simp] theorem emit_intIn (k : Width) (va v : Word) : (s.emit k va v).intIn = s.intIn := rfl
@[simp] theorem emit_diag (k : Width) (va v : Word) : (s.emit k va v).diag = s.diag ++ [⟨va, k.bytes, k.low v⟩] := rfl
@[simp] theorem emit_refused (k : Width) (va v : Word) : (s.emit k va v).refused = s.refused := rfl
@[simp] theorem emit_reg (k : Width) (va v : Word) (q : Reg) : (s.emit k va v).reg q = s.reg q := rfl
@[simp] theorem emit_targetByte (k : Width) (va v : Word) (d : BusTarget) (i : Nat) :
    (s.emit k va v).targetByte d i = s.targetByte d i := rfl
@[simp] theorem emit_readByte (k : Width) (va v : Word) (a : Word) : (s.emit k va v).readByte a = s.readByte a := rfl
@[simp] theorem emit_memRead (k : Width) (va v : Word) (w : Width) (a : Word) :
    (s.emit k va v).memRead w a = s.memRead w a := rfl

/-! ### `branchTo` (15_pipeline.md R75) -/

@[simp] theorem branchTo_regs (c : Bool) (x : Word) : (s.branchTo c x).regs = s.regs := rfl
@[simp] theorem branchTo_pc (c : Bool) (x : Word) : (s.branchTo c x).pc = s.pc := rfl
@[simp] theorem branchTo_npc (c : Bool) (x : Word) : (s.branchTo c x).npc = if c then x else s.npc := rfl
@[simp] theorem branchTo_ipc (c : Bool) (x : Word) : (s.branchTo c x).ipc = s.ipc := rfl
@[simp] theorem branchTo_inDelay (c : Bool) (x : Word) : (s.branchTo c x).inDelay = s.inDelay := rfl
@[simp] theorem branchTo_inTaken (c : Bool) (x : Word) : (s.branchTo c x).inTaken = s.inTaken := rfl
@[simp] theorem branchTo_ld0 (c : Bool) (x : Word) : (s.branchTo c x).ld0 = s.ld0 := rfl
@[simp] theorem branchTo_ld1 (c : Bool) (x : Word) : (s.branchTo c x).ld1 = s.ld1 := rfl
@[simp] theorem branchTo_brFlag (c : Bool) (x : Word) : (s.branchTo c x).brFlag = true := rfl
@[simp] theorem branchTo_tkFlag (c : Bool) (x : Word) : (s.branchTo c x).tkFlag = c := rfl
@[simp] theorem branchTo_hi (c : Bool) (x : Word) : (s.branchTo c x).hi = s.hi := rfl
@[simp] theorem branchTo_lo (c : Bool) (x : Word) : (s.branchTo c x).lo = s.lo := rfl
@[simp] theorem branchTo_sr (c : Bool) (x : Word) : (s.branchTo c x).sr = s.sr := rfl
@[simp] theorem branchTo_cause (c : Bool) (x : Word) : (s.branchTo c x).cause = s.cause := rfl
@[simp] theorem branchTo_epc (c : Bool) (x : Word) : (s.branchTo c x).epc = s.epc := rfl
@[simp] theorem branchTo_badv (c : Bool) (x : Word) : (s.branchTo c x).badv = s.badv := rfl
@[simp] theorem branchTo_ccr (c : Bool) (x : Word) : (s.branchTo c x).ccr = s.ccr := rfl
@[simp] theorem branchTo_mem (c : Bool) (x : Word) : (s.branchTo c x).mem = s.mem := rfl
@[simp] theorem branchTo_intIn (c : Bool) (x : Word) : (s.branchTo c x).intIn = s.intIn := rfl
@[simp] theorem branchTo_diag (c : Bool) (x : Word) : (s.branchTo c x).diag = s.diag := rfl
@[simp] theorem branchTo_refused (c : Bool) (x : Word) : (s.branchTo c x).refused = s.refused := rfl
@[simp] theorem branchTo_reg (c : Bool) (x : Word) (q : Reg) : (s.branchTo c x).reg q = s.reg q := rfl
@[simp] theorem branchTo_targetByte (c : Bool) (x : Word) (d : BusTarget) (i : Nat) :
    (s.branchTo c x).targetByte d i = s.targetByte d i := rfl
@[simp] theorem branchTo_readByte (c : Bool) (x : Word) (a : Word) : (s.branchTo c x).readByte a = s.readByte a := rfl
@[simp] theorem branchTo_memRead (c : Bool) (x : Word) (w : Width) (a : Word) :
    (s.branchTo c x).memRead w a = s.memRead w a := rfl

/-! ### `enterException` (60_exceptions.md R310) -/

@[simp] theorem enterException_regs (e : ExceptionKind) : (s.enterException e).regs = s.regs := rfl
@[simp] theorem enterException_pc (e : ExceptionKind) : (s.enterException e).pc = s.vector := rfl
@[simp] theorem enterException_npc (e : ExceptionKind) : (s.enterException e).npc = s.vector + 4#32 := rfl
@[simp] theorem enterException_ipc (e : ExceptionKind) : (s.enterException e).ipc = s.ipc := rfl
@[simp] theorem enterException_inDelay (e : ExceptionKind) : (s.enterException e).inDelay = s.inDelay := rfl
@[simp] theorem enterException_inTaken (e : ExceptionKind) : (s.enterException e).inTaken = s.inTaken := rfl
@[simp] theorem enterException_ld0 (e : ExceptionKind) : (s.enterException e).ld0 = s.ld0 := rfl
@[simp] theorem enterException_ld1 (e : ExceptionKind) : (s.enterException e).ld1 = s.ld1 := rfl
@[simp] theorem enterException_brFlag (e : ExceptionKind) : (s.enterException e).brFlag = s.brFlag := rfl
@[simp] theorem enterException_tkFlag (e : ExceptionKind) : (s.enterException e).tkFlag = s.tkFlag := rfl
@[simp] theorem enterException_hi (e : ExceptionKind) : (s.enterException e).hi = s.hi := rfl
@[simp] theorem enterException_lo (e : ExceptionKind) : (s.enterException e).lo = s.lo := rfl
@[simp] theorem enterException_sr (e : ExceptionKind) : (s.enterException e).sr = pushStatus s.sr := rfl
@[simp] theorem enterException_cause (e : ExceptionKind) : (s.enterException e).cause = causeOnEntry s.cause s.inDelay (s.inDelay && s.inTaken) e.ce e.code := rfl
@[simp] theorem enterException_epc (e : ExceptionKind) : (s.enterException e).epc = s.resumeAddress := rfl
@[simp] theorem enterException_badv (e : ExceptionKind) : (s.enterException e).badv = e.badv.getD s.badv := rfl
@[simp] theorem enterException_ccr (e : ExceptionKind) : (s.enterException e).ccr = s.ccr := rfl
@[simp] theorem enterException_mem (e : ExceptionKind) : (s.enterException e).mem = s.mem := rfl
@[simp] theorem enterException_intIn (e : ExceptionKind) : (s.enterException e).intIn = s.intIn := rfl
@[simp] theorem enterException_diag (e : ExceptionKind) : (s.enterException e).diag = s.diag := rfl
@[simp] theorem enterException_refused (e : ExceptionKind) : (s.enterException e).refused = s.refused := rfl
@[simp] theorem enterException_reg (e : ExceptionKind) (q : Reg) : (s.enterException e).reg q = s.reg q := rfl
@[simp] theorem enterException_targetByte (e : ExceptionKind) (d : BusTarget) (i : Nat) :
    (s.enterException e).targetByte d i = s.targetByte d i := rfl
@[simp] theorem enterException_readByte (e : ExceptionKind) (a : Word) : (s.enterException e).readByte a = s.readByte a := rfl
@[simp] theorem enterException_memRead (e : ExceptionKind) (w : Width) (a : Word) :
    (s.enterException e).memRead w a = s.memRead w a := rfl

/-! ### `restoreStatus` (44_system_cop.md R276) -/

@[simp] theorem restoreStatus_regs : (s.restoreStatus).regs = s.regs := rfl
@[simp] theorem restoreStatus_pc : (s.restoreStatus).pc = s.pc := rfl
@[simp] theorem restoreStatus_npc : (s.restoreStatus).npc = s.npc := rfl
@[simp] theorem restoreStatus_ipc : (s.restoreStatus).ipc = s.ipc := rfl
@[simp] theorem restoreStatus_inDelay : (s.restoreStatus).inDelay = s.inDelay := rfl
@[simp] theorem restoreStatus_inTaken : (s.restoreStatus).inTaken = s.inTaken := rfl
@[simp] theorem restoreStatus_ld0 : (s.restoreStatus).ld0 = s.ld0 := rfl
@[simp] theorem restoreStatus_ld1 : (s.restoreStatus).ld1 = s.ld1 := rfl
@[simp] theorem restoreStatus_brFlag : (s.restoreStatus).brFlag = s.brFlag := rfl
@[simp] theorem restoreStatus_tkFlag : (s.restoreStatus).tkFlag = s.tkFlag := rfl
@[simp] theorem restoreStatus_hi : (s.restoreStatus).hi = s.hi := rfl
@[simp] theorem restoreStatus_lo : (s.restoreStatus).lo = s.lo := rfl
@[simp] theorem restoreStatus_sr : (s.restoreStatus).sr = popStatus s.sr := rfl
@[simp] theorem restoreStatus_cause : (s.restoreStatus).cause = s.cause := rfl
@[simp] theorem restoreStatus_epc : (s.restoreStatus).epc = s.epc := rfl
@[simp] theorem restoreStatus_badv : (s.restoreStatus).badv = s.badv := rfl
@[simp] theorem restoreStatus_ccr : (s.restoreStatus).ccr = s.ccr := rfl
@[simp] theorem restoreStatus_mem : (s.restoreStatus).mem = s.mem := rfl
@[simp] theorem restoreStatus_intIn : (s.restoreStatus).intIn = s.intIn := rfl
@[simp] theorem restoreStatus_diag : (s.restoreStatus).diag = s.diag := rfl
@[simp] theorem restoreStatus_refused : (s.restoreStatus).refused = s.refused := rfl
@[simp] theorem restoreStatus_reg (q : Reg) : (s.restoreStatus).reg q = s.reg q := rfl
@[simp] theorem restoreStatus_targetByte (d : BusTarget) (i : Nat) :
    (s.restoreStatus).targetByte d i = s.targetByte d i := rfl
@[simp] theorem restoreStatus_readByte (a : Word) : (s.restoreStatus).readByte a = s.readByte a := rfl
@[simp] theorem restoreStatus_memRead (w : Width) (a : Word) :
    (s.restoreStatus).memRead w a = s.memRead w a := rfl

/-! ### `writeHiLo` (41_muldiv.md R191) -/

@[simp] theorem writeHiLo_regs (p : Word × Word) : (s.writeHiLo p).regs = s.regs := rfl
@[simp] theorem writeHiLo_pc (p : Word × Word) : (s.writeHiLo p).pc = s.pc := rfl
@[simp] theorem writeHiLo_npc (p : Word × Word) : (s.writeHiLo p).npc = s.npc := rfl
@[simp] theorem writeHiLo_ipc (p : Word × Word) : (s.writeHiLo p).ipc = s.ipc := rfl
@[simp] theorem writeHiLo_inDelay (p : Word × Word) : (s.writeHiLo p).inDelay = s.inDelay := rfl
@[simp] theorem writeHiLo_inTaken (p : Word × Word) : (s.writeHiLo p).inTaken = s.inTaken := rfl
@[simp] theorem writeHiLo_ld0 (p : Word × Word) : (s.writeHiLo p).ld0 = s.ld0 := rfl
@[simp] theorem writeHiLo_ld1 (p : Word × Word) : (s.writeHiLo p).ld1 = s.ld1 := rfl
@[simp] theorem writeHiLo_brFlag (p : Word × Word) : (s.writeHiLo p).brFlag = s.brFlag := rfl
@[simp] theorem writeHiLo_tkFlag (p : Word × Word) : (s.writeHiLo p).tkFlag = s.tkFlag := rfl
@[simp] theorem writeHiLo_hi (p : Word × Word) : (s.writeHiLo p).hi = p.1 := rfl
@[simp] theorem writeHiLo_lo (p : Word × Word) : (s.writeHiLo p).lo = p.2 := rfl
@[simp] theorem writeHiLo_sr (p : Word × Word) : (s.writeHiLo p).sr = s.sr := rfl
@[simp] theorem writeHiLo_cause (p : Word × Word) : (s.writeHiLo p).cause = s.cause := rfl
@[simp] theorem writeHiLo_epc (p : Word × Word) : (s.writeHiLo p).epc = s.epc := rfl
@[simp] theorem writeHiLo_badv (p : Word × Word) : (s.writeHiLo p).badv = s.badv := rfl
@[simp] theorem writeHiLo_ccr (p : Word × Word) : (s.writeHiLo p).ccr = s.ccr := rfl
@[simp] theorem writeHiLo_mem (p : Word × Word) : (s.writeHiLo p).mem = s.mem := rfl
@[simp] theorem writeHiLo_intIn (p : Word × Word) : (s.writeHiLo p).intIn = s.intIn := rfl
@[simp] theorem writeHiLo_diag (p : Word × Word) : (s.writeHiLo p).diag = s.diag := rfl
@[simp] theorem writeHiLo_refused (p : Word × Word) : (s.writeHiLo p).refused = s.refused := rfl
@[simp] theorem writeHiLo_reg (p : Word × Word) (q : Reg) : (s.writeHiLo p).reg q = s.reg q := rfl
@[simp] theorem writeHiLo_targetByte (p : Word × Word) (d : BusTarget) (i : Nat) :
    (s.writeHiLo p).targetByte d i = s.targetByte d i := rfl
@[simp] theorem writeHiLo_readByte (p : Word × Word) (a : Word) : (s.writeHiLo p).readByte a = s.readByte a := rfl
@[simp] theorem writeHiLo_memRead (p : Word × Word) (w : Width) (a : Word) :
    (s.writeHiLo p).memRead w a = s.memRead w a := rfl

/-! ### `writeCop0` (44_system_cop.md R275) -/

@[simp] theorem writeCop0_regs (r : Reg) (v : Word) : (s.writeCop0 r v).regs = s.regs := by unfold writeCop0; split_ifs <;> rfl
@[simp] theorem writeCop0_pc (r : Reg) (v : Word) : (s.writeCop0 r v).pc = s.pc := by unfold writeCop0; split_ifs <;> rfl
@[simp] theorem writeCop0_npc (r : Reg) (v : Word) : (s.writeCop0 r v).npc = s.npc := by unfold writeCop0; split_ifs <;> rfl
@[simp] theorem writeCop0_ipc (r : Reg) (v : Word) : (s.writeCop0 r v).ipc = s.ipc := by unfold writeCop0; split_ifs <;> rfl
@[simp] theorem writeCop0_inDelay (r : Reg) (v : Word) : (s.writeCop0 r v).inDelay = s.inDelay := by unfold writeCop0; split_ifs <;> rfl
@[simp] theorem writeCop0_inTaken (r : Reg) (v : Word) : (s.writeCop0 r v).inTaken = s.inTaken := by unfold writeCop0; split_ifs <;> rfl
@[simp] theorem writeCop0_ld0 (r : Reg) (v : Word) : (s.writeCop0 r v).ld0 = s.ld0 := by unfold writeCop0; split_ifs <;> rfl
@[simp] theorem writeCop0_ld1 (r : Reg) (v : Word) : (s.writeCop0 r v).ld1 = s.ld1 := by unfold writeCop0; split_ifs <;> rfl
@[simp] theorem writeCop0_brFlag (r : Reg) (v : Word) : (s.writeCop0 r v).brFlag = s.brFlag := by unfold writeCop0; split_ifs <;> rfl
@[simp] theorem writeCop0_tkFlag (r : Reg) (v : Word) : (s.writeCop0 r v).tkFlag = s.tkFlag := by unfold writeCop0; split_ifs <;> rfl
@[simp] theorem writeCop0_hi (r : Reg) (v : Word) : (s.writeCop0 r v).hi = s.hi := by unfold writeCop0; split_ifs <;> rfl
@[simp] theorem writeCop0_lo (r : Reg) (v : Word) : (s.writeCop0 r v).lo = s.lo := by unfold writeCop0; split_ifs <;> rfl
@[simp] theorem writeCop0_epc (r : Reg) (v : Word) : (s.writeCop0 r v).epc = s.epc := by unfold writeCop0; split_ifs <;> rfl
@[simp] theorem writeCop0_badv (r : Reg) (v : Word) : (s.writeCop0 r v).badv = s.badv := by unfold writeCop0; split_ifs <;> rfl
@[simp] theorem writeCop0_ccr (r : Reg) (v : Word) : (s.writeCop0 r v).ccr = s.ccr := by unfold writeCop0; split_ifs <;> rfl
@[simp] theorem writeCop0_mem (r : Reg) (v : Word) : (s.writeCop0 r v).mem = s.mem := by unfold writeCop0; split_ifs <;> rfl
@[simp] theorem writeCop0_intIn (r : Reg) (v : Word) : (s.writeCop0 r v).intIn = s.intIn := by unfold writeCop0; split_ifs <;> rfl
@[simp] theorem writeCop0_diag (r : Reg) (v : Word) : (s.writeCop0 r v).diag = s.diag := by unfold writeCop0; split_ifs <;> rfl
@[simp] theorem writeCop0_refused (r : Reg) (v : Word) : (s.writeCop0 r v).refused = s.refused := by unfold writeCop0; split_ifs <;> rfl
@[simp] theorem writeCop0_reg (r : Reg) (v : Word) (q : Reg) : (s.writeCop0 r v).reg q = s.reg q := by simp [reg]
@[simp] theorem writeCop0_targetByte (r : Reg) (v : Word) (d : BusTarget) (i : Nat) :
    (s.writeCop0 r v).targetByte d i = s.targetByte d i := by cases d <;> simp [targetByte]
@[simp] theorem writeCop0_readByte (r : Reg) (v : Word) (a : Word) : (s.writeCop0 r v).readByte a = s.readByte a := by simp [readByte]
@[simp] theorem writeCop0_memRead (r : Reg) (v : Word) (w : Width) (a : Word) :
    (s.writeCop0 r v).memRead w a = s.memRead w a := by
  unfold memRead; rw [show (s.writeCop0 r v).targetByte = s.targetByte by funext x i; simp]

/-! ### `beginStep` (15_pipeline.md R61, R62) -/

@[simp] theorem beginStep_regs : (s.beginStep).regs = s.regs := rfl
@[simp] theorem beginStep_pc : (s.beginStep).pc = s.pc := rfl
@[simp] theorem beginStep_npc : (s.beginStep).npc = s.npc := rfl
@[simp] theorem beginStep_ipc : (s.beginStep).ipc = s.pc := rfl
@[simp] theorem beginStep_inDelay : (s.beginStep).inDelay = s.brFlag := rfl
@[simp] theorem beginStep_inTaken : (s.beginStep).inTaken = s.tkFlag := rfl
@[simp] theorem beginStep_ld0 : (s.beginStep).ld0 = s.ld0 := rfl
@[simp] theorem beginStep_ld1 : (s.beginStep).ld1 = s.ld1 := rfl
@[simp] theorem beginStep_brFlag : (s.beginStep).brFlag = false := rfl
@[simp] theorem beginStep_tkFlag : (s.beginStep).tkFlag = false := rfl
@[simp] theorem beginStep_hi : (s.beginStep).hi = s.hi := rfl
@[simp] theorem beginStep_lo : (s.beginStep).lo = s.lo := rfl
@[simp] theorem beginStep_sr : (s.beginStep).sr = s.sr := rfl
@[simp] theorem beginStep_cause : (s.beginStep).cause = causeWithLines s.cause s.intIn := rfl
@[simp] theorem beginStep_epc : (s.beginStep).epc = s.epc := rfl
@[simp] theorem beginStep_badv : (s.beginStep).badv = s.badv := rfl
@[simp] theorem beginStep_ccr : (s.beginStep).ccr = s.ccr := rfl
@[simp] theorem beginStep_mem : (s.beginStep).mem = s.mem := rfl
@[simp] theorem beginStep_intIn : (s.beginStep).intIn = s.intIn := rfl
@[simp] theorem beginStep_diag : (s.beginStep).diag = [] := rfl
@[simp] theorem beginStep_refused : (s.beginStep).refused = s.refused := rfl
@[simp] theorem beginStep_reg (q : Reg) : (s.beginStep).reg q = s.reg q := rfl
@[simp] theorem beginStep_targetByte (d : BusTarget) (i : Nat) :
    (s.beginStep).targetByte d i = s.targetByte d i := rfl
@[simp] theorem beginStep_readByte (a : Word) : (s.beginStep).readByte a = s.readByte a := rfl
@[simp] theorem beginStep_memRead (w : Width) (a : Word) :
    (s.beginStep).memRead w a = s.memRead w a := rfl

/-! ### `advance` (R64) -/

@[simp] theorem advance_regs : (s.advance).regs = s.regs := rfl
@[simp] theorem advance_pc : (s.advance).pc = s.npc := rfl
@[simp] theorem advance_npc : (s.advance).npc = s.npc + 4#32 := rfl
@[simp] theorem advance_ipc : (s.advance).ipc = s.ipc := rfl
@[simp] theorem advance_inDelay : (s.advance).inDelay = s.inDelay := rfl
@[simp] theorem advance_inTaken : (s.advance).inTaken = s.inTaken := rfl
@[simp] theorem advance_ld0 : (s.advance).ld0 = s.ld0 := rfl
@[simp] theorem advance_ld1 : (s.advance).ld1 = s.ld1 := rfl
@[simp] theorem advance_brFlag : (s.advance).brFlag = s.brFlag := rfl
@[simp] theorem advance_tkFlag : (s.advance).tkFlag = s.tkFlag := rfl
@[simp] theorem advance_hi : (s.advance).hi = s.hi := rfl
@[simp] theorem advance_lo : (s.advance).lo = s.lo := rfl
@[simp] theorem advance_sr : (s.advance).sr = s.sr := rfl
@[simp] theorem advance_cause : (s.advance).cause = s.cause := rfl
@[simp] theorem advance_epc : (s.advance).epc = s.epc := rfl
@[simp] theorem advance_badv : (s.advance).badv = s.badv := rfl
@[simp] theorem advance_ccr : (s.advance).ccr = s.ccr := rfl
@[simp] theorem advance_mem : (s.advance).mem = s.mem := rfl
@[simp] theorem advance_intIn : (s.advance).intIn = s.intIn := rfl
@[simp] theorem advance_diag : (s.advance).diag = s.diag := rfl
@[simp] theorem advance_refused : (s.advance).refused = s.refused := rfl
@[simp] theorem advance_reg (q : Reg) : (s.advance).reg q = s.reg q := rfl
@[simp] theorem advance_targetByte (d : BusTarget) (i : Nat) :
    (s.advance).targetByte d i = s.targetByte d i := rfl
@[simp] theorem advance_readByte (a : Word) : (s.advance).readByte a = s.readByte a := rfl
@[simp] theorem advance_memRead (w : Width) (a : Word) :
    (s.advance).memRead w a = s.memRead w a := rfl

end Sys2Proof.Machine.State
end

