-- ==== Sys2Proof/Laws/Bits.lean ====
section
/-! SUPPORT. The bits of Status and Cause after each update (60_exceptions.md R310, R313; 44_system_cop.md R276; 10_state.md
R41, R42). -/

namespace Sys2Proof.Machine

/-! ### The Status stack -/

theorem pushStatus_bit (sr : Word) (n : Nat) :
    (pushStatus sr).getLsbD n = if n < 2 then false else if n < 6 then sr.getLsbD (n - 2) else sr.getLsbD n := by
  unfold pushStatus; simp only [BitVec.getLsbD_append, BitVec.getLsbD_extractLsb', BitVec.getLsbD_zero]; grind

theorem popStatus_bit (sr : Word) (n : Nat) :
    (popStatus sr).getLsbD n = if n < 4 then sr.getLsbD (n + 2) else sr.getLsbD n := by
  unfold popStatus; simp only [BitVec.getLsbD_append, BitVec.getLsbD_extractLsb']; grind

/-! ### Cause -/

theorem causeOnEntry_bd (c : Word) (bd bt : Bool) (ce : Option (BitVec 2)) (code : BitVec 5) :
    (causeOnEntry c bd bt ce code).getLsbD 31 = bd := by
  unfold causeOnEntry; simp only [BitVec.getLsbD_append]; simp

theorem causeOnEntry_bt (c : Word) (bd bt : Bool) (ce : Option (BitVec 2)) (code : BitVec 5) :
    (causeOnEntry c bd bt ce code).getLsbD 30 = bt := by
  unfold causeOnEntry; simp only [BitVec.getLsbD_append]; simp

theorem causeOnEntry_ce (c : Word) (bd bt : Bool) (ce : Option (BitVec 2)) (code : BitVec 5) :
    (causeOnEntry c bd bt ce code).extractLsb' 28 2 = ce.getD (c.extractLsb' 28 2) := by
  unfold causeOnEntry; ext i hi; simp; grind

theorem causeOnEntry_code (c : Word) (bd bt : Bool) (ce : Option (BitVec 2)) (code : BitVec 5) :
    (causeOnEntry c bd bt ce code).extractLsb' 2 5 = code := by
  unfold causeOnEntry; ext i hi; simp; grind

/-- Every bit outside BD, BT, CE and ExcCode stays (R310). -/
theorem causeOnEntry_rest (c : Word) (bd bt : Bool) (ce : Option (BitVec 2)) (code : BitVec 5) (n : Nat)
    (h : n < 2 ∨ (6 < n ∧ n < 28)) : (causeOnEntry c bd bt ce code).getLsbD n = c.getLsbD n := by
  unfold causeOnEntry; simp only [BitVec.getLsbD_append, BitVec.getLsbD_extractLsb']; grind

theorem causeWithLines_bit (c : Word) (l : BitVec 6) (n : Nat) :
    (causeWithLines c l).getLsbD n = if n < 10 then c.getLsbD n else if n < 16 then l.getLsbD (n - 10) else c.getLsbD n := by
  unfold causeWithLines; simp only [BitVec.getLsbD_append, BitVec.getLsbD_extractLsb']; grind

theorem causeWithLines_lines (c : Word) (l : BitVec 6) : (causeWithLines c l).extractLsb' 10 6 = l := by
  unfold causeWithLines; ext i hi; simp; grind

theorem causeWithLines_code (c : Word) (l : BitVec 6) : (causeWithLines c l).extractLsb' 2 5 = c.extractLsb' 2 5 := by
  unfold causeWithLines; ext i hi; simp; grind

theorem causeWithSoftwareBits_bit (c v : Word) (n : Nat) :
    (causeWithSoftwareBits c v).getLsbD n = if n = 8 ∨ n = 9 then v.getLsbD n else c.getLsbD n := by
  unfold causeWithSoftwareBits; simp only [BitVec.getLsbD_append, BitVec.getLsbD_extractLsb']; grind

theorem causeWithSoftwareBits_code (c v : Word) :
    (causeWithSoftwareBits c v).extractLsb' 2 5 = c.extractLsb' 2 5 := by
  unfold causeWithSoftwareBits; ext i hi; simp; grind

theorem causeWithSoftwareBits_lines (c v : Word) :
    (causeWithSoftwareBits c v).extractLsb' 10 6 = c.extractLsb' 10 6 := by
  unfold causeWithSoftwareBits; ext i hi; simp; grind

theorem causeOnEntry_lines (c : Word) (bd bt : Bool) (ce : Option (BitVec 2)) (code : BitVec 5) :
    (causeOnEntry c bd bt ce code).extractLsb' 10 6 = c.extractLsb' 10 6 := by
  unfold causeOnEntry; ext i hi; simp; grind

/-! ### Conditions read from Status -/

/-- COP0 usability in words (44_system_cop.md R270). -/
theorem cop0Usable_iff (s : State) : s.cop0Usable = true ↔ s.sr.getLsbD 1 = false ∨ s.sr.getLsbD 28 = true := by
  simp [State.cop0Usable, State.kuC, State.cu]

/-- The interrupt condition after the sample of phase B (15_pipeline.md R62). -/
theorem beginStep_interruptRequested (s : State) :
    s.beginStep.interruptRequested = true ↔
      s.sr.getLsbD 0 = true ∧ (s.intIn ++ s.cause.extractLsb' 8 2) &&& s.sr.extractLsb' 8 8 ≠ 0#8 := by
  have h : (causeWithLines s.cause s.intIn).extractLsb' 8 8 = s.intIn ++ s.cause.extractLsb' 8 2 := by
    unfold causeWithLines; ext i hi; simp; grind
  simp [State.interruptRequested, State.ieC, State.ip, State.im, h]

end Sys2Proof.Machine
end

