-- ==== Sys2Proof/Laws/Decode.lean ====
section
/-! SUPPORT. The fields of a word written in one of the three formats (30_encoding.md R121 to R124), and byte composition
(20_memory.md R93). -/

namespace Sys2Proof

/-! ### Register fields -/

@[simp] theorem toFin_regBits (r : Reg) : (regBits r).toFin = r := rfl
@[simp] theorem regBits_rsField (w : Word) : regBits (rsField w) = w.extractLsb' 21 5 := rfl
@[simp] theorem regBits_rtField (w : Word) : regBits (rtField w) = w.extractLsb' 16 5 := rfl
@[simp] theorem regBits_rdField (w : Word) : regBits (rdField w) = w.extractLsb' 11 5 := rfl

/-! ### R-format -/

@[simp] theorem opField_rWord (op : BitVec 6) (rs rt rd : Reg) (sa : BitVec 5) (f : BitVec 6) :
    opField (rWord op rs rt rd sa f) = op := by
  unfold opField rWord; ext i hi; simp; grind

theorem rs_rWord (op : BitVec 6) (rs rt rd : Reg) (sa : BitVec 5) (f : BitVec 6) :
    (rWord op rs rt rd sa f).extractLsb' 21 5 = regBits rs := by
  unfold rWord; ext i hi; simp; grind

theorem rt_rWord (op : BitVec 6) (rs rt rd : Reg) (sa : BitVec 5) (f : BitVec 6) :
    (rWord op rs rt rd sa f).extractLsb' 16 5 = regBits rt := by
  unfold rWord; ext i hi; simp; grind

theorem rd_rWord (op : BitVec 6) (rs rt rd : Reg) (sa : BitVec 5) (f : BitVec 6) :
    (rWord op rs rt rd sa f).extractLsb' 11 5 = regBits rd := by
  unfold rWord; ext i hi; simp; grind

@[simp] theorem rsField_rWord (op : BitVec 6) (rs rt rd : Reg) (sa : BitVec 5) (f : BitVec 6) :
    rsField (rWord op rs rt rd sa f) = rs := by rw [rsField, rs_rWord, toFin_regBits]

@[simp] theorem rtField_rWord (op : BitVec 6) (rs rt rd : Reg) (sa : BitVec 5) (f : BitVec 6) :
    rtField (rWord op rs rt rd sa f) = rt := by rw [rtField, rt_rWord, toFin_regBits]

@[simp] theorem rdField_rWord (op : BitVec 6) (rs rt rd : Reg) (sa : BitVec 5) (f : BitVec 6) :
    rdField (rWord op rs rt rd sa f) = rd := by rw [rdField, rd_rWord, toFin_regBits]

@[simp] theorem saField_rWord (op : BitVec 6) (rs rt rd : Reg) (sa : BitVec 5) (f : BitVec 6) :
    saField (rWord op rs rt rd sa f) = sa := by
  unfold saField rWord; ext i hi; simp; grind

@[simp] theorem functField_rWord (op : BitVec 6) (rs rt rd : Reg) (sa : BitVec 5) (f : BitVec 6) :
    functField (rWord op rs rt rd sa f) = f := by
  unfold functField rWord; ext i hi; simp; grind

/-! ### I-format -/

@[simp] theorem opField_iWord (op : BitVec 6) (rs rt : Reg) (imm : BitVec 16) : opField (iWord op rs rt imm) = op := by
  unfold opField iWord; ext i hi; simp; grind

theorem rs_iWord (op : BitVec 6) (rs rt : Reg) (imm : BitVec 16) :
    (iWord op rs rt imm).extractLsb' 21 5 = regBits rs := by
  unfold iWord; ext i hi; simp; grind

theorem rt_iWord (op : BitVec 6) (rs rt : Reg) (imm : BitVec 16) :
    (iWord op rs rt imm).extractLsb' 16 5 = regBits rt := by
  unfold iWord; ext i hi; simp; grind

@[simp] theorem rsField_iWord (op : BitVec 6) (rs rt : Reg) (imm : BitVec 16) : rsField (iWord op rs rt imm) = rs := by
  rw [rsField, rs_iWord, toFin_regBits]

@[simp] theorem rtField_iWord (op : BitVec 6) (rs rt : Reg) (imm : BitVec 16) : rtField (iWord op rs rt imm) = rt := by
  rw [rtField, rt_iWord, toFin_regBits]

@[simp] theorem immField_iWord (op : BitVec 6) (rs rt : Reg) (imm : BitVec 16) :
    immField (iWord op rs rt imm) = imm := by
  unfold immField iWord; ext i hi; simp; grind

/-! ### J-format -/

@[simp] theorem opField_jWord (op : BitVec 6) (x : BitVec 26) : opField (jWord op x) = op := by
  unfold opField jWord; ext i hi; simp; grind

@[simp] theorem targetField_jWord (op : BitVec 6) (x : BitVec 26) : targetField (jWord op x) = x := by
  unfold targetField jWord; ext i hi; simp; grind

/-! ### A word from its fields -/

/-- Two words with the same fields of the R-format are equal. -/
theorem rWord_fields (w : Word) :
    rWord (opField w) (rsField w) (rtField w) (rdField w) (saField w) (functField w) = w := by
  simp only [rWord, regBits_rsField, regBits_rtField, regBits_rdField]
  unfold opField saField functField
  ext i hi; simp; grind

theorem iWord_fields (w : Word) : iWord (opField w) (rsField w) (rtField w) (immField w) = w := by
  simp only [iWord, regBits_rsField, regBits_rtField]
  unfold opField immField
  ext i hi; simp; grind

theorem jWord_fields (w : Word) : jWord (opField w) (targetField w) = w := by
  unfold jWord opField targetField
  ext i hi; simp; grind

/-! ### Bytes (R93) -/

@[simp] theorem byteOf_wordOfBytes_zero (b0 b1 b2 b3 : Byte) : byteOf (wordOfBytes b0 b1 b2 b3) 0 = b0 := by
  unfold byteOf wordOfBytes; ext i hi; simp; grind

@[simp] theorem byteOf_wordOfBytes_one (b0 b1 b2 b3 : Byte) : byteOf (wordOfBytes b0 b1 b2 b3) 1 = b1 := by
  unfold byteOf wordOfBytes; ext i hi; simp; grind

@[simp] theorem byteOf_wordOfBytes_two (b0 b1 b2 b3 : Byte) : byteOf (wordOfBytes b0 b1 b2 b3) 2 = b2 := by
  unfold byteOf wordOfBytes; ext i hi; simp; grind

@[simp] theorem byteOf_wordOfBytes_three (b0 b1 b2 b3 : Byte) : byteOf (wordOfBytes b0 b1 b2 b3) 3 = b3 := by
  unfold byteOf wordOfBytes; ext i hi; simp; grind

/-- A word is its four bytes. -/
@[simp] theorem wordOfBytes_byteOf (w : Word) : wordOfBytes (byteOf w 0) (byteOf w 1) (byteOf w 2) (byteOf w 3) = w := by
  unfold byteOf wordOfBytes; ext i hi; simp; grind

end Sys2Proof
end

