-- ==== Sys2Proof/Laws/Memory.lean ====
section
/-! SUPPORT. The memory list: reads after writes, and that every operation keeps the canonical form (log 12). -/

namespace Sys2Proof.Machine.Memory

/-! ### The canonical form -/

theorem wfFrom_cons (lo k : Nat) (c : Byte) (m : Memory) :
    wfFrom lo ((k, c) :: m) = true ↔ lo ≤ k ∧ c ≠ Config.unlistedByte ∧ wfFrom (k + 1) m = true := by
  simp [wfFrom, and_assoc]

theorem wfFrom_mono {lo lo' : Nat} {m : Memory} (h : wfFrom lo m = true) (hl : lo' ≤ lo) : wfFrom lo' m = true := by
  cases m with
  | nil => rfl
  | cons e m => obtain ⟨k, c⟩ := e; rw [wfFrom_cons] at h ⊢; exact ⟨by omega, h.2⟩

/-- An address below every key is unlisted. -/
theorem read_below {lo a : Nat} {m : Memory} (h : wfFrom lo m = true) (ha : a < lo) : read m a = Config.unlistedByte := by
  induction m generalizing lo with
  | nil => rfl
  | cons e m ih =>
    obtain ⟨k, c⟩ := e
    rw [wfFrom_cons] at h
    rw [read, if_neg (by omega), ih h.2.2 (by omega)]

theorem entry_wfFrom {lo a : Nat} {b : Byte} {m : Memory} (ha : lo ≤ a) (h : wfFrom (a + 1) m = true) :
    wfFrom lo (entry a b m) = true := by
  unfold entry
  split
  · exact wfFrom_mono h (by omega)
  · rename_i hb; rw [wfFrom_cons]; exact ⟨ha, hb, h⟩

theorem write_wfFrom {lo a : Nat} {b : Byte} {m : Memory} (h : wfFrom lo m = true) (ha : lo ≤ a) :
    wfFrom lo (write m a b) = true := by
  induction m generalizing lo with
  | nil => exact entry_wfFrom ha rfl
  | cons e m ih =>
    obtain ⟨k, c⟩ := e
    rw [wfFrom_cons] at h
    rw [write]
    split_ifs with h1 h2
    · exact entry_wfFrom ha (by rw [wfFrom_cons]; exact ⟨by omega, h.2⟩)
    · subst h2; exact entry_wfFrom ha h.2.2
    · rw [wfFrom_cons]; exact ⟨h.1, h.2.1, ih h.2.2 (by omega)⟩

/-- A write keeps the canonical form. -/
theorem write_wf {a : Nat} {b : Byte} {m : Memory} (h : m.wf = true) : (write m a b).wf = true :=
  write_wfFrom h (Nat.zero_le a)

/-- The reset state's memory is canonical. -/
theorem reset_wf : State.reset.mem.wf = true := rfl

/-! ### Reads after writes -/

theorem read_entry_same {lo a : Nat} {b : Byte} {m : Memory} (h : wfFrom lo m = true) (ha : a < lo) :
    read (entry a b m) a = b := by
  unfold entry
  split
  · rename_i hb; rw [hb, read_below h ha]
  · simp [read]

theorem read_entry_other {a a' : Nat} {b : Byte} {m : Memory} (ha : a' ≠ a) : read (entry a b m) a' = read m a' := by
  unfold entry
  split
  · rfl
  · simp [read, ha]

theorem read_write_other {a a' : Nat} {b : Byte} {m : Memory} (ha : a' ≠ a) : read (write m a b) a' = read m a' := by
  induction m with
  | nil => exact read_entry_other ha
  | cons e m ih =>
    obtain ⟨k, c⟩ := e
    rw [write]
    split_ifs with h1 h2
    · exact read_entry_other ha
    · subst h2; rw [read_entry_other ha, read, if_neg ha]
    · simp only [read, ih]

theorem read_write_same_from {lo a : Nat} {b : Byte} {m : Memory} (h : wfFrom lo m = true) :
    read (write m a b) a = b := by
  induction m generalizing lo with
  | nil => exact read_entry_same (lo := a + 1) rfl (by omega)
  | cons e m ih =>
    obtain ⟨k, c⟩ := e
    rw [wfFrom_cons] at h
    rw [write]
    split_ifs with h1 h2
    · exact read_entry_same (lo := k) (by rw [wfFrom_cons]; exact ⟨le_refl k, h.2⟩) h1
    · subst h2; exact read_entry_same h.2.2 (by omega)
    · rw [read, if_neg h2]; exact ih h.2.2

/-- Read after write. -/
theorem read_write {a a' : Nat} {b : Byte} {m : Memory} (h : m.wf = true) :
    read (write m a b) a' = if a' = a then b else read m a' := by
  split
  · rename_i ha; subst ha; exact read_write_same_from h
  · rename_i ha; exact read_write_other ha

/-- Canonical lists with the same contents are the same list. -/
theorem ext_from {lo : Nat} {m m' : Memory} (h : wfFrom lo m = true) (h' : wfFrom lo m' = true)
    (he : ∀ a, read m a = read m' a) : m = m' := by
  induction m generalizing lo m' with
  | nil =>
    cases m' with
    | nil => rfl
    | cons e' m' =>
      obtain ⟨k', c'⟩ := e'
      rw [wfFrom_cons] at h'
      exact absurd (he k') (by simp [read]; exact Ne.symm h'.2.1)
  | cons e m ih =>
    obtain ⟨k, c⟩ := e
    rw [wfFrom_cons] at h
    cases m' with
    | nil => exact absurd (he k) (by simp [read]; exact h.2.1)
    | cons e' m' =>
      obtain ⟨k', c'⟩ := e'
      rw [wfFrom_cons] at h'
      have hk : k = k' := by
        rcases Nat.lt_trichotomy k k' with hlt | heq | hgt
        · have h1 := he k
          rw [read, if_pos rfl, read, if_neg (by omega), read_below h'.2.2 (by omega)] at h1
          exact absurd h1 h.2.1
        · exact heq
        · have h1 := he k'
          rw [read, if_neg (by omega), read, if_pos rfl, read_below h.2.2 (by omega)] at h1
          exact absurd h1.symm h'.2.1
      subst hk
      have hc : c = c' := by have h1 := he k; simpa [read] using h1
      subst hc
      congr 1
      refine ih h.2.2 h'.2.2 fun a => ?_
      by_cases ha : a = k
      · rw [read_below h.2.2 (by omega), read_below h'.2.2 (by omega)]
      · have h1 := he a; rwa [read, if_neg ha, read, if_neg ha] at h1

/-! ### What the list names -/

theorem inMap_cons (k : Nat) (c : Byte) (m : Memory) :
    inMap ((k, c) :: m) = true ↔ backed k = true ∧ inMap m = true := by simp [inMap]

theorem entry_inMap {a : Nat} {b : Byte} {m : Memory} (h : m.inMap = true) (ha : backed a = true) :
    (entry a b m).inMap = true := by
  unfold entry
  split
  · exact h
  · rw [inMap_cons]; exact ⟨ha, h⟩

/-- A write to RAM or ROM keeps every entry there. -/
theorem write_inMap {a : Nat} {b : Byte} {m : Memory} (h : m.inMap = true) (ha : backed a = true) :
    (write m a b).inMap = true := by
  induction m with
  | nil => exact entry_inMap h ha
  | cons e m ih =>
    obtain ⟨k, c⟩ := e
    have h' := (inMap_cons k c m).1 h
    rw [write]
    split_ifs
    · exact entry_inMap h ha
    · exact entry_inMap h'.2 ha
    · exact (inMap_cons ..).2 ⟨h'.1, ih h'.2⟩

/-! ### Loading an image -/

theorem load_wf {m : Memory} (h : m.wf = true) (base : Nat) (l : List Byte) : (m.load base l).wf = true := by
  induction l generalizing m base with
  | nil => exact h
  | cons b l ih => exact ih (write_wf h) _

/-- A byte outside the image is as before. -/
theorem read_load_other (m : Memory) (base a : Nat) (l : List Byte) (ha : a < base ∨ base + l.length ≤ a) :
    (m.load base l).read a = m.read a := by
  induction l generalizing m base with
  | nil => rfl
  | cons b l ih =>
    rw [List.length_cons] at ha
    rw [load, ih _ _ (by omega), read_write_other (by omega)]

/-- A byte of the image is the image's. -/
theorem read_load {m : Memory} (h : m.wf = true) (base : Nat) (l : List Byte) (i : Nat) (hi : i < l.length) :
    (m.load base l).read (base + i) = l[i] := by
  induction l generalizing m base i with
  | nil => simp at hi
  | cons b l ih =>
    cases i with
    | zero => rw [load, read_load_other _ _ _ _ (by omega), Nat.add_zero, read_write h]; simp
    | succ i =>
      rw [List.length_cons] at hi
      have := ih (write_wf h (a := base) (b := b)) (base + 1) i (by omega)
      rw [load, show base + (i + 1) = base + 1 + i by omega, this]; rfl

end Sys2Proof.Machine.Memory
end

