-- ==== Sys2Proof/Laws/Bus.lean ====
section
/-! SUPPORT. The bus: translation and routing by ranges (20_memory.md R81 to R87), bus loads (R94), and everything a store
can do (R95, R104). -/

namespace Sys2Proof.Machine

/-! ### Translation -/

theorem topBits_toNat (va : Word) : (va.extractLsb' 29 3).toNat = va.toNat / 2 ^ 29 := by
  have := va.isLt
  rw [BitVec.extractLsb'_toNat, Nat.shiftRight_eq_div_pow]; omega

/-- `Translate` by ranges (R81). -/
theorem physical_toNat (va : Word) :
    (physical va).toNat =
      if va.toNat < 0x80000000 then va.toNat
      else if va.toNat < 0xA0000000 then va.toNat - 0x80000000
      else if va.toNat < 0xC0000000 then va.toNat - 0xA0000000
      else va.toNat := by
  have hlt := va.isLt
  have htop := topBits_toNat va
  have h31 : (va &&& 0x7FFFFFFF#32).toNat = va.toNat % 2 ^ 31 := by
    rw [BitVec.toNat_and]; exact Nat.and_two_pow_sub_one_eq_mod va.toNat 31
  have h29 : (va &&& 0x1FFFFFFF#32).toNat = va.toNat % 2 ^ 29 := by
    rw [BitVec.toNat_and]; exact Nat.and_two_pow_sub_one_eq_mod va.toNat 29
  have hid : (va &&& 0xFFFFFFFF#32).toNat = va.toNat := by
    rw [BitVec.toNat_and]; exact (Nat.and_two_pow_sub_one_eq_mod va.toNat 32).trans (by omega)
  unfold physical
  generalize hx : va.extractLsb' 29 3 = x at htop ⊢
  have hcase : x = 0#3 ∨ x = 1#3 ∨ x = 2#3 ∨ x = 3#3 ∨ x = 4#3 ∨ x = 5#3 ∨ x = 6#3 ∨ x = 7#3 := by
    clear hx htop; revert x; decide
  have m0 : segmentMask 0#3 = 0xFFFFFFFF#32 := rfl
  have m1 : segmentMask 1#3 = 0xFFFFFFFF#32 := rfl
  have m2 : segmentMask 2#3 = 0xFFFFFFFF#32 := rfl
  have m3 : segmentMask 3#3 = 0xFFFFFFFF#32 := rfl
  have m4 : segmentMask 4#3 = 0x7FFFFFFF#32 := rfl
  have m5 : segmentMask 5#3 = 0x1FFFFFFF#32 := rfl
  have m6 : segmentMask 6#3 = 0xFFFFFFFF#32 := rfl
  have m7 : segmentMask 7#3 = 0xFFFFFFFF#32 := rfl
  rcases hcase with h | h | h | h | h | h | h | h <;> subst h <;>
    simp only [m0, m1, m2, m3, m4, m5, m6, m7, hid, h31, h29, BitVec.toNat_ofNat] at htop ⊢ <;> split_ifs <;> omega

/-! ### Routing -/

theorem findRow_eq (p : Nat) :
    findRow p =
      if p < 0x200000 then some ⟨.ram, 0, 0x200000⟩
      else if 0x1F000000 ≤ p ∧ p < 0x1F080000 then some ⟨.expansion1, 0x1F000000, 0x80000⟩
      else if 0x1F801000 ≤ p ∧ p < 0x1F801024 then some ⟨.memoryControl, 0x1F801000, 36⟩
      else if 0x1F801060 ≤ p ∧ p < 0x1F801064 then some ⟨.ramSize, 0x1F801060, 4⟩
      else if 0x1F801C00 ≤ p ∧ p < 0x1F801E80 then some ⟨.sound, 0x1F801C00, 640⟩
      else if 0x1F802000 ≤ p ∧ p < 0x1F802042 then some ⟨.expansion2, 0x1F802000, 66⟩
      else if 0x1FC00000 ≤ p ∧ p < 0x1FC80000 then some ⟨.bootRom, 0x1FC00000, 0x80000⟩
      else none := by
  simp only [findRow, deviceMap, List.find?, DeviceRow.holds, ramSize, romBase, romSize, Nat.zero_le, ← Bool.decide_and]
  split_ifs <;> simp [*]

/-- Routing by ranges: what `busTarget` answers for each region of the address space. -/
theorem busTarget_eq (va : Word) :
    busTarget va =
      if 0xFFFE0130 ≤ va.toNat ∧ va.toNat ≤ 0xFFFE0133 then some (.ccr (va.toNat - 0xFFFE0130))
      else if (physical va).toNat ≤ 0x001FFFFF then some (.ram (physical va).toNat)
      else if 0x1FC00000 ≤ (physical va).toNat ∧ (physical va).toNat ≤ 0x1FC7FFFF then
        some (.rom ((physical va).toNat - 0x1FC00000))
      else if stubAddress va then some .stub
      else none := by
  unfold busTarget stubAddress
  by_cases hc : 0xFFFE0130 ≤ va.toNat ∧ va.toNat ≤ 0xFFFE0133
  · rw [if_pos hc, if_pos (by unfold ccrBase; omega)]; rfl
  · rw [if_neg hc, if_neg (by unfold ccrBase; omega), findRow_eq]
    generalize (physical va).toNat = p
    split_ifs <;> first | rfl | omega

theorem busTarget_ccr {va : Word} (h : ccrAddress va) : busTarget va = some (.ccr (va.toNat - 0xFFFE0130)) := by
  rw [busTarget_eq, if_pos h]

theorem not_ccr_of_low {va : Word} (h : (physical va).toNat < 0x20000000) : ¬ ccrAddress va := by
  unfold ccrAddress; rw [physical_toNat] at h; split_ifs at h <;> omega

theorem busTarget_ram {va : Word} (h : ramAddress va) : busTarget va = some (.ram (physical va).toNat) := by
  have hc := not_ccr_of_low (va := va) (by unfold ramAddress at h; omega)
  rw [busTarget_eq, if_neg hc, if_pos h]

theorem busTarget_rom {va : Word} (h : romAddress va) :
    busTarget va = some (.rom ((physical va).toNat - 0x1FC00000)) := by
  unfold romAddress at h
  rw [busTarget_eq, if_neg (not_ccr_of_low (by omega)), if_neg (by omega), if_pos h]

theorem busTarget_stub {va : Word} (h : stubAddress va) : busTarget va = some .stub := by
  have h' := h
  unfold stubAddress at h'
  rw [busTarget_eq, if_neg (not_ccr_of_low (by omega)), if_neg (by omega), if_neg (by omega), if_pos h]

theorem busTarget_unmapped {va : Word} (h : unmappedAddress va) : busTarget va = none := by
  obtain ⟨h1, h2, h3, h4⟩ := h
  rw [busTarget_eq, if_neg h1, if_neg h2, if_neg h3, if_neg h4]

/-- Every address lies in one of the five regions. -/
theorem region_cases (va : Word) :
    ccrAddress va ∨ ramAddress va ∨ romAddress va ∨ stubAddress va ∨ unmappedAddress va := by
  unfold unmappedAddress; tauto

/-! ### Alignment -/

theorem low_bits_toNat (va : Word) (n : Nat) : (va.extractLsb' 0 n).toNat = va.toNat % 2 ^ n := by simp

theorem aligned_iff (w : Width) (va : Word) : w.aligned va = true ↔ va.toNat % w.bytes = 0 := by
  cases w
  · simp [Width.aligned, Width.bytes, Nat.mod_one]
  · simp [Width.aligned, Width.bytes, ← BitVec.toNat_inj]
  · simp [Width.aligned, Width.bytes, ← BitVec.toNat_inj]

theorem toNat_mod_four (va : Word) : va.toNat % 4 = 0 ↔ va.extractLsb' 0 2 = 0#2 := by
  simp [← BitVec.toNat_inj]

/-- Moving inside one aligned block moves the physical address the same way. -/
theorem physical_add {va : Word} {i : Nat} (h : va.toNat % 4 + i < 4) :
    (va + BitVec.ofNat 32 i).toNat = va.toNat + i ∧ (physical (va + BitVec.ofNat 32 i)).toNat = (physical va).toNat + i := by
  have hlt := va.isLt
  have h1 : (va + BitVec.ofNat 32 i).toNat = va.toNat + i := by
    rw [BitVec.toNat_add, BitVec.toNat_ofNat]; omega
  refine ⟨h1, ?_⟩
  rw [physical_toNat, physical_toNat, h1]; split_ifs <;> omega

theorem physical_mod_four (va : Word) : (physical va).toNat % 4 = va.toNat % 4 := by
  rw [physical_toNat]; split_ifs <;> omega

end Sys2Proof.Machine
end

