-- ==== Sys2Proof/Laws/Ops.lean ====
section
/-! SUPPORT. What the shared operations over the bus do: one lemma per region for a load and for a byte, and everything a
store can do (20_memory.md R87 to R95, R104). -/

namespace Sys2Proof.Machine

/-! ### Bytes of a word -/

theorem byteOf_bit (v : Word) (k n : Nat) : (byteOf v k).getLsbD n = (decide (n < 8) && v.getLsbD (8 * k + n)) := by
  unfold byteOf; rw [BitVec.getLsbD_extractLsb']

/-- Two words with the same four bytes are equal. -/
theorem word_ext {v w : Word} (h : ∀ i, i < 4 → byteOf v i = byteOf w i) : v = w := by
  rw [← wordOfBytes_byteOf v, ← wordOfBytes_byteOf w, h 0 (by omega), h 1 (by omega), h 2 (by omega), h 3 (by omega)]

theorem ff_bit (n : Nat) : (0xFF#32).getLsbD n = decide (n < 8) := by
  rw [show (0xFF#32) = (BitVec.allOnes 8).setWidth 32 by decide, BitVec.getLsbD_setWidth, BitVec.getLsbD_allOnes]
  by_cases h : n < 8
  · have : n < 32 := by omega
    simp [h, this]
  · simp [h]

theorem byteOf_setByte (v : Word) (k j : Nat) (b : Byte) (hj : j < 4) :
    byteOf (setByte v k b) j = if j = k then b else byteOf v j := by
  apply BitVec.eq_of_getLsbD_eq
  intro i hi
  rw [byteOf_bit]
  have h32 : 8 * j + i < 32 := by omega
  simp only [setByte, BitVec.getLsbD_or, BitVec.getLsbD_and, BitVec.getLsbD_not, BitVec.getLsbD_shiftLeft, ff_bit,
    BitVec.getLsbD_setWidth, hi, h32, decide_true, Bool.true_and]
  split
  · subst j
    have e : 8 * k + i - 8 * k = i := by omega
    simp [e, hi]; omega
  · rw [byteOf_bit]
    rcases Nat.lt_or_gt_of_ne ‹_› with hlt | hgt
    · have : 8 * j + i < 8 * k := by omega
      simp [this, hi]
    · have h1 : ¬ 8 * j + i < 8 * k := by omega
      have h2 : ¬ 8 * j + i - 8 * k < 8 := by omega
      have h3 : b.getLsbD (8 * j + i - 8 * k) = false := BitVec.getLsbD_of_ge _ _ (by omega)
      simp [h1, h2, h3, hi]

/-! ### One byte, by region -/

theorem readByte_ccr (s : State) {va : Word} (h : ccrAddress va) :
    s.readByte va = some (byteOf s.ccr (va.toNat - 0xFFFE0130)) := by
  simp [State.readByte, busTarget_ccr h, State.targetByte]

theorem readByte_ram (s : State) {va : Word} (h : ramAddress va) : s.readByte va = some (s.mem.read (physical va).toNat) := by
  have : (physical va).toNat % ramSize = (physical va).toNat := by
    unfold ramAddress at h; unfold ramSize; omega
  simp [State.readByte, busTarget_ram h, State.targetByte, this]

theorem readByte_rom (s : State) {va : Word} (h : romAddress va) : s.readByte va = some (s.mem.read (physical va).toNat) := by
  have : romBase + ((physical va).toNat - 0x1FC00000) = (physical va).toNat := by
    unfold romAddress at h; unfold romBase; omega
  simp [State.readByte, busTarget_rom h, State.targetByte, this]

theorem readByte_stub (s : State) {va : Word} (h : stubAddress va) : s.readByte va = some 0xFF#8 := by
  simp [State.readByte, busTarget_stub h, State.targetByte]

theorem readByte_unmapped (s : State) {va : Word} (h : unmappedAddress va) : s.readByte va = none := by
  simp [State.readByte, busTarget_unmapped h]

theorem readByte_eq_none (s : State) (va : Word) : s.readByte va = none ↔ unmappedAddress va := by
  refine ⟨fun h => ?_, readByte_unmapped s⟩
  rcases region_cases va with h' | h' | h' | h' | h'
  · simp [readByte_ccr s h'] at h
  · simp [readByte_ram s h'] at h
  · simp [readByte_rom s h'] at h
  · simp [readByte_stub s h'] at h
  · exact h'

/-- A byte depends on memory and the cache-control register alone. -/
theorem readByte_congr {s t : State} (hm : t.mem = s.mem) (hc : t.ccr = s.ccr) (a : Word) : t.readByte a = s.readByte a := by
  unfold State.readByte; congr 1; funext x; cases x <;> simp [State.targetByte, hm, hc]

/-- A load depends on memory and the cache-control register alone. -/
theorem memRead_congr {s t : State} (hm : t.mem = s.mem) (hc : t.ccr = s.ccr) (w : Width) (a : Word) :
    t.memRead w a = s.memRead w a := by
  unfold State.memRead; congr 1; funext x
  rw [show t.targetByte x = s.targetByte x by funext i; cases x <;> simp [State.targetByte, hm, hc]]

/-! ### Loads -/

theorem compose_congr (w : Width) {b c : Nat → Byte} (h : ∀ i, i < w.bytes → b i = c i) : w.compose b = w.compose c := by
  cases w
  · simp only [Width.compose, h 0 (by decide)]
  · simp only [Width.compose, h 0 (by decide), h 1 (by decide)]
  · simp only [Width.compose, h 0 (by decide), h 1 (by decide), h 2 (by decide), h 3 (by decide)]

/-- Composing a word's own low bytes gives its low part (20_memory.md R93). -/
theorem compose_byteOf (w : Width) (v : Word) : w.compose (byteOf v) = w.low v := by
  cases w
  · rfl
  · simp only [Width.compose, Width.low, byteOf]; ext i hi; simp; grind
  · exact wordOfBytes_byteOf v

theorem aligned_add_lt {w : Width} {va : Word} (ha : w.aligned va = true) {i : Nat} (hi : i < w.bytes) :
    va.toNat % 4 + i < 4 := by
  rw [aligned_iff] at ha; cases w <;> simp only [Width.bytes] at ha hi <;> omega

theorem memRead_eq (s : State) (w : Width) {va : Word} {t : BusTarget} (h : busTarget va = some t) :
    s.memRead w va = some (w.compose (s.targetByte t)) := by
  rw [State.memRead, h, Option.map_some]

theorem memRead_unmapped (s : State) (w : Width) {va : Word} (h : unmappedAddress va) : s.memRead w va = none := by
  simp [State.memRead, busTarget_unmapped h]

theorem memRead_stub (s : State) (w : Width) {va : Word} (h : stubAddress va) : s.memRead w va = some (w.low 0xFFFFFFFF#32) := by
  rw [memRead_eq s w (busTarget_stub h), compose_congr w (c := byteOf 0xFFFFFFFF#32) fun i hi => ?_, compose_byteOf]
  have : ∀ j, j < 4 → byteOf 0xFFFFFFFF#32 j = 0xFF#8 := by decide
  exact (this i (by cases w <;> simp only [Width.bytes] at hi <;> omega)).symm

theorem memRead_ram (s : State) (w : Width) {va : Word} (ha : w.aligned va = true) (h : ramAddress va) :
    s.memRead w va = some (w.compose fun i => s.mem.read ((physical va).toNat + i)) := by
  rw [memRead_eq s w (busTarget_ram h)]
  refine congrArg some (compose_congr w fun i hi => ?_)
  rw [State.targetByte]
  have h1 := aligned_add_lt ha hi
  have h2 := physical_mod_four va
  unfold ramAddress at h
  rw [Nat.mod_eq_of_lt (by unfold ramSize; omega)]

theorem memRead_rom (s : State) (w : Width) {va : Word} (h : romAddress va) :
    s.memRead w va = some (w.compose fun i => s.mem.read ((physical va).toNat + i)) := by
  rw [memRead_eq s w (busTarget_rom h)]
  refine congrArg some (compose_congr w fun i _ => ?_)
  rw [State.targetByte]
  unfold romAddress at h
  rw [show romBase + ((physical va).toNat - 0x1FC00000 + i) = (physical va).toNat + i by unfold romBase; omega]

theorem memRead_ccr (s : State) (w : Width) {va : Word} (h : ccrAddress va) :
    s.memRead w va = some (w.compose fun i => byteOf s.ccr (va.toNat - 0xFFFE0130 + i)) := by
  rw [memRead_eq s w (busTarget_ccr h)]; rfl

theorem memRead_eq_none (s : State) (w : Width) (va : Word) : s.memRead w va = none ↔ unmappedAddress va := by
  rw [← readByte_eq_none s]; simp [State.memRead, State.readByte]

/-- Inside one aligned word the region does not change, but for the end of a stub range. -/
theorem ccr_add {va : Word} {i : Nat} (hi : va.toNat % 4 + i < 4) : ccrAddress (va + BitVec.ofNat 32 i) ↔ ccrAddress va := by
  have := (physical_add hi).1; unfold ccrAddress; omega

theorem ram_add {va : Word} {i : Nat} (hi : va.toNat % 4 + i < 4) : ramAddress (va + BitVec.ofNat 32 i) ↔ ramAddress va := by
  have h1 := (physical_add hi).2
  have h2 := physical_mod_four va
  unfold ramAddress; omega

theorem rom_add {va : Word} {i : Nat} (hi : va.toNat % 4 + i < 4) : romAddress (va + BitVec.ofNat 32 i) ↔ romAddress va := by
  have h1 := (physical_add hi).2
  have h2 := physical_mod_four va
  unfold romAddress; omega

theorem stub_of_add {va : Word} {i : Nat} (hi : va.toNat % 4 + i < 4) (h : stubAddress (va + BitVec.ofNat 32 i)) :
    stubAddress va := by
  have h1 := (physical_add hi).2
  have h2 := physical_mod_four va
  unfold stubAddress at h ⊢; omega

/-- A load whose bytes are all mapped is their composition (20_memory.md R93, R94). -/
theorem memRead_of_bytes (s : State) (w : Width) {va : Word} (ha : w.aligned va = true) (b : Nat → Byte)
    (h : ∀ i, i < w.bytes → s.readByte (va + BitVec.ofNat 32 i) = some (b i)) : s.memRead w va = some (w.compose b) := by
  have hlt := fun i (hi : i < w.bytes) => aligned_add_lt ha hi
  rcases region_cases va with hr | hr | hr | hr | hr
  · rw [memRead_ccr s w hr]
    refine congrArg some (compose_congr w fun i hi => ?_)
    have h1 := h i hi
    rw [readByte_ccr s ((ccr_add (hlt i hi)).2 hr), (physical_add (hlt i hi)).1] at h1
    rw [← Option.some.inj h1, show va.toNat + i - 0xFFFE0130 = va.toNat - 0xFFFE0130 + i by unfold ccrAddress at hr; omega]
  · rw [memRead_ram s w ha hr]
    refine congrArg some (compose_congr w fun i hi => ?_)
    have h1 := h i hi
    rw [readByte_ram s ((ram_add (hlt i hi)).2 hr), (physical_add (hlt i hi)).2] at h1
    exact Option.some.inj h1
  · rw [memRead_rom s w hr]
    refine congrArg some (compose_congr w fun i hi => ?_)
    have h1 := h i hi
    rw [readByte_rom s ((rom_add (hlt i hi)).2 hr), (physical_add (hlt i hi)).2] at h1
    exact Option.some.inj h1
  · rw [memRead_eq s w (busTarget_stub hr)]
    refine congrArg some (compose_congr w fun i hi => ?_)
    have h1 := h i hi
    have hs : stubAddress (va + BitVec.ofNat 32 i) := by
      rcases region_cases (va + BitVec.ofNat 32 i) with h' | h' | h' | h' | h'
      · have := (ccr_add (hlt i hi)).1 h'; unfold stubAddress at hr; exact absurd this (not_ccr_of_low (by omega))
      · have := (ram_add (hlt i hi)).1 h'; unfold stubAddress at hr; unfold ramAddress at this; omega
      · have := (rom_add (hlt i hi)).1 h'; unfold stubAddress at hr; unfold romAddress at this; omega
      · exact h'
      · rw [readByte_unmapped s h'] at h1; exact absurd h1 (by simp)
    rw [readByte_stub s hs] at h1; exact Option.some.inj h1
  · have h1 := h 0 (by cases w <;> decide)
    rw [show va + BitVec.ofNat 32 0 = va by simp, readByte_unmapped s hr] at h1; exact absurd h1 (by simp)

/-! ### Stores -/

/-- One byte written through the target of its address: that byte reads back and no other byte moves. -/
theorem writeTargetByte_stores (s : State) {va : Word} {t : BusTarget} {i : Nat} (c : Byte) (hw : s.mem.wf = true)
    (ht : busTarget va = some t) (hi : va.toNat % 4 + i < 4) (hr : ccrAddress va ∨ ramAddress va) :
    s.StoresBytes (s.writeTargetByte t i c) (va + BitVec.ofNat 32 i) 1 (fun _ => c) := by
  obtain ⟨hadd, hphys⟩ := physical_add hi
  have h0 : va + BitVec.ofNat 32 i + BitVec.ofNat 32 0 = va + BitVec.ofNat 32 i := by simp
  rcases hr with hr | hr
  · have hr' := (ccr_add hi).2 hr
    rw [busTarget_ccr hr] at ht
    obtain rfl := Option.some.inj ht
    have hk : va.toNat - 0xFFFE0130 + i < 4 := by unfold ccrAddress at hr hr'; omega
    have hk' : (va + BitVec.ofNat 32 i).toNat - 0xFFFE0130 = va.toNat - 0xFFFE0130 + i := by unfold ccrAddress at hr; omega
    refine ⟨fun j hj => ?_, fun a ha => ?_, rfl⟩
    · obtain rfl : j = 0 := by omega
      rw [h0, readByte_ccr _ hr', hk']
      simp [State.writeTargetByte, byteOf_setByte _ _ _ _ hk]
    · have ha := ha 0 (by omega)
      rw [h0] at ha
      rcases region_cases a with h | h | h | h | h
      · rw [readByte_ccr _ h, readByte_ccr _ h]
        have h4 : a.toNat - 0xFFFE0130 < 4 := by unfold ccrAddress at h; omega
        have hne : a.toNat - 0xFFFE0130 ≠ va.toNat - 0xFFFE0130 + i := by
          intro he
          apply ha
          rw [BitVec.eq_of_toNat_eq (show a.toNat = (va + BitVec.ofNat 32 i).toNat by unfold ccrAddress at h hr'; omega)]
        simp [State.writeTargetByte, byteOf_setByte _ _ _ _ h4, hne]
      · rw [readByte_ram _ h, readByte_ram _ h]; rfl
      · rw [readByte_rom _ h, readByte_rom _ h]; rfl
      · rw [readByte_stub _ h, readByte_stub _ h]
      · rw [readByte_unmapped _ h, readByte_unmapped _ h]
  · have hr' := (ram_add hi).2 hr
    rw [busTarget_ram hr] at ht
    obtain rfl := Option.some.inj ht
    have hk : ((physical va).toNat + i) % ramSize = (physical (va + BitVec.ofNat 32 i)).toNat := by
      rw [hphys]; apply Nat.mod_eq_of_lt; unfold ramAddress at hr'; unfold ramSize; omega
    refine ⟨fun j hj => ?_, fun a ha => ?_, rfl⟩
    · obtain rfl : j = 0 := by omega
      rw [h0, readByte_ram _ hr']
      simp [State.writeTargetByte, hk, Memory.read_write hw]
    · have ha := ha 0 (by omega)
      rw [h0] at ha
      have ha' : (physical a).toNat ≠ (physical (va + BitVec.ofNat 32 i)).toNat := fun h => ha (BitVec.eq_of_toNat_eq h)
      rcases region_cases a with h | h | h | h | h
      · rw [readByte_ccr _ h, readByte_ccr _ h]; rfl
      · rw [readByte_ram _ h, readByte_ram _ h]; simp [State.writeTargetByte, hk, Memory.read_write hw, ha']
      · rw [readByte_rom _ h, readByte_rom _ h]; simp [State.writeTargetByte, hk, Memory.read_write hw, ha']
      · rw [readByte_stub _ h, readByte_stub _ h]
      · rw [readByte_unmapped _ h, readByte_unmapped _ h]

/-- Storing one more byte after `n`. -/
theorem storesBytes_succ {s u t : State} {va : Word} {n : Nat} {b : Nat → Byte} (h1 : s.StoresBytes u va n b)
    (h2 : u.StoresBytes t (va + BitVec.ofNat 32 n) 1 (fun _ => b n))
    (hd : ∀ i, i < n → physical (va + BitVec.ofNat 32 i) ≠ physical (va + BitVec.ofNat 32 n)) :
    s.StoresBytes t va (n + 1) b := by
  have h0 : va + BitVec.ofNat 32 n + BitVec.ofNat 32 0 = va + BitVec.ofNat 32 n := by simp
  refine ⟨fun i hi => ?_, fun a ha => ?_, ?_⟩
  · by_cases hn : i = n
    · subst hn; have := h2.stored 0 (by omega); rwa [h0] at this
    · have hi' : i < n := by omega
      rw [h2.others _ fun j hj => ?_, h1.stored i hi']
      obtain rfl : j = 0 := by omega
      rw [h0]; exact hd i hi'
  · rw [h2.others a fun j hj => ?_, h1.others a fun i hi => ha i (by omega)]
    obtain rfl : j = 0 := by omega
    rw [h0]; exact ha n (by omega)
  · rw [h2.rest, h1.rest]

theorem storesBytes_zero (s : State) (va : Word) (b : Nat → Byte) : s.StoresBytes s va 0 b :=
  ⟨fun _ h => absurd h (by omega), fun _ _ => rfl, rfl⟩

theorem storesBytes_congr {s t : State} {va : Word} {n : Nat} {b c : Nat → Byte} (h : s.StoresBytes t va n b)
    (he : ∀ i, i < n → b i = c i) : s.StoresBytes t va n c :=
  ⟨fun i hi => by rw [← he i hi]; exact h.stored i hi, h.others, h.rest⟩

/-- Distinct places of one aligned word have distinct physical addresses. -/
theorem physical_add_ne {va : Word} {i n : Nat} (hin : i < n) (hn : va.toNat % 4 + n < 4) :
    physical (va + BitVec.ofNat 32 i) ≠ physical (va + BitVec.ofNat 32 n) := by
  intro h
  have h1 := (physical_add (va := va) (i := i) (by omega)).2
  have h2 := (physical_add hn).2
  rw [h] at h1; omega

theorem writeTargetByte_wf (s : State) (t : BusTarget) (i : Nat) (c : Byte) (hw : s.mem.wf = true) :
    (s.writeTargetByte t i c).mem.wf = true := by
  cases t <;> simp [State.writeTargetByte, hw, Memory.write_wf hw]

theorem writeTarget_wf (s : State) (t : BusTarget) (v : Word) (n : Nat) (hw : s.mem.wf = true) :
    (s.writeTarget t v n).mem.wf = true := by
  induction n with
  | zero => exact hw
  | succ n ih => exact writeTargetByte_wf _ _ _ _ ih

/-- A write of `n` bytes inside one aligned word of RAM or of the cache-control register. -/
theorem writeTarget_stores (s : State) {va : Word} {t : BusTarget} (v : Word) (hw : s.mem.wf = true)
    (ht : busTarget va = some t) (hr : ccrAddress va ∨ ramAddress va) (n : Nat) (hn : va.toNat % 4 + n ≤ 4) :
    s.StoresBytes (s.writeTarget t v n) va n (byteOf v) := by
  induction n with
  | zero => exact storesBytes_zero s va _
  | succ n ih =>
    refine storesBytes_succ (ih (by omega)) (writeTargetByte_stores _ _ (writeTarget_wf _ _ _ _ hw) ht (by omega) hr) ?_
    exact fun i hi => physical_add_ne hi (by omega)

theorem writeTarget_rom (s : State) (o : Nat) (v : Word) (n : Nat) : s.writeTarget (.rom o) v n = s := by
  induction n with
  | zero => rfl
  | succ n ih => rw [State.writeTarget, ih]; rfl

theorem writeTarget_stub (s : State) (v : Word) (n : Nat) : s.writeTarget .stub v n = s := by
  induction n with
  | zero => rfl
  | succ n ih => rw [State.writeTarget, ih]; rfl

/-! #### `memWrite`, by region -/

theorem memWrite_isolated (s : State) (w : Width) (va v : Word) (h : s.sr.getLsbD 16 = true) : s.memWrite w va v = s := by
  rw [State.memWrite, State.isC, h]; rfl

theorem memWrite_open (s : State) (w : Width) (va v : Word) (h : s.sr.getLsbD 16 = false) :
    s.memWrite w va v = s.busStore w va v := by
  rw [State.memWrite, State.isC, h]; rfl

theorem busStore_stores (s : State) (w : Width) {va : Word} (v : Word) (ha : w.aligned va = true) (hw : s.mem.wf = true)
    (hr : ccrAddress va ∨ ramAddress va) : s.StoresBytes (s.busStore w va v) va w.bytes (byteOf v) := by
  obtain ⟨t, ht⟩ : ∃ t, busTarget va = some t := by
    rcases hr with h | h
    · exact ⟨_, busTarget_ccr h⟩
    · exact ⟨_, busTarget_ram h⟩
  have hb : s.busStore w va v = s.writeTarget t v w.bytes := by simp [State.busStore, ht]
  rw [hb]
  refine writeTarget_stores s v hw ht hr _ ?_
  have := aligned_add_lt ha (i := w.bytes - 1) (by cases w <;> decide)
  cases w <;> simp only [Width.bytes] at this ⊢ <;> omega

theorem busStore_discarded (s : State) (w : Width) {va : Word} (v : Word) (h : romAddress va ∨ stubAddress va) :
    s.busStore w va v = s := by
  rcases h with h | h
  · simp [State.busStore, busTarget_rom h, writeTarget_rom]
  · simp [State.busStore, busTarget_stub h, writeTarget_stub]

theorem busStore_unmapped (s : State) (w : Width) {va : Word} (v : Word) (h : unmappedAddress va) :
    s.busStore w va v = s.emit w va v := by
  simp [State.busStore, busTarget_unmapped h]

/-! #### What no store moves -/

/-- `t` differs from `s` in memory, the cache-control register and the diagnostic output at most. -/
def OnlyBus (s t : State) : Prop := t = { s with mem := t.mem, ccr := t.ccr, diag := t.diag }

theorem OnlyBus.refl (s : State) : OnlyBus s s := rfl

theorem OnlyBus.trans {s t u : State} (h : OnlyBus s t) (h' : OnlyBus t u) : OnlyBus s u := by
  unfold OnlyBus at *; rw [h', h]

theorem writeTargetByte_only (s : State) (t : BusTarget) (i : Nat) (c : Byte) : OnlyBus s (s.writeTargetByte t i c) := by
  cases t <;> rfl

theorem writeTarget_only (s : State) (t : BusTarget) (v : Word) (n : Nat) : OnlyBus s (s.writeTarget t v n) := by
  induction n with
  | zero => rfl
  | succ n ih => exact ih.trans (writeTargetByte_only ..)

theorem memWrite_only (s : State) (w : Width) (va v : Word) : OnlyBus s (s.memWrite w va v) := by
  unfold State.memWrite State.busStore
  split
  · rfl
  · split
    · rfl
    · exact writeTarget_only ..

theorem storeBytes_only (s : State) (va v : Word) (first n : Nat) : OnlyBus s (s.storeBytes va v first n) := by
  induction n with
  | zero => rfl
  | succ n ih => exact ih.trans (memWrite_only ..)

/-! #### Memory after a store: canonical, in RAM and ROM, the ROM untouched -/

/-- What every store keeps of memory. -/
structure KeepsMemory (s t : State) : Prop where
  wf : s.mem.wf = true → t.mem.wf = true
  inMap : s.mem.inMap = true → t.mem.inMap = true
  rom : ∀ a, ramSize ≤ a → t.mem.read a = s.mem.read a

theorem KeepsMemory.refl (s : State) : KeepsMemory s s := ⟨id, id, fun _ _ => rfl⟩

theorem KeepsMemory.of_mem {s t : State} (h : t.mem = s.mem) : KeepsMemory s t := by
  constructor <;> simp [h]

theorem KeepsMemory.trans {s t u : State} (h : KeepsMemory s t) (h' : KeepsMemory t u) : KeepsMemory s u :=
  ⟨fun x => h'.wf (h.wf x), fun x => h'.inMap (h.inMap x), fun a ha => (h'.rom a ha).trans (h.rom a ha)⟩

theorem writeTargetByte_keeps (s : State) (t : BusTarget) (i : Nat) (c : Byte) : KeepsMemory s (s.writeTargetByte t i c) := by
  cases t with
  | ram o =>
    have hlt : (o + i) % ramSize < ramSize := Nat.mod_lt _ (by decide)
    refine ⟨fun h => Memory.write_wf h, fun h => Memory.write_inMap h ?_, fun a ha => Memory.read_write_other ?_⟩
    · simp [backed, hlt]
    · omega
  | ccr o => exact .of_mem rfl
  | rom o => exact .refl s
  | stub => exact .refl s

theorem writeTarget_keeps (s : State) (t : BusTarget) (v : Word) (n : Nat) : KeepsMemory s (s.writeTarget t v n) := by
  induction n with
  | zero => exact .refl s
  | succ n ih => exact ih.trans (writeTargetByte_keeps ..)

theorem memWrite_keeps (s : State) (w : Width) (va v : Word) : KeepsMemory s (s.memWrite w va v) := by
  unfold State.memWrite State.busStore
  split
  · exact .refl s
  · split
    · exact .of_mem rfl
    · exact writeTarget_keeps ..

theorem storeBytes_keeps (s : State) (va v : Word) (first n : Nat) : KeepsMemory s (s.storeBytes va v first n) := by
  induction n with
  | zero => exact .refl s
  | succ n ih => exact ih.trans (memWrite_keeps ..)

end Sys2Proof.Machine
end

