-- ==== Sys2Proof/Laws/Exec.lean ====
section
/-! SUPPORT. Everything an instruction can do: `exec_effect` says once what every next state of `exec` is, and `exec_total`
that no instruction answers anything but a next state and the two listed refusals (00_scope.md R19). Later proofs about all
instructions cite these and never unfold a meaning. -/

namespace Sys2Proof.Machine

/-! ### The shared endings of a meaning -/

theorem unlessInDelay_next {s t u : State} (h : s.unlessInDelay t = .next u) : s.inDelay = false ∧ u = t := by
  unfold State.unlessInDelay at h
  split at h
  · cases h
  · cases h; exact ⟨Bool.eq_false_iff.2 ‹_›, rfl⟩

theorem writeTrapping_next {s t : State} {r : Reg} {o : Bool} {v : Word} (h : s.writeTrapping r o v = .next t) :
    t = s.enterException .arithmeticOverflow ∨ t = s.writeReg r v := by
  unfold State.writeTrapping State.raise at h
  split at h <;> cases h
  · exact .inl rfl
  · exact .inr rfl

theorem load_next {s t : State} {w : Width} {r : Reg} {ea : Word} {f : Word → Word} (h : s.load w r ea f = .next t) :
    t = s.enterException (.addressLoadError ea) ∨ ∃ v, t = s.delayedWrite r v := by
  unfold State.load State.raise at h
  split at h
  · split at h <;> cases h
    · exact .inl rfl
    · exact .inr ⟨_, rfl⟩
  · cases h; exact .inl rfl

theorem loadMerge_next {s t : State} {r : Reg} {ea : Word} {f : Word → Word → Word}
    (h : s.loadMerge r ea f = .next t) :
    t = s.enterException (.addressLoadError ea) ∨ ∃ v, t = s.delayedWrite r v := by
  unfold State.loadMerge State.raise at h
  split at h <;> cases h
  · exact .inl rfl
  · exact .inr ⟨_, rfl⟩

theorem store_next {s t : State} {w : Width} {ea v : Word} (h : s.store w ea v = .next t) :
    t = s.enterException (.addressStoreError ea) ∨ t = s.memWrite w ea v := by
  unfold State.store State.raise at h
  split at h <;> cases h
  · exact .inr rfl
  · exact .inl rfl

theorem ifCop0Usable_next {s t : State} {e : Result} (h : s.ifCop0Usable e = .next t) :
    t = s.enterException (.coprocessorUnusable 0#2) ∨ (s.Cop0Open ∧ e = .next t) := by
  unfold State.ifCop0Usable State.raise at h
  split at h
  · exact .inr ⟨(cop0Usable_iff s).1 ‹_›, h⟩
  · cases h; exact .inl rfl

theorem copAbsent_next {s t : State} {z : Fin 4} (h : s.copAbsent z = .next t) : ∃ e, t = s.enterException e := by
  unfold State.copAbsent State.raise at h
  split at h <;> cases h <;> exact ⟨_, rfl⟩

theorem cop2Operation_next {s t : State} (h : s.cop2Operation = .next t) : ∃ e, t = s.enterException e := by
  unfold State.cop2Operation State.raise at h
  split at h <;> cases h
  exact ⟨_, rfl⟩

theorem storeBytes_isolated (s : State) (va v : Word) (first n : Nat) (h : s.sr.getLsbD 16 = true) :
    s.storeBytes va v first n = s := by
  induction n with
  | zero => rfl
  | succ n ih => rw [State.storeBytes, ih, memWrite_isolated _ _ _ _ h]

/-! ### What a next state is -/

/-- Everything an instruction that answers a next state can have done. -/
inductive Effect (i : Instr) (s t : State) : Prop where
  | trap (e : ExceptionKind) (h : t = s.enterException e)
  | write (r : Reg) (v : Word) (hd : i.syncDest = some r) (h : t = s.writeReg r v)
  | delayed (r : Reg) (v : Word) (h : t = s.delayedWrite r v)
  | hiLo (x y : Word) (h : t = { s with hi := x, lo := y })
  | branch (c : Bool) (x : Word) (hb : i.isBranch = true) (hs : s.inDelay = false) (h : t = s.branchTo c x)
  | link (r : Reg) (v : Word) (c : Bool) (x : Word) (hd : i.syncDest = some r) (hb : i.isBranch = true)
      (hs : s.inDelay = false) (h : t = (s.writeReg r v).branchTo c x)
  | store (hi : i.isStore = true) (ho : OnlyBus s t) (hk : KeepsMemory s t) (hc : s.sr.getLsbD 16 = true → t = s)
  | status (v : Word) (hs : s.Cop0Open) (hi : i = .rfe ∨ ∃ rt, i = .mtc0 rt 12) (h : t = { s with sr := v })
  | softwareBits (v : Word) (hs : s.Cop0Open) (hi : ∃ rt, i = .mtc0 rt 13) (h : t = { s with cause := causeWithSoftwareBits s.cause v })
  | nothing (h : t = s)

theorem Effect.of_trapping {i : Instr} {s t : State} {r : Reg} {o : Bool} {v : Word} (hd : i.syncDest = some r)
    (h : s.writeTrapping r o v = .next t) : Effect i s t := by
  rcases writeTrapping_next h with h | h
  · exact .trap _ h
  · exact .write r v hd h

theorem Effect.of_write {i : Instr} {s t : State} {r : Reg} {v : Word} (hd : i.syncDest = some r)
    (h : (.next (s.writeReg r v) : Result) = .next t) : Effect i s t :=
  .write r v hd (Host.Outcome.next.inj h).symm

theorem Effect.of_hiLo {i : Instr} {s t : State} {x y : Word}
    (h : (.next { s with hi := x, lo := y } : Result) = .next t) : Effect i s t :=
  .hiLo x y (Host.Outcome.next.inj h).symm

theorem Effect.of_branch {i : Instr} {s t : State} {c : Bool} {x : Word} (hb : i.isBranch = true)
    (h : s.unlessInDelay (s.branchTo c x) = .next t) : Effect i s t :=
  .branch c x hb (unlessInDelay_next h).1 (unlessInDelay_next h).2

theorem Effect.of_link {i : Instr} {s t : State} {r : Reg} {v : Word} {c : Bool} {x : Word} (hd : i.syncDest = some r)
    (hb : i.isBranch = true) (h : s.unlessInDelay ((s.writeReg r v).branchTo c x) = .next t) : Effect i s t :=
  .link r v c x hd hb (unlessInDelay_next h).1 (unlessInDelay_next h).2

theorem Effect.of_load {i : Instr} {s t : State} {w : Width} {r : Reg} {ea : Word} {f : Word → Word}
    (h : s.load w r ea f = .next t) : Effect i s t := by
  rcases load_next h with h | ⟨v, h⟩
  · exact .trap _ h
  · exact .delayed r v h

theorem Effect.of_loadMerge {i : Instr} {s t : State} {r : Reg} {ea : Word} {f : Word → Word → Word}
    (h : s.loadMerge r ea f = .next t) : Effect i s t := by
  rcases loadMerge_next h with h | ⟨v, h⟩
  · exact .trap _ h
  · exact .delayed r v h

theorem Effect.of_store {i : Instr} {s t : State} {w : Width} {ea v : Word} (hi : i.isStore = true)
    (h : s.store w ea v = .next t) : Effect i s t := by
  rcases store_next h with h | h
  · exact .trap _ h
  · subst h; exact .store hi (memWrite_only ..) (memWrite_keeps ..) (fun hc => memWrite_isolated _ _ _ _ hc)

theorem Effect.of_storeBytes {i : Instr} {s t : State} {va v : Word} {first n : Nat} (hi : i.isStore = true)
    (h : (.next (s.storeBytes va v first n) : Result) = .next t) : Effect i s t := by
  cases h; exact .store hi (storeBytes_only ..) (storeBytes_keeps ..) (storeBytes_isolated _ _ _ _ _)

theorem Effect.of_copAbsent {i : Instr} {s t : State} {z : Fin 4} (h : s.copAbsent z = .next t) : Effect i s t := by
  obtain ⟨e, h⟩ := copAbsent_next h; exact .trap e h

theorem Effect.of_cop2 {i : Instr} {s t : State} (h : s.cop2Operation = .next t) : Effect i s t := by
  obtain ⟨e, h⟩ := cop2Operation_next h; exact .trap e h

theorem Effect.of_raise {i : Instr} {s t : State} {e : ExceptionKind} (h : s.raise e = .next t) : Effect i s t :=
  .trap e (Host.Outcome.next.inj h).symm

theorem Effect.of_mfc0 {s t : State} {rt rd : Reg} (h : execMfc0 rt rd s = .next t) : Effect (.mfc0 rt rd) s t := by
  rcases ifCop0Usable_next h with h | ⟨-, h⟩
  · exact .trap _ h
  · unfold State.moveFromCop0 at h
    split at h
    · exact .delayed _ _ (Host.Outcome.next.inj h).symm
    · exact .of_raise h

theorem Effect.of_mtc0 {s t : State} {rt rd : Reg} (h : execMtc0 rt rd s = .next t) : Effect (.mtc0 rt rd) s t := by
  rcases ifCop0Usable_next h with h | ⟨hs, h⟩
  · exact .trap _ h
  · cases h
    unfold State.writeCop0
    split_ifs with h12 h13
    · subst h12; exact .status _ hs (.inr ⟨rt, rfl⟩) rfl
    · subst h13; exact .softwareBits _ hs ⟨rt, rfl⟩ rfl
    · exact .nothing rfl

theorem Effect.of_rfe {s t : State} (h : execRfe s = .next t) : Effect .rfe s t := by
  rcases ifCop0Usable_next h with h | ⟨hs, h⟩
  · exact .trap _ h
  · cases h; exact .status _ hs (.inl rfl) rfl

/-- What every next state of an instruction is. -/
theorem exec_effect {i : Instr} {s t : State} (h : exec i s = .next t) : Effect i s t := by
  cases i with
  | sll | srl | sra | sllv | srlv | srav | mfhi | mflo | addu | subu | and | or | xor | nor | slt | sltu | addiu | slti
  | sltiu | andi | ori | xori | lui => exact .of_write rfl h
  | add | sub | addi => exact .of_trapping rfl h
  | mthi | mtlo | mult | multu | div | divu => exact .of_hiLo h
  | jr | j | beq | bne | blez | bgtz | bltz | bgez => exact .of_branch rfl h
  | jalr | jal | bltzal | bgezal => exact .of_link rfl rfl h
  | syscall | brk => exact .of_raise h
  | mfc0 => exact .of_mfc0 h
  | mtc0 => exact .of_mtc0 h
  | rfe => exact .of_rfe h
  | cop1 | cop3 | lwc0 | lwc1 | lwc3 | swc0 | swc1 | swc3 => exact .of_copAbsent h
  | cop2 | lwc2 | swc2 => exact .of_cop2 h
  | lb rt rs imm => exact .of_load (w := .byte) (r := rt) (ea := s.ea rs imm) (f := sextByte) h
  | lbu rt rs imm => exact .of_load (w := .byte) (r := rt) (ea := s.ea rs imm) (f := id) h
  | lh | lw | lhu => exact .of_load h
  | lwl | lwr => exact .of_loadMerge h
  | sb rt rs imm => exact .of_store (w := .byte) (ea := s.ea rs imm) (v := s.reg rt) rfl h
  | sh | sw => exact .of_store rfl h
  | swl | swr => exact .of_storeBytes rfl h

/-! ### What an outcome can be -/

/-- A next state, a branch refused in a delay slot (42_branch_jump.md R211), or a coprocessor 2 operation refused while
CU2 = 1 (44_system_cop.md R283, R286). -/
theorem exec_total (i : Instr) (s : State) :
    (∃ t, exec i s = .next t) ∨
    (exec i s = .refused .branchInDelaySlot ∧ i.isBranch = true ∧ s.inDelay = true) ∨
    (exec i s = .refused .cop2Present ∧ i.isCop2 = true ∧ s.sr.getLsbD 30 = true) := by
  have branch (u : State) (hb : i.isBranch = true) (he : exec i s = s.unlessInDelay u) :
      (∃ t, exec i s = .next t) ∨
      (exec i s = .refused .branchInDelaySlot ∧ i.isBranch = true ∧ s.inDelay = true) ∨
      (exec i s = .refused .cop2Present ∧ i.isCop2 = true ∧ s.sr.getLsbD 30 = true) := by
    rw [he, State.unlessInDelay]
    split
    · exact .inr (.inl ⟨rfl, hb, ‹_›⟩)
    · exact .inl ⟨_, rfl⟩
  have cop2 (hb : i.isCop2 = true) (he : exec i s = s.cop2Operation) :
      (∃ t, exec i s = .next t) ∨
      (exec i s = .refused .branchInDelaySlot ∧ i.isBranch = true ∧ s.inDelay = true) ∨
      (exec i s = .refused .cop2Present ∧ i.isCop2 = true ∧ s.sr.getLsbD 30 = true) := by
    rw [he, State.cop2Operation]
    split
    · exact .inr (.inr ⟨rfl, hb, by simpa [State.copUsable, State.cu] using ‹_›⟩)
    · exact .inl ⟨_, rfl⟩
  have cond (e : Result) (he : exec i s = s.ifCop0Usable e) (hn : ∃ t, e = .next t) : ∃ t, exec i s = .next t := by
    obtain ⟨t, rfl⟩ := hn
    rw [he, State.ifCop0Usable]; split
    · exact ⟨_, rfl⟩
    · exact ⟨_, rfl⟩
  cases i with
  | sll | srl | sra | sllv | srlv | srav | mfhi | mflo | addu | subu | and | or | xor | nor | slt | sltu | addiu | slti
  | sltiu | andi | ori | xori | lui | mthi | mtlo | mult | multu | div | divu | syscall | brk | swl | swr =>
    exact .inl ⟨_, rfl⟩
  | add | sub | addi => left; simp only [exec, execAdd, execSub, execAddi, State.writeTrapping]; split <;> exact ⟨_, rfl⟩
  | jr | jalr | j | jal | beq | bne | blez | bgtz | bltz | bgez | bltzal | bgezal => exact branch _ rfl rfl
  | mfc0 rt rd =>
    refine .inl (cond _ rfl ?_)
    unfold State.moveFromCop0; split <;> exact ⟨_, rfl⟩
  | mtc0 => exact .inl (cond _ rfl ⟨_, rfl⟩)
  | rfe => exact .inl (cond _ rfl ⟨_, rfl⟩)
  | cop1 | cop3 | lwc0 | lwc1 | lwc3 | swc0 | swc1 | swc3 =>
    left
    simp only [exec, execCop1, execCop3, execLwc0, execLwc1, execLwc3, execSwc0, execSwc1, execSwc3, State.copAbsent]
    split <;> exact ⟨_, rfl⟩
  | cop2 | lwc2 | swc2 => exact cop2 rfl rfl
  | lb | lh | lw | lbu | lhu =>
    left
    simp only [exec, execLb, execLh, execLw, execLbu, execLhu, State.load]
    split
    · split <;> exact ⟨_, rfl⟩
    · exact ⟨_, rfl⟩
  | lwl | lwr => left; simp only [exec, execLwl, execLwr, State.loadMerge]; split <;> exact ⟨_, rfl⟩
  | sb | sh | sw => left; simp only [exec, execSb, execSh, execSw, State.store]; split <;> exact ⟨_, rfl⟩

end Sys2Proof.Machine
end

