-- ==== Sys2Proof/Laws/Merge.lean ====
section
/-! SUPPORT. The byte view of the merges of LWL and LWR (43_load_store.md R246, R247), and the place of an address in its
aligned word. -/

namespace Sys2Proof.Machine

/-! ### Masks by bit -/

theorem lowMask_bit (k n : Nat) (hk : k ≤ 32) : ((BitVec.allOnes k).setWidth 32).getLsbD n = decide (n < k) := by
  rw [BitVec.getLsbD_setWidth, BitVec.getLsbD_allOnes]
  by_cases h : n < k
  · have : n < 32 := by omega
    simp [h, this]
  · simp [h]

theorem highMask_bit (k n : Nat) (h : k < 32) (v : Word) (hv : v = ~~~(BitVec.allOnes k).setWidth 32) :
    v.getLsbD n = (decide (n < 32) && !decide (n < k)) := by
  rw [hv, BitVec.getLsbD_not, lowMask_bit k n (by omega)]

/-- A word whose low `k` bits are kept and whose others come from `m`, shifted up by `k`. -/
theorem keepLow_bit (cur m mask : Word) (k n : Nat) (hk : k ≤ 32) (hm : mask = (BitVec.allOnes k).setWidth 32) :
    ((cur &&& mask) ||| (m <<< k)).getLsbD n =
      if n < k then cur.getLsbD n else (decide (n < 32) && m.getLsbD (n - k)) := by
  rw [BitVec.getLsbD_or, BitVec.getLsbD_and, hm, lowMask_bit k n hk, BitVec.getLsbD_shiftLeft]
  by_cases h : n < k <;> simp [h]

/-- A word whose bits from `k` up are kept and whose others come from `m`, shifted down by `32 - k`. -/
theorem keepHigh_bit (cur m mask : Word) (k n : Nat) (hk : k < 32) (hn : n < 32) (hm : mask = ~~~(BitVec.allOnes k).setWidth 32) :
    ((cur &&& mask) ||| (m >>> (32 - k))).getLsbD n = if n < k then m.getLsbD (32 - k + n) else cur.getLsbD n := by
  rw [BitVec.getLsbD_or, BitVec.getLsbD_and, highMask_bit k n hk mask hm, BitVec.getLsbD_ushiftRight]
  by_cases h : n < k
  · simp [h]
  · have : m.getLsbD (32 - k + n) = false := BitVec.getLsbD_of_ge _ _ (by omega)
    simp [h, hn, this]

/-! ### The merges by byte -/

theorem mergeLeft_byte (k : Nat) (hk : k < 4) (cur m : Word) (j : Nat) (hj : j < 4) :
    byteOf (mergeLeft k cur m) j = if 3 - k ≤ j then byteOf m (j - (3 - k)) else byteOf cur j := by
  apply BitVec.eq_of_getLsbD_eq
  intro i hi
  have hn : 8 * j + i < 32 := by omega
  have shape : (mergeLeft k cur m).getLsbD (8 * j + i) =
      if 8 * j + i < 24 - 8 * k then cur.getLsbD (8 * j + i) else m.getLsbD (8 * j + i - (24 - 8 * k)) := by
    have hk' : k = 0 ∨ k = 1 ∨ k = 2 ∨ k = 3 := by omega
    rcases hk' with rfl | rfl | rfl | rfl
    · exact (keepLow_bit cur m _ 24 _ (by omega) (by decide)).trans (by simp [hn])
    · exact (keepLow_bit cur m _ 16 _ (by omega) (by decide)).trans (by simp [hn])
    · exact (keepLow_bit cur m _ 8 _ (by omega) (by decide)).trans (by simp [hn])
    · rfl
  rw [byteOf_bit, shape]
  by_cases h : 3 - k ≤ j
  · rw [if_pos h, if_neg (by omega), byteOf_bit, show 8 * j + i - (24 - 8 * k) = 8 * (j - (3 - k)) + i by omega]
  · rw [if_neg h, if_pos (by omega), byteOf_bit]

theorem mergeRight_byte (k : Nat) (hk : k < 4) (cur m : Word) (j : Nat) (hj : j < 4) :
    byteOf (mergeRight k cur m) j = if j ≤ 3 - k then byteOf m (j + k) else byteOf cur j := by
  apply BitVec.eq_of_getLsbD_eq
  intro i hi
  have hn : 8 * j + i < 32 := by omega
  have shape : (mergeRight k cur m).getLsbD (8 * j + i) =
      if 8 * j + i < 32 - 8 * k then m.getLsbD (8 * k + (8 * j + i)) else cur.getLsbD (8 * j + i) := by
    have hk' : k = 0 ∨ k = 1 ∨ k = 2 ∨ k = 3 := by omega
    rcases hk' with rfl | rfl | rfl | rfl
    · simp [mergeRight, hn]
    · exact keepHigh_bit cur m _ 24 _ (by omega) hn (by decide)
    · exact keepHigh_bit cur m _ 16 _ (by omega) hn (by decide)
    · exact keepHigh_bit cur m _ 8 _ (by omega) hn (by decide)
  rw [byteOf_bit, shape]
  by_cases h : j ≤ 3 - k
  · rw [if_pos h, if_pos (by omega), byteOf_bit, show 8 * k + (8 * j + i) = 8 * (j + k) + i by omega]
  · rw [if_neg h, if_neg (by omega), byteOf_bit]

/-! ### The aligned word of an address -/

theorem lane_eq (ea : Word) : lane ea = ea.toNat % 4 := low_bits_toNat ea 2

theorem alignedWord_toNat (ea : Word) : (alignedWord ea).toNat = ea.toNat - ea.toNat % 4 := by
  have hlt := ea.isLt
  have h : alignedWord ea = (ea.extractLsb' 2 30) ++ 0#2 := by
    apply BitVec.eq_of_getLsbD_eq
    intro n hn
    rw [alignedWord, BitVec.getLsbD_and, highMask_bit 2 n (by omega) 0xFFFFFFFC#32 (by decide), BitVec.getLsbD_append,
      BitVec.getLsbD_extractLsb']
    by_cases h2 : n < 2
    · simp [h2]
    · have : n - 2 < 30 := by omega
      have e : 2 + (n - 2) = n := by omega
      simp [h2, hn, this, e]
  rw [h, BitVec.toNat_append, BitVec.extractLsb'_toNat, Nat.shiftRight_eq_div_pow, Nat.shiftLeft_eq]
  have : (ea.toNat / 2 ^ 2) % 2 ^ 30 = ea.toNat / 4 := by omega
  rw [this]; simp; omega

theorem alignedWord_mod (ea : Word) : (alignedWord ea).toNat % 4 = 0 := by rw [alignedWord_toNat]; omega

theorem alignedWord_aligned (ea : Word) : Width.word.aligned (alignedWord ea) = true :=
  (aligned_iff ..).2 (alignedWord_mod ea)

/-- An address is its aligned word plus its lane. -/
theorem alignedWord_add_lane (ea : Word) : alignedWord ea + BitVec.ofNat 32 (ea.toNat % 4) = ea := by
  apply BitVec.eq_of_toNat_eq
  have := ea.isLt
  rw [BitVec.toNat_add, alignedWord_toNat, BitVec.toNat_ofNat]; omega

end Sys2Proof.Machine
end

