-- ==== Sys2Proof/Laws/PerInstr.lean ====
section
/-! SUPPORT. The per-instruction family `EncodingRow`: every instruction's encoded word belongs to the instruction's own row
of the opcode table (30_encoding.md R122 to R132). -/

namespace Sys2Proof.Laws.EncodingRow

/-- The row of the instruction claims its encoded word. -/
def Statement (i : Instr) : Prop := i.row.claims (encode i) = true

/-! ### What each mask leaves of a word -/

theorem rWord_funct_mask (op : BitVec 6) (rs rt rd : Reg) (sa : BitVec 5) (f : BitVec 6) :
    rWord op rs rt rd sa f &&& 0xFC00003F#32 = op ++ 0#20 ++ f := by
  rw [show 0xFC00003F#32 = BitVec.allOnes 6 ++ 0#20 ++ BitVec.allOnes 6 by decide]
  unfold rWord; ext i hi
  simp only [BitVec.getElem_and, BitVec.getElem_append, BitVec.getElem_allOnes, BitVec.getElem_zero]; grind

theorem rWord_rs_mask (op : BitVec 6) (rs rt rd : Reg) (sa : BitVec 5) (f : BitVec 6) :
    rWord op rs rt rd sa f &&& 0xFFE00000#32 = op ++ regBits rs ++ 0#21 := by
  rw [show 0xFFE00000#32 = BitVec.allOnes 11 ++ 0#21 by decide]
  unfold rWord; ext i hi
  simp only [BitVec.getElem_and, BitVec.getElem_append, BitVec.getElem_allOnes, BitVec.getElem_zero]; grind

theorem rWord_rs_funct_mask (op : BitVec 6) (rs rt rd : Reg) (sa : BitVec 5) (f : BitVec 6) :
    rWord op rs rt rd sa f &&& 0xFFE0003F#32 = op ++ regBits rs ++ 0#15 ++ f := by
  rw [show 0xFFE0003F#32 = BitVec.allOnes 11 ++ 0#15 ++ BitVec.allOnes 6 by decide]
  unfold rWord; ext i hi
  simp only [BitVec.getElem_and, BitVec.getElem_append, BitVec.getElem_allOnes, BitVec.getElem_zero]; grind

theorem iWord_op_mask (op : BitVec 6) (rs rt : Reg) (imm : BitVec 16) :
    iWord op rs rt imm &&& 0xFC000000#32 = op ++ 0#26 := by
  rw [show 0xFC000000#32 = BitVec.allOnes 6 ++ 0#26 by decide]
  unfold iWord; ext i hi
  simp only [BitVec.getElem_and, BitVec.getElem_append, BitVec.getElem_allOnes, BitVec.getElem_zero]; grind

theorem iWord_rt_mask (op : BitVec 6) (rs rt : Reg) (imm : BitVec 16) :
    iWord op rs rt imm &&& 0xFC1F0000#32 = op ++ 0#5 ++ regBits rt ++ 0#16 := by
  rw [show 0xFC1F0000#32 = BitVec.allOnes 6 ++ 0#5 ++ BitVec.allOnes 5 ++ 0#16 by decide]
  unfold iWord; ext i hi
  simp only [BitVec.getElem_and, BitVec.getElem_append, BitVec.getElem_allOnes, BitVec.getElem_zero]; grind

theorem jWord_op_mask (op : BitVec 6) (x : BitVec 26) : jWord op x &&& 0xFC000000#32 = op ++ 0#26 := by
  rw [show 0xFC000000#32 = BitVec.allOnes 6 ++ 0#26 by decide]
  unfold jWord; ext i hi
  simp only [BitVec.getElem_and, BitVec.getElem_append, BitVec.getElem_allOnes, BitVec.getElem_zero]; grind

/-- A row claims a word whose masked bits are the row's pattern. -/
theorem claims_of_masked {i : Instr} {m : Word} (h : encode i &&& i.row.mask = m) (h' : m = i.row.pattern) :
    Statement i := by
  simp [Statement, EncodingRow.claims, h, h']

/-! ### One lemma per instruction -/

theorem sll (rd : Reg) (rt : Reg) (sa : BitVec 5) : Statement (.sll rd rt sa) := claims_of_masked (rWord_funct_mask ..) rfl
theorem srl (rd : Reg) (rt : Reg) (sa : BitVec 5) : Statement (.srl rd rt sa) := claims_of_masked (rWord_funct_mask ..) rfl
theorem sra (rd : Reg) (rt : Reg) (sa : BitVec 5) : Statement (.sra rd rt sa) := claims_of_masked (rWord_funct_mask ..) rfl
theorem sllv (rd : Reg) (rt : Reg) (rs : Reg) : Statement (.sllv rd rt rs) := claims_of_masked (rWord_funct_mask ..) rfl
theorem srlv (rd : Reg) (rt : Reg) (rs : Reg) : Statement (.srlv rd rt rs) := claims_of_masked (rWord_funct_mask ..) rfl
theorem srav (rd : Reg) (rt : Reg) (rs : Reg) : Statement (.srav rd rt rs) := claims_of_masked (rWord_funct_mask ..) rfl
theorem jr (rs : Reg) : Statement (.jr rs) := claims_of_masked (rWord_funct_mask ..) rfl
theorem jalr (rd : Reg) (rs : Reg) : Statement (.jalr rd rs) := claims_of_masked (rWord_funct_mask ..) rfl
theorem syscall : Statement .syscall := claims_of_masked (rWord_funct_mask ..) rfl
theorem brk : Statement .brk := claims_of_masked (rWord_funct_mask ..) rfl
theorem mfhi (rd : Reg) : Statement (.mfhi rd) := claims_of_masked (rWord_funct_mask ..) rfl
theorem mthi (rs : Reg) : Statement (.mthi rs) := claims_of_masked (rWord_funct_mask ..) rfl
theorem mflo (rd : Reg) : Statement (.mflo rd) := claims_of_masked (rWord_funct_mask ..) rfl
theorem mtlo (rs : Reg) : Statement (.mtlo rs) := claims_of_masked (rWord_funct_mask ..) rfl
theorem mult (rs : Reg) (rt : Reg) : Statement (.mult rs rt) := claims_of_masked (rWord_funct_mask ..) rfl
theorem multu (rs : Reg) (rt : Reg) : Statement (.multu rs rt) := claims_of_masked (rWord_funct_mask ..) rfl
theorem div (rs : Reg) (rt : Reg) : Statement (.div rs rt) := claims_of_masked (rWord_funct_mask ..) rfl
theorem divu (rs : Reg) (rt : Reg) : Statement (.divu rs rt) := claims_of_masked (rWord_funct_mask ..) rfl
theorem add (rd : Reg) (rs : Reg) (rt : Reg) : Statement (.add rd rs rt) := claims_of_masked (rWord_funct_mask ..) rfl
theorem addu (rd : Reg) (rs : Reg) (rt : Reg) : Statement (.addu rd rs rt) := claims_of_masked (rWord_funct_mask ..) rfl
theorem sub (rd : Reg) (rs : Reg) (rt : Reg) : Statement (.sub rd rs rt) := claims_of_masked (rWord_funct_mask ..) rfl
theorem subu (rd : Reg) (rs : Reg) (rt : Reg) : Statement (.subu rd rs rt) := claims_of_masked (rWord_funct_mask ..) rfl
theorem and (rd : Reg) (rs : Reg) (rt : Reg) : Statement (.and rd rs rt) := claims_of_masked (rWord_funct_mask ..) rfl
theorem or (rd : Reg) (rs : Reg) (rt : Reg) : Statement (.or rd rs rt) := claims_of_masked (rWord_funct_mask ..) rfl
theorem xor (rd : Reg) (rs : Reg) (rt : Reg) : Statement (.xor rd rs rt) := claims_of_masked (rWord_funct_mask ..) rfl
theorem nor (rd : Reg) (rs : Reg) (rt : Reg) : Statement (.nor rd rs rt) := claims_of_masked (rWord_funct_mask ..) rfl
theorem slt (rd : Reg) (rs : Reg) (rt : Reg) : Statement (.slt rd rs rt) := claims_of_masked (rWord_funct_mask ..) rfl
theorem sltu (rd : Reg) (rs : Reg) (rt : Reg) : Statement (.sltu rd rs rt) := claims_of_masked (rWord_funct_mask ..) rfl
theorem bltz (rs : Reg) (imm : BitVec 16) : Statement (.bltz rs imm) := claims_of_masked (iWord_rt_mask ..) rfl
theorem bgez (rs : Reg) (imm : BitVec 16) : Statement (.bgez rs imm) := claims_of_masked (iWord_rt_mask ..) rfl
theorem bltzal (rs : Reg) (imm : BitVec 16) : Statement (.bltzal rs imm) := claims_of_masked (iWord_rt_mask ..) rfl
theorem bgezal (rs : Reg) (imm : BitVec 16) : Statement (.bgezal rs imm) := claims_of_masked (iWord_rt_mask ..) rfl
theorem j (target : BitVec 26) : Statement (.j target) := claims_of_masked (jWord_op_mask ..) rfl
theorem jal (target : BitVec 26) : Statement (.jal target) := claims_of_masked (jWord_op_mask ..) rfl
theorem beq (rs : Reg) (rt : Reg) (imm : BitVec 16) : Statement (.beq rs rt imm) := claims_of_masked (iWord_op_mask ..) rfl
theorem bne (rs : Reg) (rt : Reg) (imm : BitVec 16) : Statement (.bne rs rt imm) := claims_of_masked (iWord_op_mask ..) rfl
theorem blez (rs : Reg) (imm : BitVec 16) : Statement (.blez rs imm) := claims_of_masked (iWord_op_mask ..) rfl
theorem bgtz (rs : Reg) (imm : BitVec 16) : Statement (.bgtz rs imm) := claims_of_masked (iWord_op_mask ..) rfl
theorem addi (rt : Reg) (rs : Reg) (imm : BitVec 16) : Statement (.addi rt rs imm) := claims_of_masked (iWord_op_mask ..) rfl
theorem addiu (rt : Reg) (rs : Reg) (imm : BitVec 16) : Statement (.addiu rt rs imm) := claims_of_masked (iWord_op_mask ..) rfl
theorem slti (rt : Reg) (rs : Reg) (imm : BitVec 16) : Statement (.slti rt rs imm) := claims_of_masked (iWord_op_mask ..) rfl
theorem sltiu (rt : Reg) (rs : Reg) (imm : BitVec 16) : Statement (.sltiu rt rs imm) := claims_of_masked (iWord_op_mask ..) rfl
theorem andi (rt : Reg) (rs : Reg) (imm : BitVec 16) : Statement (.andi rt rs imm) := claims_of_masked (iWord_op_mask ..) rfl
theorem ori (rt : Reg) (rs : Reg) (imm : BitVec 16) : Statement (.ori rt rs imm) := claims_of_masked (iWord_op_mask ..) rfl
theorem xori (rt : Reg) (rs : Reg) (imm : BitVec 16) : Statement (.xori rt rs imm) := claims_of_masked (iWord_op_mask ..) rfl
theorem lui (rt : Reg) (imm : BitVec 16) : Statement (.lui rt imm) := claims_of_masked (iWord_op_mask ..) rfl
theorem mfc0 (rt : Reg) (rd : Reg) : Statement (.mfc0 rt rd) := claims_of_masked (rWord_rs_mask ..) rfl
theorem mtc0 (rt : Reg) (rd : Reg) : Statement (.mtc0 rt rd) := claims_of_masked (rWord_rs_mask ..) rfl
theorem rfe : Statement .rfe := claims_of_masked (rWord_rs_funct_mask ..) rfl
theorem cop1 : Statement .cop1 := claims_of_masked (jWord_op_mask ..) rfl
theorem cop2 : Statement .cop2 := claims_of_masked (jWord_op_mask ..) rfl
theorem cop3 : Statement .cop3 := claims_of_masked (jWord_op_mask ..) rfl
theorem lb (rt : Reg) (rs : Reg) (imm : BitVec 16) : Statement (.lb rt rs imm) := claims_of_masked (iWord_op_mask ..) rfl
theorem lh (rt : Reg) (rs : Reg) (imm : BitVec 16) : Statement (.lh rt rs imm) := claims_of_masked (iWord_op_mask ..) rfl
theorem lwl (rt : Reg) (rs : Reg) (imm : BitVec 16) : Statement (.lwl rt rs imm) := claims_of_masked (iWord_op_mask ..) rfl
theorem lw (rt : Reg) (rs : Reg) (imm : BitVec 16) : Statement (.lw rt rs imm) := claims_of_masked (iWord_op_mask ..) rfl
theorem lbu (rt : Reg) (rs : Reg) (imm : BitVec 16) : Statement (.lbu rt rs imm) := claims_of_masked (iWord_op_mask ..) rfl
theorem lhu (rt : Reg) (rs : Reg) (imm : BitVec 16) : Statement (.lhu rt rs imm) := claims_of_masked (iWord_op_mask ..) rfl
theorem lwr (rt : Reg) (rs : Reg) (imm : BitVec 16) : Statement (.lwr rt rs imm) := claims_of_masked (iWord_op_mask ..) rfl
theorem sb (rt : Reg) (rs : Reg) (imm : BitVec 16) : Statement (.sb rt rs imm) := claims_of_masked (iWord_op_mask ..) rfl
theorem sh (rt : Reg) (rs : Reg) (imm : BitVec 16) : Statement (.sh rt rs imm) := claims_of_masked (iWord_op_mask ..) rfl
theorem swl (rt : Reg) (rs : Reg) (imm : BitVec 16) : Statement (.swl rt rs imm) := claims_of_masked (iWord_op_mask ..) rfl
theorem sw (rt : Reg) (rs : Reg) (imm : BitVec 16) : Statement (.sw rt rs imm) := claims_of_masked (iWord_op_mask ..) rfl
theorem swr (rt : Reg) (rs : Reg) (imm : BitVec 16) : Statement (.swr rt rs imm) := claims_of_masked (iWord_op_mask ..) rfl
theorem lwc0 : Statement .lwc0 := claims_of_masked (jWord_op_mask ..) rfl
theorem lwc1 : Statement .lwc1 := claims_of_masked (jWord_op_mask ..) rfl
theorem lwc2 : Statement .lwc2 := claims_of_masked (jWord_op_mask ..) rfl
theorem lwc3 : Statement .lwc3 := claims_of_masked (jWord_op_mask ..) rfl
theorem swc0 : Statement .swc0 := claims_of_masked (jWord_op_mask ..) rfl
theorem swc1 : Statement .swc1 := claims_of_masked (jWord_op_mask ..) rfl
theorem swc2 : Statement .swc2 := claims_of_masked (jWord_op_mask ..) rfl
theorem swc3 : Statement .swc3 := claims_of_masked (jWord_op_mask ..) rfl

end Sys2Proof.Laws.EncodingRow
end

