-- ==== Sys2Proof/Laws/Step.lean ====
section
/-! SUPPORT. Everything a step can do (15_pipeline.md R69): `step_cases` says it once; later proofs cite it and never unfold
`step`. -/

namespace Sys2Proof.Machine

/-! ### Fetch -/

theorem beginStep_fetch (s : State) :
    s.beginStep.fetch = if s.pc.extractLsb' 0 2 = 0#2 then s.memRead .word s.pc else none := by
  have ha : Width.word.aligned s.pc = true ↔ s.pc.extractLsb' 0 2 = 0#2 := (aligned_iff ..).trans (toNat_mod_four _)
  show (if Width.word.aligned s.pc = true then s.memRead .word s.pc else none) = _
  by_cases h : s.pc.extractLsb' 0 2 = 0#2
  · rw [if_pos h, if_pos (ha.2 h)]
  · rw [if_neg h, if_neg fun h' => h (ha.1 h')]

theorem beginStep_fetch_some {s : State} {w : Word} (h : s.beginStep.fetch = some w) :
    s.pc.extractLsb' 0 2 = 0#2 ∧ s.memRead .word s.pc = some w := by
  rw [beginStep_fetch] at h; split at h
  · exact ⟨‹_›, h⟩
  · cases h

theorem interruptDue_iff (s : State) : s.beginStep.interruptRequested = true ↔ s.InterruptDue :=
  beginStep_interruptRequested s

theorem not_interruptDue {s : State} (h : ¬ s.InterruptDue) : s.beginStep.interruptRequested = false :=
  Bool.eq_false_iff.2 fun hi => h ((interruptDue_iff s).1 hi)

/-! ### The four endings of a step -/

theorem step_refused {s : State} (h : s.refused = true) : step s = .fault .refusedRun := by simp [step, h]

theorem step_interrupt {s : State} (hr : s.refused = false) (hi : s.InterruptDue) :
    step s = .next (s.beginStep.trapInstead .interrupt) := by
  simp [step, hr, (interruptDue_iff s).2 hi]

theorem step_fetchError {s : State} (hr : s.refused = false) (hi : ¬ s.InterruptDue) (hf : s.beginStep.fetch = none) :
    step s = .next (s.beginStep.trapInstead (.addressLoadError s.pc)) := by
  simp [step, hr, not_interruptDue hi, hf]

theorem step_word {s : State} {w : Word} (hr : s.refused = false) (hi : ¬ s.InterruptDue)
    (hf : s.beginStep.fetch = some w) : step s = ageResult (execWord w s.beginStep.advance) := by
  simp [step, hr, not_interruptDue hi, hf]

theorem execReject_next (e : DecodeReject) (s : State) :
    execReject e s = .next (s.enterException
      (if e = .reservedCop0 ∧ ¬ s.Cop0Open then .coprocessorUnusable 0#2 else .reservedInstruction)) := by
  have hc : s.cop0Usable = true ↔ s.Cop0Open := cop0Usable_iff s
  cases e <;> try rfl
  by_cases h : s.Cop0Open
  · rw [execReject, if_pos (hc.2 h), if_neg (fun h' => h'.2 h)]; rfl
  · rw [execReject, if_neg (fun hu => h (hc.1 hu)), if_pos ⟨rfl, h⟩]; rfl

theorem ageResult_next {r : Result} {u : State} (h : ageResult r = .next u) :
    ∃ t, r = .next t ∧ u = t.ageLoadDelay := by
  cases r <;> simp only [ageResult, reduceCtorEq] at h
  exact ⟨_, rfl, (Host.Outcome.next.inj h).symm⟩

/-- What a step that answers a next state has done. -/
theorem step_cases {s u : State} (h : step s = .next u) :
    s.refused = false ∧ (
      (s.InterruptDue ∧ u = s.beginStep.trapInstead .interrupt) ∨
      (¬ s.InterruptDue ∧ s.beginStep.fetch = none ∧ u = s.beginStep.trapInstead (.addressLoadError s.pc)) ∨
      (¬ s.InterruptDue ∧ ∃ w, s.beginStep.fetch = some w ∧ ∃ t, u = t.ageLoadDelay ∧
        ((∃ i, decode w = .ok i ∧ exec i s.beginStep.advance = .next t) ∨
          (∃ r e, decode w = .error r ∧ t = s.beginStep.advance.enterException e)))) := by
  have hr : s.refused = false := by
    by_contra hr
    rw [step_refused (by simpa using hr)] at h; cases h
  refine ⟨hr, ?_⟩
  by_cases hi : s.InterruptDue
  · rw [step_interrupt hr hi] at h
    exact .inl ⟨hi, (Host.Outcome.next.inj h).symm⟩
  · cases hf : s.beginStep.fetch with
    | none =>
      rw [step_fetchError hr hi hf] at h
      exact .inr (.inl ⟨hi, rfl, (Host.Outcome.next.inj h).symm⟩)
    | some w =>
      rw [step_word hr hi hf] at h
      obtain ⟨t, ht, hu⟩ := ageResult_next h
      refine .inr (.inr ⟨hi, w, rfl, t, hu, ?_⟩)
      unfold execWord at ht
      split at ht
      · exact .inl ⟨_, ‹_›, ht⟩
      · rw [execReject_next] at ht
        exact .inr ⟨_, _, ‹_›, (Host.Outcome.next.inj ht).symm⟩

/-- The short form: a step's next state is an aged state that an entry or an instruction left. -/
theorem step_effect {s u : State} (h : step s = .next u) :
    ∃ t, u = t.ageLoadDelay ∧
      ((∃ e, t = s.beginStep.enterException e) ∨ (∃ e, t = s.beginStep.advance.enterException e) ∨
        ∃ w i, s.memRead .word s.pc = some w ∧ decode w = .ok i ∧ Effect i s.beginStep.advance t) := by
  obtain ⟨-, ⟨-, h⟩ | ⟨-, -, h⟩ | ⟨-, w, hf, t, hu, ⟨i, hd, ht⟩ | ⟨r, e, -, ht⟩⟩⟩ := step_cases h
  · exact ⟨_, h, .inl ⟨_, rfl⟩⟩
  · exact ⟨_, h, .inl ⟨_, rfl⟩⟩
  · exact ⟨t, hu, .inr (.inr ⟨w, i, (beginStep_fetch_some hf).2, hd, exec_effect ht⟩)⟩
  · exact ⟨t, hu, .inr (.inl ⟨e, ht⟩)⟩

/-! ### Placing an instruction -/

/-- `withFetchWord` keeps the canonical form of memory (log 12). -/
theorem withFetchWord_wf (s : State) (nbits w : Nat) (h : s.mem.wf = true) : (s.withFetchWord nbits w).mem.wf = true := by
  unfold State.withFetchWord
  simp only
  split
  · split
    · exact Memory.load_wf h _ _
    · exact Memory.load_wf h _ _
    · exact h
    · exact h
    · exact h
  · exact h

end Sys2Proof.Machine
end

