-- ==== Sys2Proof/Tests/Slice0.lean ====
section
/-! SUPPORT. The model's own tests. Words and expected values are those of spec/95_test_vectors.md (named V<part>.<row> or
W<n>) and of the examples of the spec's rules; the words of the decode tests are written from the formats of 30_encoding.md.
The last part shows, for every statement with hypotheses, states and operands that meet them. -/

namespace Sys2Proof.Tests

open Sys2Proof.Machine

/-! ### Well-formedness of an encoding -/

/-- A pattern bit outside the mask: no word could belong to the row. -/
theorem test_wf_refuses_pattern_outside_mask : EncodingRow.wf ⟨"X", 0x00000001#32, 0xFC000000#32⟩ = false := by decide

/-- SPECIAL by `op` alone would claim ADD's words. -/
theorem test_wf_refuses_overlapping_rows :
    encodingTableWf [⟨"SPECIAL", 0x00000000#32, 0xFC000000#32⟩, ⟨"ADD", 0x00000020#32, 0xFC00003F#32⟩] = false := by decide

theorem test_wf_refuses_same_row_twice :
    encodingTableWf [⟨"J", 0x08000000#32, 0xFC000000#32⟩, ⟨"J", 0x08000000#32, 0xFC000000#32⟩] = false := by decide

theorem test_wf_opcode_table : encodingTableWf opcodeTable = true ∧ opcodeTable.length = 72 := by decide

/-! ### Decoding: words written from the formats of 30_encoding.md (R122 to R124, R128 to R132) -/

theorem test_decode_shifts :
    decode (0b000000#6 ++ 0b00000#5 ++ 0b00010#5 ++ 0b00011#5 ++ 0b11111#5 ++ 0b000000#6) = .ok (.sll 3 2 31#5) ∧
    decode (0b000000#6 ++ 0b00000#5 ++ 0b00010#5 ++ 0b00011#5 ++ 0b00001#5 ++ 0b000010#6) = .ok (.srl 3 2 1#5) ∧
    decode (0b000000#6 ++ 0b00000#5 ++ 0b00010#5 ++ 0b00011#5 ++ 0b11110#5 ++ 0b000011#6) = .ok (.sra 3 2 30#5) ∧
    decode (0b000000#6 ++ 0b00001#5 ++ 0b00010#5 ++ 0b00011#5 ++ 0b00000#5 ++ 0b000100#6) = .ok (.sllv 3 2 1) ∧
    decode (0b000000#6 ++ 0b00001#5 ++ 0b00010#5 ++ 0b00011#5 ++ 0b00000#5 ++ 0b000110#6) = .ok (.srlv 3 2 1) ∧
    decode (0b000000#6 ++ 0b00001#5 ++ 0b00010#5 ++ 0b00011#5 ++ 0b00000#5 ++ 0b000111#6) = .ok (.srav 3 2 1) := by decide

theorem test_decode_register_jumps_and_traps :
    decode (0b000000#6 ++ 0b11111#5 ++ 0b00000#5 ++ 0b00000#5 ++ 0b00000#5 ++ 0b001000#6) = .ok (.jr 31) ∧
    decode (0b000000#6 ++ 0b00100#5 ++ 0b00000#5 ++ 0b11111#5 ++ 0b00000#5 ++ 0b001001#6) = .ok (.jalr 31 4) ∧
    decode (0b000000#6 ++ 0b00000#5 ++ 0b00000#5 ++ 0b00000#5 ++ 0b00000#5 ++ 0b001100#6) = .ok (.syscall) ∧
    decode (0b000000#6 ++ 0b11111#5 ++ 0b11111#5 ++ 0b11111#5 ++ 0b11111#5 ++ 0b001101#6) = .ok (.brk) := by decide

theorem test_decode_hi_lo :
    decode (0b000000#6 ++ 0b00000#5 ++ 0b00000#5 ++ 0b00011#5 ++ 0b00000#5 ++ 0b010000#6) = .ok (.mfhi 3) ∧
    decode (0b000000#6 ++ 0b00001#5 ++ 0b00000#5 ++ 0b00000#5 ++ 0b00000#5 ++ 0b010001#6) = .ok (.mthi 1) ∧
    decode (0b000000#6 ++ 0b00000#5 ++ 0b00000#5 ++ 0b00011#5 ++ 0b00000#5 ++ 0b010010#6) = .ok (.mflo 3) ∧
    decode (0b000000#6 ++ 0b00001#5 ++ 0b00000#5 ++ 0b00000#5 ++ 0b00000#5 ++ 0b010011#6) = .ok (.mtlo 1) ∧
    decode (0b000000#6 ++ 0b00001#5 ++ 0b00010#5 ++ 0b00000#5 ++ 0b00000#5 ++ 0b011000#6) = .ok (.mult 1 2) ∧
    decode (0b000000#6 ++ 0b00001#5 ++ 0b00010#5 ++ 0b00000#5 ++ 0b00000#5 ++ 0b011001#6) = .ok (.multu 1 2) ∧
    decode (0b000000#6 ++ 0b00001#5 ++ 0b00010#5 ++ 0b00000#5 ++ 0b00000#5 ++ 0b011010#6) = .ok (.div 1 2) ∧
    decode (0b000000#6 ++ 0b00001#5 ++ 0b00010#5 ++ 0b00000#5 ++ 0b00000#5 ++ 0b011011#6) = .ok (.divu 1 2) := by decide

theorem test_decode_register_arithmetic :
    decode (0b000000#6 ++ 0b00001#5 ++ 0b00010#5 ++ 0b00011#5 ++ 0b00000#5 ++ 0b100000#6) = .ok (.add 3 1 2) ∧
    decode (0b000000#6 ++ 0b00001#5 ++ 0b00010#5 ++ 0b00011#5 ++ 0b00000#5 ++ 0b100001#6) = .ok (.addu 3 1 2) ∧
    decode (0b000000#6 ++ 0b00001#5 ++ 0b00010#5 ++ 0b00011#5 ++ 0b00000#5 ++ 0b100010#6) = .ok (.sub 3 1 2) ∧
    decode (0b000000#6 ++ 0b00001#5 ++ 0b00010#5 ++ 0b00011#5 ++ 0b00000#5 ++ 0b100011#6) = .ok (.subu 3 1 2) ∧
    decode (0b000000#6 ++ 0b00001#5 ++ 0b00010#5 ++ 0b00011#5 ++ 0b00000#5 ++ 0b100100#6) = .ok (.and 3 1 2) ∧
    decode (0b000000#6 ++ 0b00001#5 ++ 0b00010#5 ++ 0b00011#5 ++ 0b00000#5 ++ 0b100101#6) = .ok (.or 3 1 2) ∧
    decode (0b000000#6 ++ 0b00001#5 ++ 0b00010#5 ++ 0b00011#5 ++ 0b00000#5 ++ 0b100110#6) = .ok (.xor 3 1 2) ∧
    decode (0b000000#6 ++ 0b00001#5 ++ 0b00010#5 ++ 0b00011#5 ++ 0b00000#5 ++ 0b100111#6) = .ok (.nor 3 1 2) ∧
    decode (0b000000#6 ++ 0b00001#5 ++ 0b00010#5 ++ 0b00011#5 ++ 0b00000#5 ++ 0b101010#6) = .ok (.slt 3 1 2) ∧
    decode (0b000000#6 ++ 0b00001#5 ++ 0b00010#5 ++ 0b00011#5 ++ 0b00000#5 ++ 0b101011#6) = .ok (.sltu 3 1 2) := by decide

theorem test_decode_branches :
    decode (0b000001#6 ++ 0b00001#5 ++ 0b00000#5 ++ 0b0000000000000010#16) = .ok (.bltz 1 2#16) ∧
    decode (0b000001#6 ++ 0b00001#5 ++ 0b00001#5 ++ 0b0000000000000010#16) = .ok (.bgez 1 2#16) ∧
    decode (0b000001#6 ++ 0b00001#5 ++ 0b10000#5 ++ 0b0000000000000010#16) = .ok (.bltzal 1 2#16) ∧
    decode (0b000001#6 ++ 0b00001#5 ++ 0b10001#5 ++ 0b0000000000000010#16) = .ok (.bgezal 1 2#16) ∧
    decode (0b000100#6 ++ 0b00001#5 ++ 0b00010#5 ++ 0b0000000000000100#16) = .ok (.beq 1 2 4#16) ∧
    decode (0b000101#6 ++ 0b00001#5 ++ 0b00010#5 ++ 0b1000000000000000#16) = .ok (.bne 1 2 0x8000#16) ∧
    decode (0b000110#6 ++ 0b00001#5 ++ 0b00000#5 ++ 0b0000000000000010#16) = .ok (.blez 1 2#16) ∧
    decode (0b000111#6 ++ 0b00001#5 ++ 0b00000#5 ++ 0b0000000000000010#16) = .ok (.bgtz 1 2#16) := by decide

theorem test_decode_jumps :
    decode (0b000010#6 ++ 0b00000000000000000000000100#26) = .ok (.j 4#26) ∧
    decode (0b000011#6 ++ 0b11111111111111111111111111#26) = .ok (.jal 0x3FFFFFF#26) := by decide

theorem test_decode_immediates :
    decode (0b001000#6 ++ 0b00001#5 ++ 0b00010#5 ++ 0b1111111111111111#16) = .ok (.addi 2 1 0xFFFF#16) ∧
    decode (0b001001#6 ++ 0b00001#5 ++ 0b00010#5 ++ 0b0000000000000001#16) = .ok (.addiu 2 1 1#16) ∧
    decode (0b001010#6 ++ 0b00001#5 ++ 0b00010#5 ++ 0b1111111111111100#16) = .ok (.slti 2 1 0xFFFC#16) ∧
    decode (0b001011#6 ++ 0b00001#5 ++ 0b00010#5 ++ 0b1111111111111111#16) = .ok (.sltiu 2 1 0xFFFF#16) ∧
    decode (0b001100#6 ++ 0b00001#5 ++ 0b00010#5 ++ 0b1111111100000000#16) = .ok (.andi 2 1 0xFF00#16) ∧
    decode (0b001101#6 ++ 0b00001#5 ++ 0b00010#5 ++ 0b1000000000000000#16) = .ok (.ori 2 1 0x8000#16) ∧
    decode (0b001110#6 ++ 0b00001#5 ++ 0b00010#5 ++ 0b1111111111111111#16) = .ok (.xori 2 1 0xFFFF#16) ∧
    decode (0b001111#6 ++ 0b00101#5 ++ 0b00010#5 ++ 0b0001001000110100#16) = .ok (.lui 2 0x1234#16) := by decide

theorem test_decode_coprocessor :
    decode (0b010000#6 ++ 0b00000#5 ++ 0b01000#5 ++ 0b01100#5 ++ 0b00000#5 ++ 0b000000#6) = .ok (.mfc0 8 12) ∧
    decode (0b010000#6 ++ 0b00100#5 ++ 0b01000#5 ++ 0b01101#5 ++ 0b00000#5 ++ 0b000000#6) = .ok (.mtc0 8 13) ∧
    decode (0b010000#6 ++ 0b10000#5 ++ 0b11111#5 ++ 0b11111#5 ++ 0b11111#5 ++ 0b010000#6) = .ok (.rfe) ∧
    decode (0b010001#6 ++ 0b00000000000000000000000000#26) = .ok (.cop1) ∧
    decode (0b010010#6 ++ 0b10000000000000000000000001#26) = .ok (.cop2) ∧
    decode (0b010011#6 ++ 0b00000000000000000000000000#26) = .ok (.cop3) := by decide

theorem test_decode_loads :
    decode (0b100000#6 ++ 0b00001#5 ++ 0b00010#5 ++ 0b0000000000000101#16) = .ok (.lb 2 1 5#16) ∧
    decode (0b100001#6 ++ 0b00001#5 ++ 0b00010#5 ++ 0b0000000000000101#16) = .ok (.lh 2 1 5#16) ∧
    decode (0b100010#6 ++ 0b00001#5 ++ 0b00010#5 ++ 0b0000000000000101#16) = .ok (.lwl 2 1 5#16) ∧
    decode (0b100011#6 ++ 0b00001#5 ++ 0b00010#5 ++ 0b0000000000000101#16) = .ok (.lw 2 1 5#16) ∧
    decode (0b100100#6 ++ 0b00001#5 ++ 0b00010#5 ++ 0b0000000000000101#16) = .ok (.lbu 2 1 5#16) ∧
    decode (0b100101#6 ++ 0b00001#5 ++ 0b00010#5 ++ 0b0000000000000101#16) = .ok (.lhu 2 1 5#16) ∧
    decode (0b100110#6 ++ 0b00001#5 ++ 0b00010#5 ++ 0b0000000000000101#16) = .ok (.lwr 2 1 5#16) := by decide

theorem test_decode_stores :
    decode (0b101000#6 ++ 0b00001#5 ++ 0b00010#5 ++ 0b0000000000000101#16) = .ok (.sb 2 1 5#16) ∧
    decode (0b101001#6 ++ 0b00001#5 ++ 0b00010#5 ++ 0b0000000000000101#16) = .ok (.sh 2 1 5#16) ∧
    decode (0b101010#6 ++ 0b00001#5 ++ 0b00010#5 ++ 0b0000000000000101#16) = .ok (.swl 2 1 5#16) ∧
    decode (0b101011#6 ++ 0b00001#5 ++ 0b00010#5 ++ 0b0000000000000101#16) = .ok (.sw 2 1 5#16) ∧
    decode (0b101110#6 ++ 0b00001#5 ++ 0b00010#5 ++ 0b0000000000000101#16) = .ok (.swr 2 1 5#16) := by decide

theorem test_decode_coprocessor_loads_and_stores :
    decode (0b110000#6 ++ 0b00000000000000000000000000#26) = .ok (.lwc0) ∧
    decode (0b110001#6 ++ 0b00000000000000000000000001#26) = .ok (.lwc1) ∧
    decode (0b110010#6 ++ 0b00000000000000000000000010#26) = .ok (.lwc2) ∧
    decode (0b110011#6 ++ 0b00000000000000000000000011#26) = .ok (.lwc3) ∧
    decode (0b111000#6 ++ 0b00000000000000000000000100#26) = .ok (.swc0) ∧
    decode (0b111001#6 ++ 0b00000000000000000000000101#26) = .ok (.swc1) ∧
    decode (0b111010#6 ++ 0b00000000000000000000000110#26) = .ok (.swc2) ∧
    decode (0b111011#6 ++ 0b00000000000000000000000111#26) = .ok (.swc3) := by decide

/-- Reserved slots of each map (R128 to R131). -/
theorem test_decode_reserved :
    decode 0x0000000F#32 = .error .reservedFunct ∧ decode 0x50000000#32 = .error .reservedOpcode ∧
    decode 0x04220002#32 = .error .reservedRegimm ∧ decode 0x40486000#32 = .error .reservedCop0 ∧
    decode 0x42000001#32 = .error .reservedCop0 := by decide

/-- Too few bytes are rejected by name. -/
theorem test_decode_truncated : decodeBytes [0x13#8, 0x00#8, 0x08#8] = .error .truncated := by decide

/-- W1: the image's first bytes `13 00 08 3C` are one LUI; a byte list keeps what follows. -/
theorem test_decode_bytes :
    decodeBytes [0x13#8, 0x00#8, 0x08#8, 0x3C#8, 0xAA#8] = .ok (.lui 8 0x0013#16, [0xAA#8]) := by decide

/-- The host's question, with the table's numbering of bits. -/
theorem test_decodeTableWord :
    decodeTableWord 32 0x00221820 = some (.add 3 1 2) ∧ decodeTableWord 32 0x0000000F = none := by decide

/-! ### One step: the start state of spec/95_test_vectors.md -/

/-- The start state of Parts 1 and 2: `pc` = 0x80001000, SR = 0, RAM bytes 0x100..0x107 = 11 22 33 44 55 66 77 88. -/
def base : State :=
  { State.reset with
    sr := 0#32, pc := 0x80001000#32, npc := 0x80001004#32
    mem := [(0x100, 0x11#8), (0x101, 0x22#8), (0x102, 0x33#8), (0x103, 0x44#8), (0x104, 0x55#8), (0x105, 0x66#8),
      (0x106, 0x77#8), (0x107, 0x88#8)] }

/-- A register given a value. -/
def put (s : State) (r : Reg) (v : Word) : State := { s with regs := s.regs.set r v }

/-- x1 and x2 given. -/
def with12 (a b : Word) : State := put (put base 1 a) 2 b

/-- The start state of the load and store rows: x1 = 0x80000100. -/
def memBase (b : Word) : State := with12 0x80000100#32 b

/-- HI and LO as in V2. -/
def hiLoBase (a b : Word) : State := { with12 a b with hi := 0x11111111#32, lo := 0x22222222#32 }

/-- The step that runs the word. -/
def run (s : State) (w : Nat) : Result := step (s.withFetchWord 32 w)

/-- The state after it; a stop would show as `refused`. -/
def after (s : State) (w : Nat) : State :=
  match run s w with
  | .next t => t
  | .fault _ => { s with refused := true }
  | .refused _ => { s with refused := true }

/-- The answer is a next state. -/
def isNext : Result → Bool
  | .next _ => true
  | .fault _ => false
  | .refused _ => false

/-- The answer is this refusal. -/
def isRefused (r : Refusal) : Result → Bool
  | .next _ => false
  | .fault _ => false
  | .refused x => x = r

theorem exists_next {r : Result} (h : isNext r = true) : ∃ t, r = .next t := by
  cases r with
  | next t => exact ⟨t, rfl⟩
  | fault f => cases h
  | refused x => cases h

theorem eq_refused {r : Result} {x : Refusal} (h : isRefused x r = true) : r = .refused x := by
  cases r with
  | next t => cases h
  | fault f => cases h
  | refused y => rw [of_decide_eq_true h]

/-- The four bytes of RAM at 0x100. -/
def bytes100 (s : State) : List Byte := [s.mem.read 0x100, s.mem.read 0x101, s.mem.read 0x102, s.mem.read 0x103]

/-! #### ALU (V1) -/

/-- V1.1: the trap, and x3 unchanged. -/
theorem test_add_overflow :
    (after (with12 0x7FFFFFFF#32 0x00000001#32) 0x00221820).cause = 0x00000030#32 ∧ (after (with12 0x7FFFFFFF#32 0x00000001#32) 0x00221820).pc = 0x80000080#32 ∧ (after (with12 0x7FFFFFFF#32 0x00000001#32) 0x00221820).epc = 0x80001000#32 ∧ (after (with12 0x7FFFFFFF#32 0x00000001#32) 0x00221820).reg 3 = 0xDEADBEEF#32 := by decide

/-- V1.3. -/
theorem test_add_wraps_through_zero :
    (after (with12 0xFFFFFFFF#32 0x00000001#32) 0x00221820).reg 3 = 0x00000000#32 := by decide

/-- V1.6. -/
theorem test_addu :
    (after (with12 0x7FFFFFFF#32 0x00000001#32) 0x00221821).reg 3 = 0x80000000#32 := by decide

/-- V1.8. -/
theorem test_sub_overflow :
    (after (with12 0x00000000#32 0x80000000#32) 0x00221822).cause = 0x00000030#32 ∧ (after (with12 0x00000000#32 0x80000000#32) 0x00221822).pc = 0x80000080#32 ∧ (after (with12 0x00000000#32 0x80000000#32) 0x00221822).epc = 0x80001000#32 ∧ (after (with12 0x00000000#32 0x80000000#32) 0x00221822).reg 3 = 0xDEADBEEF#32 := by decide

/-- V1.9. -/
theorem test_sub :
    (after (with12 0xFFFFFFFF#32 0x7FFFFFFF#32) 0x00221822).reg 3 = 0x80000000#32 := by decide

/-- V1.10. -/
theorem test_subu :
    (after (with12 0x80000000#32 0x00000001#32) 0x00221823).reg 3 = 0x7FFFFFFF#32 := by decide

/-- V1.11. -/
theorem test_and :
    (after (with12 0xF0F0F0F0#32 0x0FF00FF0#32) 0x00221824).reg 3 = 0x00F000F0#32 := by decide

/-- V1.12. -/
theorem test_or :
    (after (with12 0xF0F0F0F0#32 0x0FF00FF0#32) 0x00221825).reg 3 = 0xFFF0FFF0#32 := by decide

/-- V1.13. -/
theorem test_xor :
    (after (with12 0xF0F0F0F0#32 0x0FF00FF0#32) 0x00221826).reg 3 = 0xFF00FF00#32 := by decide

/-- R158, its example. -/
theorem test_nor :
    (after (with12 0xF0F0F0F0#32 0x0FF00FF0#32) 0x00221827).reg 3 = 0x000F000F#32 := by decide

/-- V1.15. -/
theorem test_slt :
    (after (with12 0x80000000#32 0x7FFFFFFF#32) 0x0022182A).reg 3 = 0x00000001#32 := by decide

/-- V1.16. -/
theorem test_sltu :
    (after (with12 0x80000000#32 0x7FFFFFFF#32) 0x0022182B).reg 3 = 0x00000000#32 := by decide

/-- V1.19. -/
theorem test_sll :
    (after (with12 0x00000000#32 0x00000001#32) 0x00021FC0).reg 3 = 0x80000000#32 := by decide

/-- V1.20. -/
theorem test_srl :
    (after (with12 0x00000000#32 0x80000001#32) 0x00021802).reg 3 = 0x80000001#32 := by decide

/-- V1.22. -/
theorem test_sra :
    (after (with12 0x00000000#32 0x80000000#32) 0x00021FC3).reg 3 = 0xFFFFFFFF#32 := by decide

/-- V1.23. -/
theorem test_sllv_amount_32 :
    (after (with12 0x00000020#32 0x12345678#32) 0x00221804).reg 3 = 0x12345678#32 := by decide

/-- V1.24. -/
theorem test_srlv :
    (after (with12 0xFFFFFFE1#32 0x80000000#32) 0x00221806).reg 3 = 0x40000000#32 := by decide

/-- V1.25. -/
theorem test_srav :
    (after (with12 0xFFFFFFFF#32 0x80000000#32) 0x00221807).reg 3 = 0xFFFFFFFF#32 := by decide

/-- V1.27. -/
theorem test_addi_overflow :
    (after (with12 0x80000000#32 0x00000000#32) 0x2022FFFF).cause = 0x00000030#32 ∧ (after (with12 0x80000000#32 0x00000000#32) 0x2022FFFF).reg 2 = 0x00000000#32 := by decide

/-- V1.28. -/
theorem test_addiu :
    (after (with12 0x80000000#32 0x00000000#32) 0x2422FFFF).reg 2 = 0x7FFFFFFF#32 := by decide

/-- V1.29. -/
theorem test_slti_equal :
    (after (with12 0xFFFF8000#32 0x00000007#32) 0x28228000).reg 2 = 0x00000000#32 := by decide

/-- V1.30. -/
theorem test_sltiu_sign_extends :
    (after (with12 0xFFFF7FFF#32 0x00000000#32) 0x2C228000).reg 2 = 0x00000001#32 := by decide

/-- V1.33. -/
theorem test_andi_zero_extends :
    (after (with12 0xFFFFFFFF#32 0x00000000#32) 0x30228000).reg 2 = 0x00008000#32 := by decide

/-- V1.34. -/
theorem test_ori :
    (after (with12 0x00000000#32 0x00000000#32) 0x3402FFFF).reg 2 = 0x0000FFFF#32 := by decide

/-- V1.35. -/
theorem test_xori :
    (after (with12 0x00000000#32 0x00000000#32) 0x38228000).reg 2 = 0x00008000#32 := by decide

/-- V1.37. -/
theorem test_lui_ignores_rs :
    (after (with12 0x00000000#32 0x00000000#32) 0x3CA21234).reg 2 = 0x12340000#32 := by decide

/-- V1.39. -/
theorem test_register_zero_discards :
    (after (with12 0x00000005#32 0x00000006#32) 0x00220021).reg 0 = 0x00000000#32 := by decide

/-- V1.38. -/
theorem test_sources_read_first :
    (after (with12 0x80000001#32 0x00000000#32) 0x00210821).reg 1 = 0x00000002#32 := by decide

/-! #### Multiply and divide (V2) -/

/-- V2.3. -/
theorem test_mult :
    (after (hiLoBase 0x7FFFFFFF#32 0x80000000#32) 0x00220018).hi = 0xC0000000#32 ∧ (after (hiLoBase 0x7FFFFFFF#32 0x80000000#32) 0x00220018).lo = 0x80000000#32 := by decide

/-- V2.5. -/
theorem test_multu :
    (after (hiLoBase 0xFFFFFFFF#32 0xFFFFFFFF#32) 0x00220019).hi = 0xFFFFFFFE#32 ∧ (after (hiLoBase 0xFFFFFFFF#32 0xFFFFFFFF#32) 0x00220019).lo = 0x00000001#32 := by decide

/-- V2.8. -/
theorem test_div_truncates :
    (after (hiLoBase 0xFFFFFFF9#32 0x00000002#32) 0x0022001A).hi = 0xFFFFFFFF#32 ∧ (after (hiLoBase 0xFFFFFFF9#32 0x00000002#32) 0x0022001A).lo = 0xFFFFFFFD#32 := by decide

/-- V2.12. -/
theorem test_div_by_zero_negative :
    (after (hiLoBase 0xFFFFFFFB#32 0x00000000#32) 0x0020001A).hi = 0xFFFFFFFB#32 ∧ (after (hiLoBase 0xFFFFFFFB#32 0x00000000#32) 0x0020001A).lo = 0x00000001#32 := by decide

/-- V2.16. -/
theorem test_divu :
    (after (hiLoBase 0x80000000#32 0xFFFFFFFF#32) 0x0022001B).hi = 0x80000000#32 ∧ (after (hiLoBase 0x80000000#32 0xFFFFFFFF#32) 0x0022001B).lo = 0x00000000#32 := by decide

/-- V2.15. -/
theorem test_divu_by_zero :
    (after (hiLoBase 0x00000005#32 0x00000000#32) 0x0020001B).hi = 0x00000005#32 ∧ (after (hiLoBase 0x00000005#32 0x00000000#32) 0x0020001B).lo = 0xFFFFFFFF#32 := by decide

/-- V2.20. -/
theorem test_mfhi :
    (after (hiLoBase 0#32 0#32) 0x00001810).reg 3 = 0x11111111#32 := by decide

/-- V2.20. -/
theorem test_mflo :
    (after (hiLoBase 0#32 0#32) 0x00002012).reg 4 = 0x22222222#32 := by decide

/-- V2.18. -/
theorem test_mthi :
    (after (hiLoBase 0xCAFEF00D#32 0x00000000#32) 0x00200011).hi = 0xCAFEF00D#32 ∧ (after (hiLoBase 0xCAFEF00D#32 0x00000000#32) 0x00200011).lo = 0x22222222#32 := by decide

/-- V2.19. -/
theorem test_mtlo :
    (after (hiLoBase 0xCAFEF00D#32 0x00000000#32) 0x00200013).hi = 0x11111111#32 ∧ (after (hiLoBase 0xCAFEF00D#32 0x00000000#32) 0x00200013).lo = 0xCAFEF00D#32 := by decide

/-! #### Branches and jumps (V3) -/

/-- V3.2. -/
theorem test_beq_not_taken :
    (after (with12 0x00000001#32 0x00000002#32) 0x10220001).npc = 0x80001008#32 ∧ (after (with12 0x00000001#32 0x00000002#32) 0x10220001).brFlag = true ∧ (after (with12 0x00000001#32 0x00000002#32) 0x10220001).tkFlag = false := by decide

/-- V3.1. -/
theorem test_beq_taken_backwards :
    (after (with12 0x00000000#32 0x00000000#32) 0x1000FFFF).npc = 0x80001000#32 ∧ (after (with12 0x00000000#32 0x00000000#32) 0x1000FFFF).brFlag = true ∧ (after (with12 0x00000000#32 0x00000000#32) 0x1000FFFF).tkFlag = true := by decide

/-- V3.4. -/
theorem test_bne_farthest :
    (after (with12 0x00000001#32 0x00000002#32) 0x14228000).npc = 0x7FFE1004#32 ∧ (after (with12 0x00000001#32 0x00000002#32) 0x14228000).brFlag = true ∧ (after (with12 0x00000001#32 0x00000002#32) 0x14228000).tkFlag = true := by decide

/-- V3.5. -/
theorem test_blez :
    (after (with12 0x80000000#32 0x00000000#32) 0x18200002).npc = 0x8000100C#32 ∧ (after (with12 0x80000000#32 0x00000000#32) 0x18200002).brFlag = true ∧ (after (with12 0x80000000#32 0x00000000#32) 0x18200002).tkFlag = true := by decide

/-- V3.7. -/
theorem test_bgtz_zero :
    (after (with12 0x00000000#32 0x00000000#32) 0x1C200002).npc = 0x80001008#32 ∧ (after (with12 0x00000000#32 0x00000000#32) 0x1C200002).brFlag = true ∧ (after (with12 0x00000000#32 0x00000000#32) 0x1C200002).tkFlag = false := by decide

/-- V3.8. -/
theorem test_bltz_zero :
    (after (with12 0x00000000#32 0x00000000#32) 0x04200002).npc = 0x80001008#32 ∧ (after (with12 0x00000000#32 0x00000000#32) 0x04200002).brFlag = true ∧ (after (with12 0x00000000#32 0x00000000#32) 0x04200002).tkFlag = false := by decide

/-- V3.9. -/
theorem test_bgez_negative :
    (after (with12 0x80000000#32 0x00000000#32) 0x04210002).npc = 0x80001008#32 ∧ (after (with12 0x80000000#32 0x00000000#32) 0x04210002).brFlag = true ∧ (after (with12 0x80000000#32 0x00000000#32) 0x04210002).tkFlag = false := by decide

/-- V3.10. -/
theorem test_bltzal_links_untaken :
    (after (with12 0x00000001#32 0x00000000#32) 0x04300002).npc = 0x80001008#32 ∧ (after (with12 0x00000001#32 0x00000000#32) 0x04300002).brFlag = true ∧ (after (with12 0x00000001#32 0x00000000#32) 0x04300002).tkFlag = false ∧ (after (with12 0x00000001#32 0x00000000#32) 0x04300002).reg 31 = 0x80001008#32 := by decide

/-- V3.11: the condition reads x31 before the link is written. -/
theorem test_bgezal_old_link :
    (after (put base 31 0x80000000#32) 0x07F10002).npc = 0x80001008#32 ∧ (after (put base 31 0x80000000#32) 0x07F10002).reg 31 = 0x80001008#32 := by decide

/-- V3.15, W5 as corrected by 90_conflicts.md C1. -/
theorem test_j_keeps_top_bits :
    (after ({ base with pc := 0x80010000#32, npc := 0x80010004#32 } : State) 0x08000004).npc = 0x80000010#32 := by decide

/-- V3.17. -/
theorem test_jal :
    (after ({ base with pc := 0xBFC00100#32, npc := 0xBFC00104#32 } : State) 0x0C000004).npc = 0xB0000010#32 ∧ (after ({ base with pc := 0xBFC00100#32, npc := 0xBFC00104#32 } : State) 0x0C000004).reg 31 = 0xBFC00108#32 := by decide

/-- V3.19. -/
theorem test_jr :
    (after (put base 31 0x80001234#32) 0x03E00008).npc = 0x80001234#32 := by decide

/-- V3.23: the old value is the target. -/
theorem test_jalr_same_register :
    (after (put base 31 0x80000040#32) 0x03E0F809).npc = 0x80000040#32 ∧ (after (put base 31 0x80000040#32) 0x03E0F809).reg 31 = 0x80001008#32 := by decide

/-- V3.24: a branch in a delay slot. -/
theorem test_branch_in_delay_slot :
    isRefused .branchInDelaySlot (run { base with brFlag := true } 0x10000004) = true := by decide

/-! #### Loads and stores (V4) -/

/-- R241: sign extension of `0x80`. -/
theorem test_lb :
    (after ({ memBase 0#32 with mem := [(0x100, 0x80#8)] } : State) 0x80220000).ld0 = some (2, 0xFFFFFF80#32) := by decide

/-- R242. -/
theorem test_lbu :
    (after (memBase 0x00000055#32) 0x90220007).ld0 = some (2, 0x00000088#32) ∧ (after (memBase 0x00000055#32) 0x90220007).reg 2 = 0x00000055#32 := by decide

/-- R243. -/
theorem test_lh :
    (after (memBase 0x00000055#32) 0x84220006).ld0 = some (2, 0xFFFF8877#32) ∧ (after (memBase 0x00000055#32) 0x84220006).reg 2 = 0x00000055#32 := by decide

/-- R244. -/
theorem test_lhu :
    (after (memBase 0x00000055#32) 0x94220006).ld0 = some (2, 0x00008877#32) ∧ (after (memBase 0x00000055#32) 0x94220006).reg 2 = 0x00000055#32 := by decide

/-- W3. -/
theorem test_lw :
    (after (memBase 0x00000055#32) 0x8C220000).ld0 = some (2, 0x44332211#32) ∧ (after (memBase 0x00000055#32) 0x8C220000).reg 2 = 0x00000055#32 := by decide

/-- R245. -/
theorem test_lw_misaligned :
    (after (memBase 0x00000055#32) 0x8C220001).badv = 0x80000101#32 ∧ (after (memBase 0x00000055#32) 0x8C220001).cause = 0x00000010#32 ∧ (after (memBase 0x00000055#32) 0x8C220001).ld0 = none := by decide

/-- V4.14. -/
theorem test_lwl :
    (after (memBase 0xAABBCCDD#32) 0x88220005).ld0 = some (2, 0x6655CCDD#32) ∧ (after (memBase 0xAABBCCDD#32) 0x88220005).reg 2 = 0xAABBCCDD#32 := by decide

/-- V4.19. -/
theorem test_lwr :
    (after (memBase 0xAABBCCDD#32) 0x98220006).ld0 = some (2, 0xAABB8877#32) ∧ (after (memBase 0xAABBCCDD#32) 0x98220006).reg 2 = 0xAABBCCDD#32 := by decide

/-- V4.21, step 2: the value pending in slot 0 is merged, while x3 itself takes it. -/
theorem test_lwl_merges_pending :
    (after ({ memBase 0#32 with ld0 := some (3, 0xDE443322#32) } : State) 0x88230004).ld0 = some (3, 0x55443322#32) ∧ (after ({ memBase 0#32 with ld0 := some (3, 0xDE443322#32) } : State) 0x88230004).reg 3 = 0xDE443322#32 := by decide

/-- W10. -/
theorem test_lw_unmapped :
    (after (with12 0x1F801070#32 0x00000005#32) 0x8C220000).badv = 0x1F801070#32 ∧ (after (with12 0x1F801070#32 0x00000005#32) 0x8C220000).cause = 0x00000010#32 ∧ (after (with12 0x1F801070#32 0x00000005#32) 0x8C220000).pc = 0x80000080#32 := by decide

/-- W12. -/
theorem test_lw_stub :
    (after (with12 0x1F801C00#32 0x00000005#32) 0x8C220000).ld0 = some (2, 0xFFFFFFFF#32) := by decide

/-- V4.22. -/
theorem test_sb :
    bytes100 (after (memBase 0x12345678#32) 0xA0220000) = [0x78#8, 0x22#8, 0x33#8, 0x44#8] := by decide

/-- V4.23. -/
theorem test_sh :
    bytes100 (after (memBase 0x12345678#32) 0xA4220002) = [0x11#8, 0x22#8, 0x78#8, 0x56#8] := by decide

/-- V4.24. -/
theorem test_sh_misaligned :
    (after (memBase 0x00000000#32) 0xA4220001).badv = 0x80000101#32 ∧ (after (memBase 0x00000000#32) 0xA4220001).cause = 0x00000014#32 := by decide

/-- V4.25, at 0x100. -/
theorem test_sw :
    bytes100 (after (memBase 0x12345678#32) 0xAC220000) = [0x78#8, 0x56#8, 0x34#8, 0x12#8] := by decide

/-- V4.26: alignment comes before the gate. -/
theorem test_sw_misaligned_isolated :
    (after ({ memBase 0#32 with sr := 0x00010000#32 } : State) 0xAC220002).badv = 0x80000102#32 ∧ (after ({ memBase 0#32 with sr := 0x00010000#32 } : State) 0xAC220002).cause = 0x00000014#32 := by decide

/-- V4.27: discarded while the cache is isolated. -/
theorem test_sw_isolated :
    bytes100 (after { memBase 0xFFFFFFFF#32 with sr := 0x00010000#32 } 0xAC220000) = [0x11#8, 0x22#8, 0x33#8, 0x44#8] ∧
    (after { memBase 0xFFFFFFFF#32 with sr := 0x00010000#32 } 0xAC220000).diag = [] := by decide

/-- V4.28. -/
theorem test_sw_unmapped_diagnostic :
    (after (with12 0x1F801070#32 0x12345678#32) 0xAC220000).diag = [⟨0x1F801070#32, 4, 0x12345678#32⟩] ∧ (after (with12 0x1F801070#32 0x12345678#32) 0xAC220000).npc = 0x80001008#32 := by decide

/-- V4.30. -/
theorem test_sw_ccr :
    (after (with12 0xFFFE0000#32 0x12345678#32) 0xAC220130).ccr = 0x12345678#32 := by decide

/-- V4.32. -/
theorem test_swl :
    bytes100 (after (memBase 0xAABBCCDD#32) 0xA8220001) = [0xBB#8, 0xAA#8, 0x33#8, 0x44#8] := by decide

/-- V4.36. -/
theorem test_swr :
    bytes100 (after (memBase 0xAABBCCDD#32) 0xB8220001) = [0x11#8, 0xDD#8, 0xCC#8, 0xBB#8] := by decide

/-! #### System and coprocessor instructions (V5) -/

/-- V5.1. -/
theorem test_syscall :
    (after ({ base with sr := 0x0000003C#32 } : State) 0x0000000C).epc = 0x80001000#32 ∧ (after ({ base with sr := 0x0000003C#32 } : State) 0x0000000C).cause = 0x00000020#32 ∧ (after ({ base with sr := 0x0000003C#32 } : State) 0x0000000C).sr = 0x00000030#32 ∧ (after ({ base with sr := 0x0000003C#32 } : State) 0x0000000C).pc = 0x80000080#32 := by decide

/-- V5.3. -/
theorem test_syscall_bev :
    (after ({ base with sr := 0x00400000#32 } : State) 0x0000000C).pc = 0xBFC00180#32 ∧ (after ({ base with sr := 0x00400000#32 } : State) 0x0000000C).npc = 0xBFC00184#32 ∧ (after ({ base with sr := 0x00400000#32 } : State) 0x0000000C).sr = 0x00400000#32 := by decide

/-- W6, its second step: BD without BT. -/
theorem test_break :
    (after ({ base with sr := 0x00000001#32, brFlag := true, pc := 0x80001004#32 } : State) 0x0000000D).epc = 0x80001000#32 ∧ (after ({ base with sr := 0x00000001#32, brFlag := true, pc := 0x80001004#32 } : State) 0x0000000D).cause = 0x80000024#32 ∧ (after ({ base with sr := 0x00000001#32, brFlag := true, pc := 0x80001004#32 } : State) 0x0000000D).sr = 0x00000004#32 := by decide

/-- V5.9. -/
theorem test_mfc0 :
    (after ({ base with cause := 0x80000024#32 } : State) 0x40086800).ld0 = some (8, 0x80000024#32) := by decide

/-- V5.13. -/
theorem test_mfc0_absent :
    (after base 0x40087800).cause = 0x00000028#32 ∧ (after base 0x40087800).ld0 = none := by decide

/-- V5.7: user mode with CU0. -/
theorem test_mtc0_status :
    (after ({ put base 8 0x10000003#32 with sr := 0x10000002#32 } : State) 0x40886000).sr = 0x10000003#32 := by decide

/-- V5.16, with no line high the sample clears bits 15:10. -/
theorem test_mtc0_cause :
    (after ({ put base 8 0#32 with cause := 0xB000032C#32 } : State) 0x40886800).cause = 0xB000002C#32 := by decide

/-- V5.18. -/
theorem test_rfe :
    (after ({ base with sr := 0x00400025#32 } : State) 0x42000010).sr = 0x00400029#32 := by decide

/-- V5.20. -/
theorem test_rfe_user :
    (after ({ base with sr := 0x0000000E#32 } : State) 0x42000010).cause = 0x0000002C#32 ∧ (after ({ base with sr := 0x0000000E#32 } : State) 0x42000010).sr = 0x00000038#32 := by decide

/-- V5.24. -/
theorem test_cop1_unusable :
    (after base 0x44000000).cause = 0x1000002C#32 := by decide

/-- V5.25. -/
theorem test_cop1_usable :
    (after ({ base with sr := 0x20000000#32 } : State) 0x44000000).cause = 0x00000028#32 := by decide

/-- V5.26. -/
theorem test_cop2_unusable :
    (after base 0x48000000).cause = 0x2000002C#32 := by decide

/-- V5.27: the spec itself refuses coprocessor 2 while CU2 = 1. -/
theorem test_cop2_present : isRefused .cop2Present (run { base with sr := 0x40000000#32 } 0x4A000001) = true := by decide

/-- V5.28. -/
theorem test_cop3_user :
    (after ({ base with sr := 0x00000002#32 } : State) 0x4C000000).cause = 0x3000002C#32 ∧ (after ({ base with sr := 0x00000002#32 } : State) 0x4C000000).sr = 0x00000008#32 := by decide

/-- R284, kernel mode. -/
theorem test_lwc0 :
    (after base 0xC0000000).cause = 0x00000028#32 := by decide

/-- R285, CU1 = 0. -/
theorem test_lwc1 :
    (after base 0xC4000000).cause = 0x1000002C#32 := by decide

/-- R286, CU2 = 0. -/
theorem test_lwc2 :
    (after base 0xC8000000).cause = 0x2000002C#32 := by decide

/-- R285, CU3 = 0. -/
theorem test_lwc3 :
    (after base 0xCC000000).cause = 0x3000002C#32 := by decide

/-- R284, kernel mode. -/
theorem test_swc0 :
    (after base 0xE0000000).cause = 0x00000028#32 := by decide

/-- R285, CU1 = 0. -/
theorem test_swc1 :
    (after base 0xE4000000).cause = 0x1000002C#32 := by decide

/-- R286, CU2 = 0. -/
theorem test_swc2 :
    (after base 0xE8000000).cause = 0x2000002C#32 := by decide

/-- R285, CU3 = 0. -/
theorem test_swc3 :
    (after base 0xEC000000).cause = 0x3000002C#32 := by decide

/-! #### The pipeline and the exceptions -/

/-- W1: the first step from reset with the boot word placed; the word runs as the first instruction after reset. -/
theorem test_first_instruction_after_reset :
    (after State.reset 0x3C080013).reg 8 = 0x00130000#32 ∧ (after State.reset 0x3C080013).pc = 0xBFC00004#32 ∧
    (after State.reset 0x3C080013).npc = 0xBFC00008#32 := by decide

/-- W3: a load's value is in its register after the next step, whose own reads do not see it. -/
theorem test_load_delay :
    (after { memBase 0x55#32 with ld0 := some (2, 0x44332211#32) } 0x00401821).reg 3 = 0x55#32 ∧
    (after { memBase 0x55#32 with ld0 := some (2, 0x44332211#32) } 0x00401821).reg 2 = 0x44332211#32 := by decide

/-- W4: a synchronous write cancels the pending load. -/
theorem test_cancellation :
    (after { memBase 0x55#32 with ld0 := some (2, 0x44332211#32) } 0x24020009).reg 2 = 9#32 ∧
    (after { memBase 0x55#32 with ld0 := some (2, 0x44332211#32) } 0x24020009).ld0 = none := by decide

/-- V1.5: an exception in the delay slot of a taken branch. -/
theorem test_exception_in_delay_slot :
    (after { with12 0x7FFFFFFF#32 1#32 with brFlag := true, tkFlag := true } 0x00221820).epc = 0x80000FFC#32 ∧
    (after { with12 0x7FFFFFFF#32 1#32 with brFlag := true, tkFlag := true } 0x00221820).cause = 0xC0000030#32 := by decide

/-- R62: a hardware line with its mask bit and IEc takes the interrupt before the fetched word. -/
theorem test_interrupt :
    (after { base with sr := 0x00000401#32, intIn := 0b000001#6 } 0x24030007).cause = 0x00000400#32 ∧
    (after { base with sr := 0x00000401#32, intIn := 0b000001#6 } 0x24030007).epc = 0x80001000#32 ∧
    (after { base with sr := 0x00000401#32, intIn := 0b000001#6 } 0x24030007).reg 3 = 0xDEADBEEF#32 := by decide

/-- V3.20: a fetch from a misaligned address. -/
theorem test_misaligned_fetch :
    (after { base with pc := 0x80001002#32 } 0).badv = 0x80001002#32 ∧
    (after { base with pc := 0x80001002#32 } 0).cause = 0x10#32 := by decide

/-- A reserved word (R133). -/
theorem test_reserved_word : (after base 0x0000000F).cause = 0x28#32 := by decide

/-- A refused run has no further step (00_scope.md R19). -/
theorem test_refused_run : step { base with refused := true } = .fault .refusedRun := by rfl

/-- The reset state of R340. -/
theorem test_reset :
    State.reset.pc = 0xBFC00000#32 ∧ State.reset.npc = 0xBFC00004#32 ∧ State.reset.sr = 0x00400000#32 ∧
    State.reset.cause = 0#32 ∧ State.reset.reg 0 = 0#32 ∧ State.reset.mem.wf = true := by decide

/-! ### Witnesses: the hypotheses of each statement are met -/

/-! #### States -/

/-- User mode, CU0 = 0. -/
def user : State := { base with sr := 0x00000002#32 }

/-- A state with the word at its `pc`. -/
def placed (s : State) (w : Nat) : State := s.withFetchWord 32 w

/-- The state satisfies the invariant (the premise of `InvariantKeptByStep`). -/
theorem witness_inv : base.Inv where
  zeroSlot := by decide
  memCanonical := by decide
  memInMap := by decide
  slot1Empty := by decide
  sequential := by decide
  takenIsBranch := by decide
  causeReserved := fun n _ => by simp [base, State.reset, State.resetOf]
  legalCode := by decide
  takenInDelay := by decide
  notRefused := by decide

/-! #### Encoding -/

theorem witness_DecoderFollowsOpcodeTable :
    decode 0x00221820#32 = .ok (.add 3 1 2) ∧ (Instr.add 0 0 0).row ∈ opcodeTable ∧
    (Instr.add 0 0 0).row.claims 0x00221820#32 = true := by decide

theorem witness_SpecialWordsDecode :
    (0x3F#6) ∉ [0x00#6, 0x02#6, 0x03#6, 0x04#6, 0x06#6, 0x07#6, 0x08#6, 0x09#6, 0x0C#6, 0x0D#6, 0x10#6, 0x11#6, 0x12#6, 0x13#6] ∧
    (0x3F#6) ∉ [0x18#6, 0x19#6, 0x1A#6, 0x1B#6, 0x20#6, 0x21#6, 0x22#6, 0x23#6, 0x24#6, 0x25#6, 0x26#6, 0x27#6, 0x2A#6, 0x2B#6] := by decide

/-- The first, an inner and the last reserved primary slot. -/
theorem witness_PrimaryWordsDecode :
    ∀ op ∈ [0x14#6, 0x27#6, 0x3F#6], op ∈ [0x14#6, 0x15#6, 0x16#6, 0x17#6, 0x18#6, 0x19#6, 0x1A#6, 0x1B#6, 0x1C#6, 0x1D#6,
      0x1E#6, 0x1F#6, 0x27#6, 0x2C#6, 0x2D#6, 0x2F#6, 0x34#6, 0x35#6, 0x36#6, 0x37#6, 0x3C#6, 0x3D#6, 0x3E#6, 0x3F#6] := by
  decide

/-- Reserved REGIMM, COP0 `funct` and COP0 `rs` values at the ends of their ranges, and a state in which COP0 is not usable. -/
theorem witness_RegimmAndCop0WordsDecode :
    (∀ rt ∈ ([2, 15, 18, 31] : List Reg), rt ≠ 0 ∧ rt ≠ 1 ∧ rt ≠ 16 ∧ rt ≠ 17) ∧ (0x0F#6) ≠ 0x10#6 ∧ (0x11#6) ≠ 0x10#6 ∧
    (∀ rs ∈ ([1, 3, 5, 15, 17, 31] : List Reg), rs ≠ 0 ∧ rs ≠ 4 ∧ rs ≠ 16) ∧ ¬ user.Cop0Open := by decide

/-! #### Construction and the step -/

theorem witness_ConstructionState :
    Config.draws.gprInit ≠ 0#32 ∧ Memory.wf ([] : Memory) = true ∧ ([] : List Byte).length ≠ 524288 ∧
    (List.replicate 524288 (0x13#8)).length = 524288 := by
  refine ⟨by decide, by decide, by decide, List.length_replicate⟩

theorem witness_BootFetchesFirstImageWord :
    ∃ s, Memory.wf ([] : Memory) = true ∧ construct Config.draws [] (List.replicate 524288 (0x13#8)) = some s := by
  refine ⟨State.resetOf Config.draws (Memory.load [] romBase (List.replicate 524288 (0x13#8))), by decide, ?_⟩
  unfold construct
  exact if_pos List.length_replicate

/-- The first word of an image that begins with `13 00 08 3C`, whatever follows. -/
theorem first_word_of_scenario (rest rom : List Byte) (hr : rom = 0x13#8 :: 0x00#8 :: 0x08#8 :: 0x3C#8 :: rest)
    (h : rom.length = 524288) : rom[3] ++ rom[2] ++ rom[1] ++ rom[0] = 0x3C080013#32 := by
  subst hr
  simp only [List.getElem_cons_succ, List.getElem_cons_zero]
  decide

/-- The scenario clause of `BootFetchesFirstImageWord`: an image whose first four bytes are `13 00 08 3C`. -/
theorem witness_BootScenario :
    let rom : List Byte := [0x13#8, 0x00#8, 0x08#8, 0x3C#8] ++ List.replicate 524284 0x00#8
    (∃ s, construct Config.draws [] rom = some s) ∧
    ∃ h : rom.length = 524288, rom[3] ++ rom[2] ++ rom[1] ++ rom[0] = 0x3C080013#32 := by
  have h : ([0x13#8, 0x00#8, 0x08#8, 0x3C#8] ++ List.replicate 524284 0x00#8 : List Byte).length = 524288 := by
    rw [List.length_append, List.length_replicate]; rfl
  refine ⟨⟨State.resetOf Config.draws
    (Memory.load [] romBase ([0x13#8, 0x00#8, 0x08#8, 0x3C#8] ++ List.replicate 524284 0x00#8)), ?_⟩, h, ?_⟩
  · unfold construct
    exact if_pos h
  · exact first_word_of_scenario _ _ rfl h

/-- A next state, and both refusals. -/
theorem witness_StepRunsDecodedInstruction :
    (∀ s ∈ [placed base 0x00221821, placed { base with brFlag := true } 0x10000004,
        placed { base with sr := 0x40000000#32 } 0x48000000],
      s.refused = false ∧ ¬ s.InterruptDue ∧ s.pc.extractLsb' 0 2 = 0#2) ∧
    ((placed base 0x00221821).memRead .word base.pc = some 0x00221821#32 ∧ decode 0x00221821#32 = .ok (.addu 3 1 2)) ∧
    (placed { base with brFlag := true } 0x10000004).memRead .word base.pc = some 0x10000004#32 ∧
    decode 0x10000004#32 = .ok (.beq 0 0 4#16) ∧
    (placed { base with sr := 0x40000000#32 } 0x48000000).memRead .word base.pc = some 0x48000000#32 ∧
    decode 0x48000000#32 = .ok .cop2 := by decide

/-- A reserved SPECIAL word, and a reserved COP0 word in kernel and in user mode. -/
theorem witness_StepTrapsOnReservedWord :
    (∀ s ∈ [placed base 0x0000000F, placed base 0x42000001, placed user 0x42000001],
      s.refused = false ∧ ¬ s.InterruptDue ∧ s.pc.extractLsb' 0 2 = 0#2) ∧
    (placed base 0x0000000F).memRead .word base.pc = some 0x0000000F#32 ∧ decode 0x0000000F#32 = .error .reservedFunct ∧
    (placed base 0x42000001).memRead .word base.pc = some 0x42000001#32 ∧ decode 0x42000001#32 = .error .reservedCop0 ∧
    (placed base 0x42000001).Cop0Open ∧
    (placed user 0x42000001).memRead .word user.pc = some 0x42000001#32 ∧ ¬ (placed user 0x42000001).Cop0Open := by decide

/-- A hardware line and a software bit. -/
theorem witness_StepTakesInterrupt :
    ({ base with sr := 0x00000401#32, intIn := 0b000001#6 } : State).InterruptDue ∧
    ({ base with sr := 0x00000101#32, cause := 0x00000100#32 } : State).InterruptDue ∧ base.refused = false := by decide

/-- A misaligned `pc`, and the first unmapped address after RAM. -/
theorem witness_StepTrapsOnFetchError :
    base.refused = false ∧ ¬ base.InterruptDue ∧ (0x80001002#32).extractLsb' 0 2 ≠ 0#2 ∧ unmappedAddress 0x80200000#32 ∧
    (0x80200000#32).extractLsb' 0 2 = 0#2 := by decide

theorem witness_StepEndsOnlyByListedRefusals :
    base.refused = false ∧ ({ base with refused := true } : State).refused = true ∧
    isRefused .branchInDelaySlot (run { base with brFlag := true } 0x10000004) = true := by decide

/-- The last word of RAM, the reset vector, the cache-control register. -/
theorem witness_PlacedWordIsFetched :
    base.mem.wf = true ∧
    ((0x801FFFFC#32).extractLsb' 0 2 = 0#2 ∧ ramAddress 0x801FFFFC#32) ∧
    ((0xBFC00000#32).extractLsb' 0 2 = 0#2 ∧ romAddress 0xBFC00000#32) ∧
    ((0xFFFE0130#32).extractLsb' 0 2 = 0#2 ∧ ccrAddress 0xFFFE0130#32) := by
  refine ⟨by decide, by decide, by decide, by decide⟩

theorem witness_InvariantKeptByStep : ∃ s t : State, s.Inv ∧ step s = .next t := by
  obtain ⟨t, h⟩ := exists_next (r := step base) (by decide)
  exact ⟨base, t, witness_inv, h⟩

/-! #### Register writes and the load-delay queue -/

/-- A delayed write to register 0 due for commit, and an instruction whose destination is register 0. -/
theorem witness_SynchronousWrite :
    ({ base with ld0 := some (0, 7#32) } : State).ld0 = some (0, 7#32) ∧ isNext (exec (.add 0 1 2) base) = true ∧
    (Instr.add 0 1 2).syncDest = some 0 := by decide

theorem witness_DelayedWriteAndAging :
    (2 : Reg) ≠ 0 ∧ ({ base with ld0 := some (2, 7#32) } : State).ld0 = some (2, 7#32) := by decide

/-- A step that leaves the pending register alone; one that writes it; an overflowing ADD into it, an interrupt and a fetch
error at a word that names it, none of which writes it (R254, R315). -/
theorem witness_LoadCommitsUnlessOverwritten :
    let s : State := { base with ld0 := some (2, 7#32) }
    let full : State := { with12 0x7FFFFFFF#32 0x7FFFFFFF#32 with ld0 := some (2, 7#32) }
    let due : State := { s with sr := 0x00000401#32, intIn := 0b000001#6 }
    let lost : State := { s with pc := 0x80001002#32 }
    ((2 : Reg) ≠ 0 ∧ (placed s 0x00401821).ld0 = some (2, 7#32)) ∧
    (isNext (run s 0x00401821) = true ∧ (after s 0x00401821).reg 2 = 7#32) ∧
    (isNext (run s 0x24020009) = true ∧ (after s 0x24020009).reg 2 = 9#32 ∧ (Instr.addiu 2 0 9#16).syncDest = some 2) ∧
    (isNext (run full 0x00221020) = true ∧ decode 0x00221020#32 = .ok (.add 2 1 2) ∧ (after full 0x00221020).reg 2 = 7#32) ∧
    (due.InterruptDue ∧ isNext (run due 0x24020009) = true ∧ (after due 0x24020009).reg 2 = 7#32) ∧
    (isNext (step lost) = true ∧ (after lost 0x24020009).reg 2 = 7#32) := by decide

theorem witness_ExecWritesOnlyItsDestination :
    isNext (exec (.addu 3 1 2) base) = true ∧ (Instr.addu 3 1 2).syncDest ≠ some 2 ∧
    isNext (exec (.sw 2 1 0#16) base) = true ∧ (Instr.sw 2 1 0#16).syncDest ≠ some 2 := by decide

/-! #### Exceptions -/

/-- An instruction that traps, and one that does not. -/
theorem witness_ExecIsPrecise :
    isNext (exec .syscall base) = true ∧ isNext (exec (.mtc0 8 13) base) = true := by decide

theorem witness_ReturnUndoesStatusPush : (0 < 4 ∨ 6 ≤ 0) ∧ (3 < 4 ∨ 6 ≤ 3) ∧ (6 < 4 ∨ 6 ≤ 6) ∧ (31 < 4 ∨ 6 ≤ 31) := by decide

/-- A step that stays in user mode, and one that enters the kernel. -/
theorem witness_UserModeConfined :
    user.sr.getLsbD 1 = true ∧ user.sr.getLsbD 28 = false ∧ isNext (run user 0x00221821) = true ∧
    (after user 0x00221821).sr = user.sr ∧ isNext (run user 0x42000010) = true ∧
    (after user 0x42000010).sr.getLsbD 1 = false := by decide

/-- RFE and MTC0 do leave kernel mode. -/
theorem witness_KernelLeftOnlyByRfeOrMtc0 :
    ({ base with sr := 0x00000008#32 } : State).sr.getLsbD 1 = false ∧
    isNext (run { base with sr := 0x00000008#32 } 0x42000010) = true ∧
    (after { base with sr := 0x00000008#32 } 0x42000010).sr.getLsbD 1 = true ∧
    (after (put base 8 0x00000002#32) 0x40886000).sr.getLsbD 1 = true := by decide

theorem witness_HardwareLinesSampled : isNext (run { base with intIn := 0b100001#6 } 0) = true := by decide

/-! #### Memory -/

/-- The ends of each segment, and of the range that has three aliases. -/
theorem witness_TranslateBySegment :
    (0x7FFFFFFF#32).toNat < 0x80000000 ∧ 0x80000000 ≤ (0x80000000#32).toNat ∧ (0x9FFFFFFF#32).toNat < 0xA0000000 ∧
    0xA0000000 ≤ (0xA0000000#32).toNat ∧ (0xBFFFFFFF#32).toNat < 0xC0000000 ∧ 0xC0000000 ≤ (0xC0000000#32).toNat ∧
    0xC0000000 ≤ (0xFFFFFFFF#32).toNat ∧ (0x1FFFFFFF#32).toNat < 0x20000000 := by decide

/-- Each region at its ends, with a width aligned there; and the unmapped addresses beside them. -/
theorem witness_BusLoadByDevice :
    (ccrAddress 0xFFFE0130#32 ∧ Width.word.aligned 0xFFFE0130#32 = true) ∧
    (ccrAddress 0xFFFE0133#32 ∧ Width.byte.aligned 0xFFFE0133#32 = true) ∧
    (ramAddress 0x00000000#32 ∧ Width.word.aligned 0x00000000#32 = true) ∧
    (ramAddress 0x801FFFFE#32 ∧ Width.half.aligned 0x801FFFFE#32 = true) ∧
    (romAddress 0xBFC00000#32 ∧ Width.word.aligned 0xBFC00000#32 = true) ∧
    (romAddress 0x9FC7FFFF#32 ∧ Width.byte.aligned 0x9FC7FFFF#32 = true) ∧
    (stubAddress 0x1F000000#32 ∧ stubAddress 0x1F07FFFF#32 ∧ stubAddress 0x1F801000#32 ∧ stubAddress 0x1F801023#32) ∧
    (stubAddress 0x1F801060#32 ∧ stubAddress 0x1F801063#32 ∧ stubAddress 0x1F801C00#32 ∧ stubAddress 0x1F801E7F#32) ∧
    (stubAddress 0x1F802000#32 ∧ stubAddress 0x1F802041#32 ∧ Width.half.aligned 0x1F802040#32 = true) ∧
    (unmappedAddress 0xFFFE012F#32 ∧ unmappedAddress 0xFFFE0134#32 ∧ unmappedAddress 0x80200000#32) ∧
    (unmappedAddress 0x1F080000#32 ∧ unmappedAddress 0x1F801024#32 ∧ unmappedAddress 0x1F802042#32) ∧
    unmappedAddress 0x1FC80000#32 := by
  refine ⟨by decide, by decide, by decide, by decide, by decide, by decide, by decide, by decide, by decide, by decide,
    by decide, by decide⟩

/-- The regions again with a well-formed memory, the gate open and shut. -/
theorem witness_StoreByDevice :
    base.mem.wf = true ∧ base.sr.getLsbD 16 = false ∧ ({ base with sr := 0x00010000#32 } : State).sr.getLsbD 16 = true ∧
    (ccrAddress 0xFFFE0132#32 ∧ Width.half.aligned 0xFFFE0132#32 = true) ∧
    (ramAddress 0xA01FFFFC#32 ∧ Width.word.aligned 0xA01FFFFC#32 = true) ∧
    (romAddress 0xBFC7FFFC#32 ∧ Width.word.aligned 0xBFC7FFFC#32 = true) ∧
    (stubAddress 0x1F801060#32 ∧ Width.word.aligned 0x1F801060#32 = true) ∧
    (unmappedAddress 0x1F801070#32 ∧ Width.word.aligned 0x1F801070#32 = true) := by decide

theorem witness_StoreThenLoadRoundTrip :
    base.mem.wf = true ∧ base.sr.getLsbD 16 = false ∧
    (ramAddress 0x80000100#32 ∧ Width.word.aligned 0x80000100#32 = true) ∧
    (ccrAddress 0xFFFE0130#32 ∧ Width.word.aligned 0xFFFE0130#32 = true) ∧
    ({ base with ipc := 0x80000100#32 } : State).ipc = 0x80000100#32 := by decide

/-- Two writes in either order give equal canonical lists. -/
theorem witness_MemoryListLaws :
    base.mem.wf = true ∧ (Memory.write (Memory.write [] 5 1#8) 3 2#8).wf = true ∧
    Memory.write (Memory.write [] 5 1#8) 3 2#8 = Memory.write (Memory.write [] 3 2#8) 5 1#8 := by decide

/-- A store aimed at the last byte of the boot ROM completes. -/
theorem witness_RomNeverChanges :
    isNext (run (with12 0xBFC7FFFF#32 7#32) 0xA0220000) = true ∧ 0 < 0x80000 ∧ 0x7FFFF < 0x80000 := by decide

theorem witness_IsolatedStepKeepsMemory :
    isNext (run { memBase 7#32 with sr := 0x00010000#32 } 0xAC220000) = true ∧
    ({ memBase 7#32 with sr := 0x00010000#32 } : State).sr.getLsbD 16 = true := by decide

theorem witness_OnlyStoresWriteMemory :
    isNext (exec (.lw 2 1 0#16) (memBase 7#32)) = true ∧ (Instr.lw 2 1 0#16).isStore = false ∧
    isNext (exec .syscall base) = true ∧ Instr.syscall.isStore = false := by decide

/-! #### ALU, multiply and divide -/

/-- The last results that fit and the first that do not, for the sum, the difference and ADDI. -/
theorem witness_TrappingAddSub :
    ((with12 0x7FFFFFFE#32 1#32).reg 1).toInt + ((with12 0x7FFFFFFE#32 1#32).reg 2).toInt = 2 ^ 31 - 1 ∧
    ((with12 0x7FFFFFFF#32 1#32).reg 1).toInt + ((with12 0x7FFFFFFF#32 1#32).reg 2).toInt > 2 ^ 31 - 1 ∧
    ((with12 0x80000001#32 1#32).reg 1).toInt - ((with12 0x80000001#32 1#32).reg 2).toInt = -2 ^ 31 ∧
    ((with12 0x80000000#32 1#32).reg 1).toInt - ((with12 0x80000000#32 1#32).reg 2).toInt < -2 ^ 31 ∧
    ((with12 0x80000001#32 0#32).reg 1).toInt + (0xFFFF#16).toInt = -2 ^ 31 ∧
    ((with12 0x80000000#32 0#32).reg 1).toInt + (0xFFFF#16).toInt < -2 ^ 31 := by decide

/-- A zero divisor under each sign, the overflow, and an ordinary division. -/
theorem witness_DivideResults :
    (((with12 5#32 0#32).reg 2).toInt = 0 ∧ ((with12 5#32 0#32).reg 1).toInt ≥ 0) ∧
    (((with12 0xFFFFFFFB#32 0#32).reg 2).toInt = 0 ∧ ¬ ((with12 0xFFFFFFFB#32 0#32).reg 1).toInt ≥ 0) ∧
    (((with12 0x80000000#32 0xFFFFFFFF#32).reg 1).toInt = -2 ^ 31 ∧ ((with12 0x80000000#32 0xFFFFFFFF#32).reg 2).toInt = -1) ∧
    (((with12 0x80000000#32 1#32).reg 2).toInt ≠ 0 ∧
      ¬ (((with12 0x80000000#32 1#32).reg 1).toInt = -2 ^ 31 ∧ ((with12 0x80000000#32 1#32).reg 2).toInt = -1)) ∧
    ((with12 5#32 0#32).reg 2).toNat = 0 ∧ ((with12 5#32 3#32).reg 2).toNat ≠ 0 := by decide

/-! #### Branches and jumps -/

/-- Outside a delay slot; the targets are equations and always met. -/
theorem witness_ConditionalBranches : base.inDelay = false := by decide

theorem witness_LinkingBranches : base.inDelay = false := by decide

theorem witness_JumpsAndLinks : base.inDelay = false := by decide

theorem witness_BranchInDelaySlotRefused :
    (Instr.jr 31).isBranch = true ∧ base.inDelay = false ∧ ({ base with inDelay := true } : State).inDelay = true := by decide

theorem witness_BranchTargetsAligned :
    isNext (exec (.beq 0 0 0xFFFF#16) base) = true ∧ (Instr.beq 0 0 0xFFFF#16).isBranch = true ∧
    (∀ rs, Instr.beq 0 0 0xFFFF#16 ≠ .jr rs) ∧ (∀ rd rs, Instr.beq 0 0 0xFFFF#16 ≠ .jalr rd rs) ∧
    base.ipc.extractLsb' 0 2 = 0#2 ∧ base.npc.extractLsb' 0 2 = 0#2 := by
  refine ⟨by decide, by decide, fun _ h => (by cases h), fun _ _ h => (by cases h), by decide, by decide⟩

/-! #### Loads and stores -/

/-- A readable byte, an aligned half and word, an unmapped address, and the misaligned ones. -/
theorem witness_AlignedLoads :
    base.memRead .byte 0x80000101#32 = some 0x22#32 ∧
    ((0x80000102#32).getLsbD 0 = false ∧ base.memRead .half 0x80000102#32 = some 0x4433#32) ∧
    ((0x80000104#32).extractLsb' 0 2 = 0#2 ∧ base.memRead .word 0x80000104#32 = some 0x88776655#32) ∧
    unmappedAddress 0x1F801070#32 ∧ (0x80000101#32).getLsbD 0 = true ∧ (0x80000102#32).extractLsb' 0 2 ≠ 0#2 := by decide

/-- Both sources of the merge, at both ends of the lane. -/
theorem witness_UnalignedLoads :
    base.memRead .word (0x80000100#32 &&& 0xFFFFFFFC#32) = some 0x44332211#32 ∧
    base.memRead .word (0x80000103#32 &&& 0xFFFFFFFC#32) = some 0x44332211#32 ∧
    unmappedAddress (0x1F801073#32 &&& 0xFFFFFFFC#32) ∧ base.ld0 = none ∧
    ({ base with ld0 := some (2, 7#32) } : State).ld0 = some (2, 7#32) := by decide

/-- Each region, the gate open and shut, aligned and misaligned. -/
theorem witness_AlignedStores :
    base.mem.wf = true ∧ base.sr.getLsbD 16 = false ∧ ({ base with sr := 0x00010000#32 } : State).sr.getLsbD 16 = true ∧
    (ramAddress 0x80000102#32 ∧ (0x80000102#32).getLsbD 0 = false) ∧
    (ccrAddress 0xFFFE0130#32 ∧ (0xFFFE0130#32).extractLsb' 0 2 = 0#2) ∧
    (romAddress 0xBFC00000#32 ∧ stubAddress 0x1F801060#32 ∧ unmappedAddress 0x1F801070#32) ∧
    (0x80000101#32).getLsbD 0 = true ∧ (0x80000102#32).extractLsb' 0 2 ≠ 0#2 := by decide

theorem witness_UnalignedStores :
    base.mem.wf = true ∧ base.sr.getLsbD 16 = false ∧ ({ base with sr := 0x00010000#32 } : State).sr.getLsbD 16 = true ∧
    ramAddress (0x80000103#32 &&& 0xFFFFFFFC#32) ∧ ccrAddress (0xFFFE0133#32 &&& 0xFFFFFFFC#32) ∧
    (¬ ccrAddress (0x1F802041#32 &&& 0xFFFFFFFC#32) ∧ ¬ ramAddress (0x1F802041#32 &&& 0xFFFFFFFC#32)) ∧
    romAddress (0xBFC00001#32 &&& 0xFFFFFFFC#32) ∧ unmappedAddress (0x1F801073#32 &&& 0xFFFFFFFC#32) := by decide

/-- V4.21: `lwr r3, 1(r1)` then `lwl r3, 4(r1)` over the bytes at 0x101: one `s`, the `t` the LWR leaves and the `u` its
aging leaves meet every hypothesis together. -/
theorem witness_UnalignedLoadIdiom :
    let s := memBase 0#32
    let t := s.delayedWrite 3 0xDE443322#32
    let u := t.ageLoadDelay
    s.reg 1 + (1#16).signExtend 32 = 0x80000101#32 ∧ s.readByte 0x80000101#32 = some 0x22#8 ∧
    s.readByte (0x80000101#32 + 1#32) = some 0x33#8 ∧ s.readByte (0x80000101#32 + 2#32) = some 0x44#8 ∧
    s.readByte (0x80000101#32 + 3#32) = some 0x55#8 ∧ exec (.lwr 3 1 1#16) s = .next t ∧
    u.mem = t.mem ∧ u.ccr = t.ccr ∧ u.ld0 = t.ld1 ∧ u.reg 1 + (4#16).signExtend 32 = 0x80000101#32 + 3#32 := by
  refine ⟨by decide, by decide, by decide, by decide, by decide, by rfl, by rfl, by rfl, by rfl, by decide⟩

/-! #### System and coprocessor instructions -/

/-- COP0 open in kernel mode, open by CU0 in user mode, and shut; registers MFC0 cannot read. -/
theorem witness_MoveFromCop0 :
    base.Cop0Open ∧ ({ base with sr := 0x10000002#32 } : State).Cop0Open ∧ ¬ user.Cop0Open ∧
    (15 : Reg) ∉ ([8, 12, 13, 14] : List Reg) ∧ (0 : Reg) ∉ ([8, 12, 13, 14] : List Reg) := by decide

theorem witness_MoveToCop0AndRfe :
    base.Cop0Open ∧ ¬ user.Cop0Open ∧ ((14 : Reg) ≠ 12 ∧ (14 : Reg) ≠ 13) ∧ ((8 : Reg) ≠ 12 ∧ (8 : Reg) ≠ 13) := by decide

theorem witness_AbsentCoprocessors :
    base.Cop0Open ∧ ¬ user.Cop0Open ∧
    (∀ n ∈ [29, 30, 31], base.sr.getLsbD n = false ∧ ({ base with sr := 0xE0000000#32 } : State).sr.getLsbD n = true) := by decide

end Sys2Proof.Tests
end

section
/-! PROOFS. How a step can end (00_scope.md R18, R19; 15_pipeline.md R60, R71). -/

namespace Sys2Proof.Machine

/-! ### What a fetched word answers (15_pipeline.md R65) -/

theorem execWord_ok {w : Word} {i : Instr} (h : decode w = .ok i) (s : State) : execWord w s = exec i s := by
  rw [execWord, h]

theorem execWord_error {w : Word} {e : DecodeReject} (h : decode w = .error e) (s : State) :
    execWord w s = execReject e s := by
  rw [execWord, h]

/-- The outcomes of `exec_total`, for a word: a word that decodes to no instruction always answers a next state. -/
theorem execWord_total (w : Word) (s : State) :
    (∃ t, execWord w s = .next t) ∨
    (execWord w s = .refused .branchInDelaySlot ∧ s.inDelay = true ∧ ∃ i, decode w = .ok i ∧ i.isBranch = true) ∨
    (execWord w s = .refused .cop2Present ∧ s.sr.getLsbD 30 = true ∧ ∃ i, decode w = .ok i ∧ i.isCop2 = true) := by
  cases hd : decode w with
  | error e => exact .inl ⟨_, (execWord_error hd s).trans (execReject_next e s)⟩
  | ok i =>
    rw [execWord_ok hd]
    obtain hnext | ⟨hr, hb, hdelay⟩ | ⟨hr, hc, hcu⟩ := exec_total i s
    · exact .inl hnext
    · exact .inr (.inl ⟨hr, hdelay, i, rfl, hb⟩)
    · exact .inr (.inr ⟨hr, hcu, i, rfl, hc⟩)

/-! ### How a step ends -/

/-- The delay-slot flag and CU2 that phase E sees are those of the state the step began in. -/
theorem step_total {s : State} (hs : s.refused = false) :
    (∃ t, step s = .next t) ∨
    (step s = .refused .branchInDelaySlot ∧ s.brFlag = true ∧
      ∃ w i, s.memRead .word s.pc = some w ∧ decode w = .ok i ∧ i.isBranch = true) ∨
    (step s = .refused .cop2Present ∧ s.sr.getLsbD 30 = true ∧
      ∃ w i, s.memRead .word s.pc = some w ∧ decode w = .ok i ∧ i.isCop2 = true) := by
  by_cases hi : s.InterruptDue
  · exact .inl ⟨_, step_interrupt hs hi⟩
  cases hf : s.beginStep.fetch with
  | none => exact .inl ⟨_, step_fetchError hs hi hf⟩
  | some w =>
    obtain ⟨-, hread⟩ := beginStep_fetch_some hf
    rw [step_word hs hi hf]
    obtain ⟨t, ht⟩ | ⟨hr, hdelay, i, hd, hb⟩ | ⟨hr, hcu, i, hd, hc⟩ := execWord_total w s.beginStep.advance
    · exact .inl ⟨_, congrArg ageResult ht⟩
    · exact .inr (.inl ⟨congrArg ageResult hr, hdelay, w, i, hread, hd, hb⟩)
    · exact .inr (.inr ⟨congrArg ageResult hr, hcu, w, i, hread, hd, hc⟩)

theorem recordStep_of_refused {s : State} {r : Refusal} (h : step s = .refused r) :
    recordStep s = { s with refused := true } := by
  rw [recordStep, h]

/-- Settles O15: what a fetched word can answer, lifted to the step; the other endings of a step are next states. -/
theorem stepEndsOnlyByListedRefusals : Obligations.StepEndsOnlyByListedRefusals :=
  ⟨fun _ => step_total, fun _ => step_refused, fun _ _ => recordStep_of_refused⟩

end Sys2Proof.Machine
end

section
/-! PROOFS. The state between two steps (10_state.md): what an instruction's effect keeps of each part of the state, and the
four claims about steps and instructions that rest on it. -/

namespace Sys2Proof.Machine

/-! ### Slot 0 of the register file (10_state.md R21) -/

theorem regs_set_slotZero (regs : Vector Word 32) {r : Reg} (v : Word) (hr : r ≠ 0) : (regs.set r v)[0] = regs[0] :=
  Vector.getElem_set_ne _ _ fun h => hr (Fin.ext h)

@[simp] theorem writeReg_slotZero (s : State) (r : Reg) (v : Word) : (s.writeReg r v).regs[0] = s.regs[0] := by
  unfold State.writeReg
  split
  · rfl
  · exact regs_set_slotZero _ _ ‹_›

theorem committedRegs_slotZero (s : State) : s.committedRegs[0] = s.regs[0] := by
  unfold State.committedRegs
  split
  · rfl
  · split
    · rfl
    · exact regs_set_slotZero _ _ ‹_›

/-! ### Cause between two steps (10_state.md R40; 60_exceptions.md R300, R309, R312) -/

/-- What `State.Inv` says of Cause, as a property of the word alone. -/
structure CauseLegal (c : Word) : Prop where
  reserved : ∀ n, n < 2 ∨ n = 7 ∨ (15 < n ∧ n < 28) → c.getLsbD n = false
  code : excCode c ∈ [0#5, 4#5, 5#5, 8#5, 9#5, 10#5, 11#5, 12#5]
  takenInDelay : c.getLsbD 30 = true → c.getLsbD 31 = true

/-- A word that differs from a legal Cause in IP alone is legal. -/
theorem CauseLegal.of_ip {c d : Word} (hc : CauseLegal c) (hbit : ∀ n, n < 8 ∨ 15 < n → d.getLsbD n = c.getLsbD n)
    (hcode : d.extractLsb' 2 5 = c.extractLsb' 2 5) : CauseLegal d where
  reserved n hn := (hbit n (by omega)).trans (hc.reserved n hn)
  code := by rw [excCode, hcode]; exact hc.code
  takenInDelay := by rw [hbit 30 (by omega), hbit 31 (by omega)]; exact hc.takenInDelay

theorem CauseLegal.withLines {c : Word} (hc : CauseLegal c) (lines : BitVec 6) : CauseLegal (causeWithLines c lines) := by
  refine hc.of_ip (fun n hn => ?_) (causeWithLines_code ..)
  rw [causeWithLines_bit]
  rcases hn with hn | hn
  · rw [if_pos (by omega)]
  · rw [if_neg (by omega), if_neg (by omega)]

theorem CauseLegal.withSoftwareBits {c : Word} (hc : CauseLegal c) (v : Word) : CauseLegal (causeWithSoftwareBits c v) := by
  refine hc.of_ip (fun n hn => ?_) (causeWithSoftwareBits_code ..)
  rw [causeWithSoftwareBits_bit, if_neg (by omega)]

theorem code_legal (e : ExceptionKind) : e.code ∈ [0#5, 4#5, 5#5, 8#5, 9#5, 10#5, 11#5, 12#5] := by
  cases e <;> simp [ExceptionKind.code]

/-- Entry writes BT as `in_delay && in_taken` and BD as `in_delay`, so BT comes with BD (R312). -/
theorem CauseLegal.onEntry {c : Word} (hc : CauseLegal c) (delay taken : Bool) (e : ExceptionKind) :
    CauseLegal (causeOnEntry c delay (delay && taken) e.ce e.code) where
  reserved n hn := (causeOnEntry_rest c _ _ _ _ n (by omega)).trans (hc.reserved n hn)
  code := by rw [excCode, causeOnEntry_code]; exact code_legal e
  takenInDelay := by
    rw [causeOnEntry_bt, causeOnEntry_bd]
    exact fun h => (Bool.and_eq_true_iff.1 h).1

/-! ### What an effect keeps -/

/-- The three ways to leave Cause: untouched, written by entry (60_exceptions.md R310), or by MTC0 (10_state.md R41). -/
theorem Effect.cause_cases {i : Instr} {s t : State} (h : Effect i s t) :
    t.cause = s.cause ∨
    (∃ e : ExceptionKind, t.cause = causeOnEntry s.cause s.inDelay (s.inDelay && s.inTaken) e.ce e.code) ∨
    (∃ v, t.cause = causeWithSoftwareBits s.cause v) := by
  cases h with
  | trap e h => exact .inr (.inl ⟨e, congrArg State.cause h⟩)
  | softwareBits v _ _ h => exact .inr (.inr ⟨v, congrArg State.cause h⟩)
  | store _ ho _ _ => left; rw [ho]
  | write _ _ _ h | link _ _ _ _ _ _ _ h => left; simp [h]
  | delayed _ _ h | hiLo _ _ h | branch _ _ _ _ h | status _ _ _ h | nothing h => subst h; exact .inl rfl

theorem Effect.causeLegal {i : Instr} {s t : State} (h : Effect i s t) (hc : CauseLegal s.cause) : CauseLegal t.cause := by
  obtain hcause | ⟨e, hcause⟩ | ⟨v, hcause⟩ := h.cause_cases <;> rw [hcause]
  · exact hc
  · exact hc.onEntry _ _ e
  · exact hc.withSoftwareBits v

theorem Effect.lines {i : Instr} {s t : State} (h : Effect i s t) :
    t.cause.extractLsb' 10 6 = s.cause.extractLsb' 10 6 := by
  obtain hcause | ⟨e, hcause⟩ | ⟨v, hcause⟩ := h.cause_cases <;> rw [hcause]
  · exact causeOnEntry_lines ..
  · exact causeWithSoftwareBits_lines ..

/-- Only a store moves memory, and it keeps what every store keeps (20_memory.md R89, R95). -/
theorem Effect.keepsMemory {i : Instr} {s t : State} (h : Effect i s t) : KeepsMemory s t := by
  cases h with
  | store _ _ hk _ => exact hk
  | write _ _ _ h | link _ _ _ _ _ _ _ h => exact .of_mem (by simp [h])
  | trap _ h | delayed _ _ h | hiLo _ _ h | branch _ _ _ _ h | status _ _ _ h | softwareBits _ _ _ h | nothing h =>
    subst h; exact .of_mem rfl

/-- `t` agrees with `s` where no instruction writes: slot 0 of the register file (10_state.md R21), the input lines (log 7)
and the refused mark (log 8). -/
structure KeepsFixed (s t : State) : Prop where
  slotZero : t.regs[0] = s.regs[0]
  intIn : t.intIn = s.intIn
  refused : t.refused = s.refused

theorem Effect.keepsFixed {i : Instr} {s t : State} (h : Effect i s t) : KeepsFixed s t := by
  cases h with
  | store _ ho _ _ => rw [ho]; constructor <;> rfl
  | write _ _ _ h | link _ _ _ _ _ _ _ h => subst h; constructor <;> simp
  | trap _ h | delayed _ _ h | hiLo _ _ h | branch _ _ _ _ h | status _ _ _ h | softwareBits _ _ _ h | nothing h =>
    subst h; exact ⟨rfl, rfl, rfl⟩

/-- Only a synchronous write moves a register, and only the instruction's destination (10_state.md R22). -/
theorem Effect.reg_of_ne_syncDest {i : Instr} {s t : State} (h : Effect i s t) {q : Reg} (hq : i.syncDest ≠ some q) :
    t.reg q = s.reg q := by
  have other {r : Reg} (hd : i.syncDest = some r) (v : Word) : (s.writeReg r v).reg q = s.reg q := by
    rw [State.writeReg_reg, if_neg]
    rintro ⟨rfl, -⟩
    exact hq hd
  cases h with
  | write r v hd h => rw [h]; exact other hd v
  | link r v c x hd _ _ h => rw [h, State.branchTo_reg]; exact other hd v
  | store _ ho _ _ => rw [ho]; rfl
  | trap _ h | delayed _ _ h | hiLo _ _ h | branch _ _ _ _ h | status _ _ _ h | softwareBits _ _ _ h | nothing h =>
    subst h; rfl

/-! ### What a step keeps -/

/-- A property that holds once the step has begun (15_pipeline.md R61, R62), and that advance, every effect and aging keep,
holds after the step. Exception entry is an effect too, one that any instruction may have: SYSCALL stands for it. -/
theorem step_keeps {P : State → Prop} (hadvance : ∀ s, P s → P s.advance)
    (heffect : ∀ {i s t}, Effect i s t → P s → P t) (hage : ∀ s, P s → P s.ageLoadDelay) {s u : State}
    (hbegin : P s.beginStep) (h : step s = .next u) : P u := by
  have hentry {s : State} (e : ExceptionKind) (hs : P s) : P (s.enterException e) :=
    heffect (i := .syscall) (.trap e rfl) hs
  obtain ⟨t, rfl, ⟨e, rfl⟩ | ⟨e, rfl⟩ | ⟨-, i, -, -, he⟩⟩ := step_effect h
  · exact hage _ (hentry e hbegin)
  · exact hage _ (hentry e (hadvance _ hbegin))
  · exact hage _ (heffect he (hadvance _ hbegin))

theorem step_keepsMemory {s t : State} (h : step s = .next t) : KeepsMemory s t :=
  step_keeps (P := KeepsMemory s) (fun _ hu => hu.trans (.of_mem rfl)) (fun he hu => hu.trans he.keepsMemory)
    (fun _ hu => hu.trans (.of_mem rfl)) (.of_mem rfl) h

/-- What `State.Inv` says of everything but the load-delay queue and the counter pair: this part holds all through a
step. -/
structure State.StoresLegal (s : State) : Prop where
  zeroSlot : s.regs[0] = 0#32
  memCanonical : s.mem.wf = true
  memInMap : s.mem.inMap = true
  causeLegal : CauseLegal s.cause
  notRefused : s.refused = false

theorem State.Inv.beginStep_storesLegal {s : State} (h : s.Inv) : s.beginStep.StoresLegal where
  zeroSlot := h.zeroSlot
  memCanonical := h.memCanonical
  memInMap := h.memInMap
  causeLegal := CauseLegal.withLines ⟨h.causeReserved, h.legalCode, h.takenInDelay⟩ s.intIn
  notRefused := h.notRefused

theorem Effect.storesLegal {i : Instr} {s t : State} (h : Effect i s t) (hs : s.StoresLegal) : t.StoresLegal where
  zeroSlot := h.keepsFixed.slotZero.trans hs.zeroSlot
  memCanonical := h.keepsMemory.wf hs.memCanonical
  memInMap := h.keepsMemory.inMap hs.memInMap
  causeLegal := h.causeLegal hs.causeLegal
  notRefused := h.keepsFixed.refused.trans hs.notRefused

theorem State.StoresLegal.ageLoadDelay {s : State} (h : s.StoresLegal) : s.ageLoadDelay.StoresLegal :=
  { h with zeroSlot := (committedRegs_slotZero s).trans h.zeroSlot }

theorem step_storesLegal {s t : State} (hs : s.Inv) (h : step s = .next t) : t.StoresLegal :=
  step_keeps (P := State.StoresLegal) (fun _ hu => { hu with }) Effect.storesLegal (fun _ hu => hu.ageLoadDelay)
    hs.beginStep_storesLegal h

/-! ### The counter pair and the flags (10_state.md R30; 15_pipeline.md R72) -/

/-- What `State.Inv` says of `pc`, `npc` and the branch flags. -/
structure State.CounterPair (s : State) : Prop where
  sequential : s.tkFlag = false → s.npc = s.pc + 4#32
  takenIsBranch : s.tkFlag = true → s.brFlag = true

theorem State.CounterPair.of_untaken {s : State} (hnpc : s.npc = s.pc + 4#32) (htk : s.tkFlag = false) : s.CounterPair :=
  ⟨fun _ => hnpc, fun h => absurd (htk.symm.trans h) Bool.false_ne_true⟩

/-- `BranchTo` after an advance: the pair stays sequential exactly where the branch is not taken (15_pipeline.md R75). -/
theorem State.counterPair_branchTo {s : State} (hnpc : s.npc = s.pc + 4#32) (taken : Bool) (target : Word) :
    (s.branchTo taken target).CounterPair where
  sequential h := by
    obtain rfl : taken = false := h
    exact hnpc
  takenIsBranch _ := rfl

/-- An effect on an advanced state leaves the pair sequential unless it redirects. -/
theorem Effect.counterPair {i : Instr} {s t : State} (h : Effect i s t) (hnpc : s.npc = s.pc + 4#32)
    (htk : s.tkFlag = false) : t.CounterPair := by
  cases h with
  | trap e h => subst h; exact .of_untaken rfl htk
  | branch c x _ _ h => subst h; exact State.counterPair_branchTo hnpc c x
  | link r v c x _ _ _ h => subst h; exact State.counterPair_branchTo (by simpa using hnpc) c x
  | store _ ho _ _ => rw [ho]; exact .of_untaken hnpc htk
  | write _ _ _ h => subst h; exact .of_untaken (by simpa using hnpc) (by simpa using htk)
  | delayed _ _ h | hiLo _ _ h | status _ _ _ h | softwareBits _ _ _ h | nothing h =>
    subst h; exact .of_untaken hnpc htk

/-- After any step: the counter pair does not depend on what the step began with, since phases A and D write it. -/
theorem step_counterPair {s u : State} (h : step s = .next u) : u.CounterPair := by
  obtain ⟨t, rfl, ⟨e, rfl⟩ | ⟨e, rfl⟩ | ⟨w, i, -, -, he⟩⟩ := step_effect h
  · exact .of_untaken rfl rfl
  · exact .of_untaken rfl rfl
  · exact { he.counterPair rfl rfl with }

theorem step_slot1Empty {s u : State} (h : step s = .next u) : u.ld1 = none := by
  obtain ⟨t, rfl, -⟩ := step_effect h
  rfl

/-! ### The obligations -/

/-- Settles O17: registers, memory, Cause and the refused mark are legal all through a step; the counter pair and the queue
are as the invariant asks after any step. -/
theorem invariantKeptByStep : Obligations.InvariantKeptByStep := by
  intro s t hs h
  have hstores := step_storesLegal hs h
  have hpair := step_counterPair h
  exact {
    zeroSlot := hstores.zeroSlot
    memCanonical := hstores.memCanonical
    memInMap := hstores.memInMap
    slot1Empty := step_slot1Empty h
    sequential := hpair.sequential
    takenIsBranch := hpair.takenIsBranch
    causeReserved := hstores.causeLegal.reserved
    legalCode := hstores.causeLegal.code
    takenInDelay := hstores.causeLegal.takenInDelay
    notRefused := hstores.notRefused }

/-- Settles O33: no store of a step writes at or above the end of RAM, and the boot ROM lies above it. -/
theorem romNeverChanges : Obligations.RomNeverChanges :=
  fun _ _ h o _ => (step_keepsMemory h).rom (0x1FC00000 + o) (by unfold ramSize; omega)

/-- Settles O21: only the effects that write a register move one, and they write `Instr.syncDest`; register 0 reads 0 in
every state. -/
theorem execWritesOnlyItsDestination : Obligations.ExecWritesOnlyItsDestination :=
  fun _ _ _ h => ⟨fun _ => (exec_effect h).reg_of_ne_syncDest, rfl⟩

/-- Settles O27: phase B samples the lines into Cause, and nothing after it moves those bits or the input. -/
theorem hardwareLinesSampled : Obligations.HardwareLinesSampled := fun s _ h =>
  step_keeps (P := fun u => u.intIn = s.intIn ∧ u.cause.extractLsb' 10 6 = s.intIn) (fun _ hu => hu)
    (fun he hu => ⟨he.keepsFixed.intIn.trans hu.1, he.lines.trans hu.2⟩) (fun _ hu => hu)
    ⟨rfl, causeWithLines_lines ..⟩ h

end Sys2Proof.Machine
end

section
/-! PROOFS. The load-delay queue and precise exceptions (15_pipeline.md R66 to R68, R70, R73; 60_exceptions.md R310): what
each register write does to the queue, what aging commits, and when an instruction takes a pending value away. -/

namespace Sys2Proof.Machine

/-! ### Writes and aging -/

theorem writeReg_writesReg (s : State) (r : Reg) (v : Word) : s.WritesReg (s.writeReg r v) r v where
  dest := s.writeReg_reg r v
  due := s.writeReg_ld0 r v
  notYetDue := s.writeReg_ld1 r v
  rest := s.writeReg_rest r v
  bytes := s.writeReg_readByte r v

theorem delayedWrite_writesDelayed (s : State) (r : Reg) (v : Word) : s.WritesDelayed (s.delayedWrite r v) r v where
  queued := rfl
  regs _ := rfl
  rest := rfl
  bytes _ := rfl

theorem ageLoadDelay_of_due_zero {s : State} {v : Word} (h : s.ld0 = some (0, v)) :
    s.ageLoadDelay = { s with ld0 := s.ld1, ld1 := none } := by
  have hregs : s.committedRegs = s.regs := by rw [State.committedRegs, h]; exact if_pos rfl
  rw [State.ageLoadDelay, hregs]

theorem ageLoadDelay_reg_of_due {s : State} {r : Reg} {v : Word} (h : s.ld0 = some (r, v)) (hr : r ≠ 0) :
    s.ageLoadDelay.reg r = v := by
  rw [s.ageLoadDelay_reg, h]
  exact if_pos ⟨rfl, hr⟩

theorem ageLoadDelay_reg_of_empty {s : State} (h : s.ld0 = none) (q : Reg) : s.ageLoadDelay.reg q = s.reg q := by
  rw [s.ageLoadDelay_reg, h]

/-! ### Exception entry (60_exceptions.md R310 to R314) -/

theorem enterException_enters (s : State) (e : ExceptionKind) :
    s.EntersException (s.enterException e) e.code e.ce e.badv where
  epc := rfl
  bd := causeOnEntry_bd ..
  bt := causeOnEntry_bt ..
  exc := causeOnEntry_code ..
  coprocessor := causeOnEntry_ce ..
  causeRest := causeOnEntry_rest _ _ _ _ _
  badv := rfl
  disabled := pushStatus_bit s.sr 0
  kernel := pushStatus_bit s.sr 1
  pushed n hn := (pushStatus_bit s.sr (n + 2)).trans (by rw [if_neg (by omega), if_pos (by omega), Nat.add_sub_cancel])
  srRest n hn := (pushStatus_bit s.sr n).trans (by rw [if_neg (by omega), if_neg (by omega)])
  pc := rfl
  npc := rfl
  rest := rfl
  bytes _ := rfl

theorem State.EntersException.ld0 {s t : State} {code : BitVec 5} {ce : Option (BitVec 2)} {bad : Option Word}
    (h : s.EntersException t code ce bad) : t.ld0 = s.ld0 := by
  rw [h.rest]

/-! ### What an effect does to the queue and to the exception registers -/

/-- A value due for `r` stays due unless the instruction's synchronous write to `r` cancels it (15_pipeline.md R66). -/
theorem Effect.keeps_due_or_cancels {i : Instr} {s t : State} (h : Effect i s t) {r : Reg} {v : Word}
    (hdue : s.ld0 = some (r, v)) : t.ld0 = some (r, v) ∨ (i.syncDest = some r ∧ t.ld0 = none) := by
  have write {q : Reg} (hd : i.syncDest = some q) (x : Word) :
      (s.writeReg q x).ld0 = some (r, v) ∨ (i.syncDest = some r ∧ (s.writeReg q x).ld0 = none) := by
    rw [s.writeReg_ld0, hdue]
    split
    · obtain ⟨-, hq⟩ := ‹_ ∧ _›
      exact .inr ⟨hd.trans hq.symm, rfl⟩
    · exact .inl rfl
  cases h with
  | write q x hd h => subst h; exact write hd x
  | link q x c y hd _ _ h => subst h; exact write hd x
  | store _ ho _ _ => rw [ho]; exact .inl hdue
  | trap _ h | delayed _ _ h | hiLo _ _ h | branch _ _ _ _ h | status _ _ _ h | softwareBits _ _ _ h | nothing h =>
    subst h; exact .inl hdue

/-- An effect that is no exception entry leaves `pc`, EPC and BadVAddr alone, and of Cause it moves at most the two bits
that MTC0 can write (10_state.md R41). -/
theorem Effect.precise {i : Instr} {s t : State} (h : Effect i s t) :
    (∃ e, t = s.enterException e) ∨
    (t.pc = s.pc ∧ t.epc = s.epc ∧ t.badv = s.badv ∧ ∀ n, n ≠ 8 → n ≠ 9 → t.cause.getLsbD n = s.cause.getLsbD n) := by
  cases h with
  | trap e h => exact .inl ⟨e, h⟩
  | softwareBits v _ _ h =>
    subst h
    exact .inr ⟨rfl, rfl, rfl, fun n h8 h9 => (causeWithSoftwareBits_bit ..).trans (if_neg (by omega))⟩
  | store _ ho _ _ => rw [ho]; exact .inr ⟨rfl, rfl, rfl, fun _ _ _ => rfl⟩
  | write _ _ _ h | link _ _ _ _ _ _ _ h => right; simp [h]
  | delayed _ _ h | hiLo _ _ h | branch _ _ _ _ h | status _ _ _ h | nothing h =>
    subst h; exact .inr ⟨rfl, rfl, rfl, fun _ _ _ => rfl⟩

/-! ### The obligations -/

/-- Settles O18: the rules for `writeReg`, and for register 0 that its commit, its synchronous write and an instruction's
write to it move no register. -/
theorem synchronousWrite : Obligations.SynchronousWrite := by
  refine ⟨writeReg_writesReg, fun _ => rfl, State.writeReg_zero, fun _ _ => ageLoadDelay_of_due_zero, ?_⟩
  intro i s t h hd q
  by_cases hq : q = 0
  · subst hq; rfl
  · refine (exec_effect h).reg_of_ne_syncDest fun hdq => hq ?_
    exact Option.some.inj (hdq.symm.trans hd)

/-- Settles O19: of two loads to one register the first is due at the next aging, and the second has become due by then. -/
theorem delayedWriteAndAging : Obligations.DelayedWriteAndAging := by
  refine ⟨delayedWrite_writesDelayed, fun s => ⟨s.ageLoadDelay_reg, rfl, rfl, rfl⟩, fun s r v v' hr hdue => ?_⟩
  have hfirst : (s.delayedWrite r v').ld0 = some (r, v) := hdue
  have hsecond : (s.delayedWrite r v').ageLoadDelay.ld0 = some (r, v') := rfl
  exact ⟨ageLoadDelay_reg_of_due hfirst hr, ageLoadDelay_reg_of_due hsecond hr⟩

/-- Settles O20: every ending of a step ages the queue, and only an instruction's own write can have emptied slot 0 before
that; an exception entry keeps slot 0, so that write was none. -/
theorem loadCommitsUnlessOverwritten : Obligations.LoadCommitsUnlessOverwritten := by
  intro s u r v hdue hr h
  refine ⟨rfl, ?_⟩
  have hbegun : s.beginStep.advance.ld0 = some (r, v) := hdue
  obtain ⟨-, ⟨-, rfl⟩ | ⟨-, -, rfl⟩ | ⟨hi, w, hf, t, rfl, ⟨i, hd, ht⟩ | ⟨_, _, -, rfl⟩⟩⟩ := step_cases h
  case inl | inr.inl | inr.inr.inr => exact .inl (ageLoadDelay_reg_of_due hdue hr)
  case inr.inr.inl =>
    obtain hkept | ⟨hdest, hempty⟩ := (exec_effect ht).keeps_due_or_cancels hbegun
    · exact .inl (ageLoadDelay_reg_of_due hkept hr)
    · refine .inr ⟨w, i, t, hi, hf, hd, hdest, ht, fun code ce bad hentry => ?_, hempty, ageLoadDelay_reg_of_empty hempty r⟩
      have hlost : none = some (r, v) := hempty.symm.trans (hentry.ld0.trans hbegun)
      cases hlost

/-- Settles O23: `Effect.precise`, with what an entry writes. -/
theorem execIsPrecise : Obligations.ExecIsPrecise := fun _ s _ h =>
  (exec_effect h).precise.imp_left fun ⟨e, he⟩ => ⟨e.code, e.ce, e.badv, he ▸ enterException_enters s e⟩

end Sys2Proof.Machine
end

section
/-! PROOFS. The phases of a step before it executes (15_pipeline.md R61 to R65) and the placing of a word where the next
step fetches it (logs 5 and 13). -/

namespace Sys2Proof.Machine

/-! ### Interrupt and fetch -/

theorem interruptRequested_iff (s : State) :
    s.interruptRequested = true ↔
      s.sr.getLsbD 0 = true ∧ s.cause.extractLsb' 8 8 &&& s.sr.extractLsb' 8 8 ≠ 0#8 :=
  Bool.and_eq_true_iff.trans (and_congr_right fun _ => decide_eq_true_iff)

theorem beginStep_fetch_of_read {s : State} {w : Word} (ha : s.pc.extractLsb' 0 2 = 0#2)
    (hread : s.memRead .word s.pc = some w) : s.beginStep.fetch = some w := by
  rw [beginStep_fetch, if_pos ha, hread]

/-! ### Placing a word

RAM and boot ROM are one list by physical address (log 12), so one lemma speaks of both. -/

theorem ofNat_mod_word (w : Nat) : BitVec.ofNat 32 (w % 0x100000000) = BitVec.ofNat 32 w :=
  BitVec.eq_of_toNat_eq (by simp)

theorem withFetchWord_memory {s : State} (w : Nat) (ha : s.pc.extractLsb' 0 2 = 0#2)
    (hr : ramAddress s.pc ∨ romAddress s.pc) :
    s.withFetchWord 32 w =
      { s with mem := s.mem.load (physical s.pc).toNat (bytesOfWord (BitVec.ofNat 32 w)) } := by
  rcases hr with hr | hr
  · simp [State.withFetchWord, Width.aligned, ha, busTarget_ram hr, ofNat_mod_word]
  · have hbase : romBase + ((physical s.pc).toNat - 0x1FC00000) = (physical s.pc).toNat := by
      unfold romBase; unfold romAddress at hr; omega
    simp [State.withFetchWord, Width.aligned, ha, busTarget_rom hr, ofNat_mod_word, hbase]

theorem withFetchWord_ccr {s : State} (w : Nat) (ha : s.pc.extractLsb' 0 2 = 0#2) (hr : ccrAddress s.pc) :
    s.withFetchWord 32 w = { s with ccr := BitVec.ofNat 32 w } := by
  simp [State.withFetchWord, Width.aligned, ha, busTarget_ccr hr, ofNat_mod_word]

theorem bytesOfWord_getElem (v : Word) (i : Nat) (hi : i < (bytesOfWord v).length) : (bytesOfWord v)[i] = byteOf v i := by
  have hi4 : i < 4 := hi
  interval_cases i <;> rfl

theorem memRead_memory (s : State) (w : Width) {va : Word} (ha : w.aligned va = true)
    (hr : ramAddress va ∨ romAddress va) :
    s.memRead w va = some (w.compose fun i => s.mem.read ((physical va).toNat + i)) :=
  hr.elim (memRead_ram s w ha) (memRead_rom s w)

/-- The four bytes of a word, loaded at `p`, compose to the word (20_memory.md R93). -/
theorem compose_load_bytesOfWord {m : Memory} (hm : m.wf = true) (p : Nat) (v : Word) :
    Width.word.compose (fun i => (m.load p (bytesOfWord v)).read (p + i)) = v := by
  refine (compose_congr .word fun i hi => ?_).trans (compose_byteOf .word v)
  have hlen : i < (bytesOfWord v).length := hi
  exact (Memory.read_load hm p _ i hlen).trans (bytesOfWord_getElem v i hlen)

/-- The only aligned address of the cache-control register is its first. -/
theorem ccrAddress_aligned {va : Word} (ha : va.extractLsb' 0 2 = 0#2) (hr : ccrAddress va) : va.toNat = 0xFFFE0130 := by
  have hmod := (toNat_mod_four va).2 ha
  unfold ccrAddress at hr
  omega

/-! ### The obligations -/

/-- Settles O10: the phases are these updates by definition. -/
theorem phasesBeforeExecution : Obligations.PhasesBeforeExecution := fun _ => ⟨rfl, rfl⟩

/-- Settles O11: of the four endings of a step only the fetched word's is left, and the word decodes. -/
theorem stepRunsDecodedInstruction : Obligations.StepRunsDecodedInstruction := by
  intro s w i hs hi ha hread hd
  refine (step_word hs hi (beginStep_fetch_of_read ha hread)).trans ?_
  rw [execWord_ok hd]
  cases exec i s.beginStep.advance <;> rfl

/-- Settles O13: a due interrupt ends the step with the entry into code 0 from the sampled state. -/
theorem stepTakesInterrupt : Obligations.StepTakesInterrupt :=
  ⟨fun s => ⟨rfl, interruptRequested_iff s.beginStep⟩, fun s hs hi =>
    ⟨s.beginStep.enterException .interrupt, step_interrupt hs hi, enterException_enters s.beginStep .interrupt⟩⟩

/-- Settles O16: in memory and in the cache-control register alike the bus reads back at `pc` what `withFetchWord` has put
there. -/
theorem placedWordIsFetched : Obligations.PlacedWordIsFetched := by
  intro s w hm ha hr
  have halign : Width.word.aligned s.pc = true := (aligned_iff ..).2 ((toNat_mod_four _).2 ha)
  obtain hr | hr := or_assoc.2 hr
  · rw [withFetchWord_memory w ha hr]
    refine ⟨beginStep_fetch_of_read ?_ ?_, rfl⟩
    · exact ha
    · exact (memRead_memory _ _ halign hr).trans (congrArg some (compose_load_bytesOfWord hm ..))
  · rw [withFetchWord_ccr w ha hr]
    refine ⟨beginStep_fetch_of_read ?_ ?_, rfl⟩
    · exact ha
    · refine (memRead_ccr _ _ hr).trans (congrArg some ?_)
      simp only [ccrAddress_aligned ha hr, Nat.sub_self, Nat.zero_add]
      exact compose_byteOf ..

end Sys2Proof.Machine
end

section
/-! PROOFS. The bus between a program and memory (20_memory.md R81 to R105): translation, loads and stores by device, the
fetch that no device answers, and that nothing but a store moves memory. -/

namespace Sys2Proof.Machine

/-! ### Translation (R81, R83) -/

theorem physical_of_kuseg {va : Word} (h : va.toNat < 0x80000000) : physical va = va :=
  BitVec.eq_of_toNat_eq ((physical_toNat va).trans (if_pos h))

theorem physical_of_kseg0 {va : Word} (hlo : 0x80000000 ≤ va.toNat) (hhi : va.toNat < 0xA0000000) :
    (physical va).toNat = va.toNat - 0x80000000 := by
  rw [physical_toNat, if_neg (by omega), if_pos hhi]

theorem physical_of_kseg1 {va : Word} (hlo : 0xA0000000 ≤ va.toNat) (hhi : va.toNat < 0xC0000000) :
    (physical va).toNat = va.toNat - 0xA0000000 := by
  rw [physical_toNat, if_neg (by omega), if_neg (by omega), if_pos hhi]

theorem physical_of_kseg2 {va : Word} (h : 0xC0000000 ≤ va.toNat) : physical va = va := by
  refine BitVec.eq_of_toNat_eq ?_
  rw [physical_toNat, if_neg (by omega), if_neg (by omega), if_neg (by omega)]

theorem physical_add_kseg0 {p : Word} (hp : p.toNat < 0x20000000) : physical (p + 0x80000000#32) = p := by
  have hadd : (p + 0x80000000#32).toNat = p.toNat + 0x80000000 := BitVec.toNat_add_of_lt (by rw [BitVec.toNat_ofNat]; omega)
  refine BitVec.eq_of_toNat_eq ((physical_of_kseg0 ?_ ?_).trans ?_) <;> omega

theorem physical_add_kseg1 {p : Word} (hp : p.toNat < 0x20000000) : physical (p + 0xA0000000#32) = p := by
  have hadd : (p + 0xA0000000#32).toNat = p.toNat + 0xA0000000 := BitVec.toNat_add_of_lt (by rw [BitVec.toNat_ofNat]; omega)
  refine BitVec.eq_of_toNat_eq ((physical_of_kseg1 ?_ ?_).trans ?_) <;> omega

/-! ### Loads and fetches -/

theorem byteOf_ushiftRight (v : Word) (k i : Nat) : byteOf (v >>> (8 * k)) i = byteOf v (k + i) := by
  refine BitVec.eq_of_getLsbD_eq fun n _ => ?_
  rw [byteOf_bit, byteOf_bit, BitVec.getLsbD_ushiftRight, Nat.mul_add, Nat.add_assoc]

/-- The cache-control register's bytes from offset `k` up compose to its value shifted down by `k` bytes (R87, R93). -/
theorem memRead_ccr_shift (s : State) (w : Width) {va : Word} (h : ccrAddress va) :
    s.memRead w va = some (w.low (s.ccr >>> (8 * (va.toNat - 0xFFFE0130)))) := by
  rw [memRead_ccr s w h, ← compose_byteOf]
  exact congrArg some (compose_congr w fun i _ => (byteOf_ushiftRight ..).symm)

theorem load_unmapped (s : State) (w : Width) (rt : Reg) {va : Word} (extend : Word → Word) (h : unmappedAddress va) :
    s.load w rt va extend = .next (s.enterException (.addressLoadError va)) := by
  unfold State.load
  rw [memRead_unmapped s w h]
  split <;> rfl

theorem beginStep_fetch_eq_none {s : State} (h : s.pc.extractLsb' 0 2 ≠ 0#2 ∨ unmappedAddress s.pc) :
    s.beginStep.fetch = none := by
  rw [beginStep_fetch]
  split
  · exact memRead_unmapped s .word (h.resolve_left (not_not_intro ‹_›))
  · rfl

theorem fetch_of_aligned {s : State} (h : Width.word.aligned s.ipc = true) : s.fetch = s.memRead .word s.ipc :=
  if_pos h

/-! ### Reading back a store (R93, R103) -/

theorem memWrite_stores (s : State) (w : Width) {va : Word} (v : Word) (ha : w.aligned va = true) (hw : s.mem.wf = true)
    (hc : s.sr.getLsbD 16 = false) (hr : ccrAddress va ∨ ramAddress va) :
    s.StoresBytes (s.memWrite w va v) va w.bytes (byteOf v) := by
  rw [memWrite_open s w va v hc]
  exact busStore_stores s w v ha hw hr

theorem State.StoresBytes.memRead {s t : State} {w : Width} {va v : Word}
    (h : s.StoresBytes t va w.bytes (byteOf v)) (ha : w.aligned va = true) : t.memRead w va = some (w.low v) := by
  rw [← compose_byteOf]
  exact memRead_of_bytes t w ha (byteOf v) h.stored

theorem memWrite_ipc (s : State) (w : Width) (va v : Word) : (s.memWrite w va v).ipc = s.ipc := by
  rw [memWrite_only s w va v]

/-! ### What only a store moves (R102) -/

/-- `t` agrees with `s` in all that a store can reach: memory, the cache-control register and the diagnostic output. -/
structure SameBus (s t : State) : Prop where
  mem : t.mem = s.mem
  ccr : t.ccr = s.ccr
  diag : t.diag = s.diag

theorem SameBus.readByte {s t : State} (h : SameBus s t) (a : Word) : t.readByte a = s.readByte a :=
  readByte_congr h.mem h.ccr a

theorem Effect.sameBus {i : Instr} {s t : State} (h : Effect i s t) (hi : i.isStore = false) : SameBus s t := by
  cases h with
  | store hstore _ _ _ => exact absurd (hi.symm.trans hstore) Bool.false_ne_true
  | write _ _ _ h | link _ _ _ _ _ _ _ h => subst h; constructor <;> simp
  | trap _ h | delayed _ _ h | hiLo _ _ h | branch _ _ _ _ h | status _ _ _ h | softwareBits _ _ _ h | nothing h =>
    subst h; exact ⟨rfl, rfl, rfl⟩

/-! ### The obligations -/

/-- Settles O14: with no interrupt due and nothing fetched, the step is the entry into code 4 and the aging. -/
theorem stepTrapsOnFetchError : Obligations.StepTrapsOnFetchError := fun s hs hi hpc =>
  ⟨s.beginStep.enterException (.addressLoadError s.pc), step_fetchError hs hi (beginStep_fetch_eq_none hpc),
    enterException_enters s.beginStep (.addressLoadError s.pc)⟩

/-- Settles O28: one lemma per segment, and the KSEG0 and KSEG1 addresses of `p` follow from theirs. -/
theorem translateBySegment : Obligations.TranslateBySegment :=
  ⟨fun _ => ⟨physical_of_kuseg, physical_of_kseg0, physical_of_kseg1, physical_of_kseg2⟩, fun _ hp =>
    ⟨physical_of_kuseg (by omega), physical_add_kseg0 hp, physical_add_kseg1 hp⟩⟩

/-- Settles O29: one lemma per device. -/
theorem busLoadByDevice : Obligations.BusLoadByDevice := by
  intro s w va ha
  refine ⟨memRead_ccr_shift s w, memRead_ram s w ha, memRead_rom s w, memRead_stub s w, fun h =>
    ⟨memRead_unmapped s w h, fun rt extend => ?_⟩⟩
  exact ⟨_, load_unmapped s w rt extend h, enterException_enters s (.addressLoadError va)⟩

/-- Settles O30: the gate first, then one lemma per kind of device. -/
theorem storeByDevice : Obligations.StoreByDevice := by
  intro s w va v ha hw
  refine ⟨memWrite_isolated s w va v, fun hc => ⟨memWrite_stores s w v ha hw hc, ?_⟩⟩
  rw [memWrite_open s w va v hc]
  exact ⟨busStore_discarded s w v, busStore_unmapped s w v⟩

/-- Settles O31: the bytes a store leaves compose to its low part, and a fetch is an aligned word load at `ipc`, which no
store moves. -/
theorem storeThenLoadRoundTrip : Obligations.StoreThenLoadRoundTrip := by
  intro s w va v ha hw hc hr
  have hread : (s.memWrite w va v).memRead w va = some (w.low v) := (memWrite_stores s w v ha hw hc hr).memRead ha
  refine ⟨hread, ?_⟩
  rintro rfl rfl
  have hipc := memWrite_ipc s .word s.ipc v
  rw [fetch_of_aligned (by rwa [hipc]), hipc]
  exact hread

/-- Settles O32: the laws of the memory list. -/
theorem memoryListLaws : Obligations.MemoryListLaws :=
  ⟨fun _ _ _ hm => ⟨Memory.write_wf hm, Memory.read_write_same_from hm, fun _ => Memory.read_write_other⟩,
    fun _ _ => Memory.ext_from⟩

/-- Settles O35: of all effects only a store's moves memory, the cache-control register or the diagnostic output, and a
readable byte depends on the first two alone. -/
theorem onlyStoresWriteMemory : Obligations.OnlyStoresWriteMemory := by
  intro i s t h hi
  have hsame : SameBus s t := (exec_effect h).sameBus hi
  exact ⟨hsame.mem, hsame.ccr, hsame.diag, hsame.readByte⟩

end Sys2Proof.Machine
end

section
/-! PROOFS. The decoder, the encoder and the opcode table (30_encoding.md R121 to R136): what each dispatch answers for a word
written field by field, and that a row of the table claims exactly the words of its instruction. -/

namespace Sys2Proof

/-! ### The secondary dispatches (R129 to R131) -/

theorem decode_special {w : Word} (hop : opField w = 0x00#6) : decode w = decodeSpecial w := by rw [decode, hop]; rfl

theorem decode_regimm {w : Word} (hop : opField w = 0x01#6) : decode w = decodeRegimm w := by rw [decode, hop]; rfl

theorem decode_cop0 {w : Word} (hop : opField w = 0x10#6) : decode w = decodeCop0 w := by rw [decode, hop]; rfl

/-- The REGIMM words by `rt` (R130). -/
theorem decode_regimmWord (rs : Reg) (imm : BitVec 16) :
    decode (iWord 0x01#6 rs 0 imm) = .ok (.bltz rs imm) ∧ decode (iWord 0x01#6 rs 1 imm) = .ok (.bgez rs imm) ∧
    decode (iWord 0x01#6 rs 16 imm) = .ok (.bltzal rs imm) ∧ decode (iWord 0x01#6 rs 17 imm) = .ok (.bgezal rs imm) ∧
    ∀ rt : Reg, rt ≠ 0 → rt ≠ 1 → rt ≠ 16 → rt ≠ 17 → decode (iWord 0x01#6 rs rt imm) = .error .reservedRegimm := by
  simp only [decode_regimm (opField_iWord ..), decodeRegimm, rtField_iWord, rsField_iWord, immField_iWord, true_and]
  intro rt h0 h1 h16 h17
  split
  case h_5 => rfl
  all_goals contradiction

/-- The COP0 words by `rs` and `funct` (R131). -/
theorem decode_cop0Word (rt rd : Reg) (sa : BitVec 5) (f : BitVec 6) :
    decode (rWord 0x10#6 0 rt rd sa f) = .ok (.mfc0 rt rd) ∧ decode (rWord 0x10#6 4 rt rd sa f) = .ok (.mtc0 rt rd) ∧
    decode (rWord 0x10#6 16 rt rd sa 0x10#6) = .ok .rfe ∧
    (f ≠ 0x10#6 → decode (rWord 0x10#6 16 rt rd sa f) = .error .reservedCop0) ∧
    ∀ rs : Reg, rs ≠ 0 → rs ≠ 4 → rs ≠ 16 → decode (rWord 0x10#6 rs rt rd sa f) = .error .reservedCop0 := by
  simp only [decode_cop0 (opField_rWord ..), decodeCop0, rsField_rWord, rtField_rWord, rdField_rWord, functField_rWord,
    if_true, true_and]
  refine ⟨fun hf => if_neg hf, fun rs h0 h4 h16 => ?_⟩
  split
  case h_4 => rfl
  all_goals contradiction

/-! ### Masks (opcode_table.json) -/

/-- The mask of the `len` bits from `start` up. -/
def fieldMask (start len : Nat) : Word := (BitVec.allOnes len).setWidth 32 <<< start

theorem fieldMask_bit (start len i : Nat) :
    (fieldMask start len).getLsbD i = decide (i < 32 ∧ start ≤ i ∧ i < start + len) := by
  simp [fieldMask]; grind

theorem and_eq_and_iff (w p m : Word) :
    w &&& m = p &&& m ↔ ∀ i, m.getLsbD i = true → w.getLsbD i = p.getLsbD i := by
  refine ⟨fun h i hm => ?_, fun h => BitVec.eq_of_getLsbD_eq fun i _ => ?_⟩
  · simpa [hm] using congrArg (BitVec.getLsbD · i) h
  · rw [BitVec.getLsbD_and, BitVec.getLsbD_and]
    cases hm : m.getLsbD i
    · simp
    · rw [h i hm]

theorem and_or_eq_iff (w p a b : Word) :
    w &&& (a ||| b) = p &&& (a ||| b) ↔ w &&& a = p &&& a ∧ w &&& b = p &&& b := by
  simp only [and_eq_and_iff, BitVec.getLsbD_or, Bool.or_eq_true, or_imp, forall_and]

theorem and_fieldMask_eq_iff (w p : Word) (start len : Nat) :
    w &&& fieldMask start len = p &&& fieldMask start len ↔ w.extractLsb' start len = p.extractLsb' start len := by
  simp only [and_eq_and_iff, fieldMask_bit, decide_eq_true_iff]
  refine ⟨fun hbits => BitVec.eq_of_getLsbD_eq fun i hi => ?_, fun heq i ⟨_, hlo, hhi⟩ => ?_⟩
  · by_cases h32 : start + i < 32
    · simp [hi, hbits (start + i) ⟨h32, by omega, by omega⟩]
    · simp [BitVec.getLsbD_of_ge _ (start + i) (Nat.not_lt.1 h32)]
  · have hlt : i - start < len := by omega
    simpa [hlt, Nat.add_sub_cancel' hlo] using congrArg (BitVec.getLsbD · (i - start)) heq

/-! ### The words a row claims, by the fields its mask fixes -/

theorem rsField_eq_iff (w p : Word) : rsField w = rsField p ↔ w.extractLsb' 21 5 = p.extractLsb' 21 5 := BitVec.toFin_inj

theorem rtField_eq_iff (w p : Word) : rtField w = rtField p ↔ w.extractLsb' 16 5 = p.extractLsb' 16 5 := BitVec.toFin_inj

section
variable {mnemonic : String} {p w : Word}

theorem claims_iff {m : Word} (hp : p &&& m = p) :
    EncodingRow.claims ⟨mnemonic, p, m⟩ w = true ↔ w &&& m = p &&& m := by
  rw [hp, EncodingRow.claims, decide_eq_true_iff]

theorem claims_op_iff (hp : p &&& 0xFC000000#32 = p) :
    EncodingRow.claims ⟨mnemonic, p, 0xFC000000#32⟩ w = true ↔ opField w = opField p := by
  rw [claims_iff hp, show 0xFC000000#32 = fieldMask 26 6 by decide, and_fieldMask_eq_iff]
  rfl

theorem claims_op_funct_iff (hp : p &&& 0xFC00003F#32 = p) :
    EncodingRow.claims ⟨mnemonic, p, 0xFC00003F#32⟩ w = true ↔ opField w = opField p ∧ functField w = functField p := by
  rw [claims_iff hp, show 0xFC00003F#32 = fieldMask 26 6 ||| fieldMask 0 6 by decide, and_or_eq_iff]
  simp only [and_fieldMask_eq_iff]
  rfl

theorem claims_op_rt_iff (hp : p &&& 0xFC1F0000#32 = p) :
    EncodingRow.claims ⟨mnemonic, p, 0xFC1F0000#32⟩ w = true ↔ opField w = opField p ∧ rtField w = rtField p := by
  rw [claims_iff hp, show 0xFC1F0000#32 = fieldMask 26 6 ||| fieldMask 16 5 by decide, and_or_eq_iff, rtField_eq_iff]
  simp only [and_fieldMask_eq_iff]
  rfl

theorem claims_op_rs_iff (hp : p &&& 0xFFE00000#32 = p) :
    EncodingRow.claims ⟨mnemonic, p, 0xFFE00000#32⟩ w = true ↔ opField w = opField p ∧ rsField w = rsField p := by
  rw [claims_iff hp, show 0xFFE00000#32 = fieldMask 26 6 ||| fieldMask 21 5 by decide, and_or_eq_iff, rsField_eq_iff]
  simp only [and_fieldMask_eq_iff]
  rfl

theorem claims_op_rs_funct_iff (hp : p &&& 0xFFE0003F#32 = p) :
    EncodingRow.claims ⟨mnemonic, p, 0xFFE0003F#32⟩ w = true ↔
      opField w = opField p ∧ rsField w = rsField p ∧ functField w = functField p := by
  rw [claims_iff hp, show 0xFFE0003F#32 = fieldMask 26 6 ||| (fieldMask 21 5 ||| fieldMask 0 6) by decide, and_or_eq_iff,
    and_or_eq_iff, rsField_eq_iff]
  simp only [and_fieldMask_eq_iff]
  rfl

end

/-! ### A decoded word is claimed by its instruction's row -/

theorem decodeSpecial_claims {w : Word} {i : Instr} (hop : opField w = 0x00#6) (h : decodeSpecial w = .ok i) :
    i.row.claims w = true := by
  unfold decodeSpecial at h
  split at h <;> cases h
  all_goals exact (claims_op_funct_iff (by decide)).2 ⟨hop, ‹functField w = _›⟩

theorem decodeRegimm_claims {w : Word} {i : Instr} (hop : opField w = 0x01#6) (h : decodeRegimm w = .ok i) :
    i.row.claims w = true := by
  unfold decodeRegimm at h
  split at h <;> cases h
  all_goals exact (claims_op_rt_iff (by decide)).2 ⟨hop, ‹rtField w = _›⟩

theorem decodeCop0_claims {w : Word} {i : Instr} (hop : opField w = 0x10#6) (h : decodeCop0 w = .ok i) :
    i.row.claims w = true := by
  unfold decodeCop0 at h
  split at h
  case h_1 hrs | h_2 hrs => cases h; exact (claims_op_rs_iff (by decide)).2 ⟨hop, hrs⟩
  case h_3 hrs =>
    split at h <;> cases h
    exact (claims_op_rs_funct_iff (by decide)).2 ⟨hop, hrs, ‹functField w = _›⟩
  case h_4 => cases h

theorem decode_claims {w : Word} {i : Instr} (h : decode w = .ok i) : i.row.claims w = true := by
  unfold decode at h
  split at h
  case h_1 hop => exact decodeSpecial_claims hop h
  case h_2 hop => exact decodeRegimm_claims hop h
  case h_17 hop => exact decodeCop0_claims hop h
  all_goals cases h
  all_goals exact (claims_op_iff (by decide)).2 ‹opField w = _›

/-! ### A word that a row claims decodes to an instruction of the row -/

/-- The row of the instruction that a word decodes to. -/
def decodedRow (w : Word) : Except DecodeReject EncodingRow := (decode w).map Instr.row

theorem decodedRow_eq_ok_iff {w : Word} {r : EncodingRow} : decodedRow w = .ok r ↔ ∃ i, decode w = .ok i ∧ i.row = r := by
  unfold decodedRow
  cases decode w <;> simp [Except.map]

/-- The fields that the mask fixes lead each dispatch to the instruction's arm. -/
theorem decodedRow_of_claims {w : Word} (i : Instr) (h : i.row.claims w = true) : decodedRow w = .ok i.row := by
  unfold decodedRow
  cases i
  case bltz | bgez | bltzal | bgezal =>
    obtain ⟨hop, hrt⟩ := (claims_op_rt_iff (by decide)).1 h
    rw [decode_regimm hop, decodeRegimm, hrt]; rfl
  case mfc0 | mtc0 =>
    obtain ⟨hop, hrs⟩ := (claims_op_rs_iff (by decide)).1 h
    rw [decode_cop0 hop, decodeCop0, hrs]; rfl
  case rfe =>
    obtain ⟨hop, hrs, hf⟩ := (claims_op_rs_funct_iff (by decide)).1 h
    rw [decode_cop0 hop, decodeCop0, hrs, hf]; rfl
  case j | jal | beq | bne | blez | bgtz | addi | addiu | slti | sltiu | andi | ori | xori | lui | cop1 | cop2 | cop3 | lb | lh
      | lwl | lw | lbu | lhu | lwr | sb | sh | swl | sw | swr | lwc0 | lwc1 | lwc2 | lwc3 | swc0 | swc1 | swc2 | swc3 =>
    have hop := (claims_op_iff (by decide)).1 h
    rw [decode, hop]; rfl
  all_goals
    obtain ⟨hop, hf⟩ := (claims_op_funct_iff (by decide)).1 h
    rw [decode_special hop, decodeSpecial, hf]; rfl

theorem row_mem_opcodeTable (i : Instr) : i.row ∈ opcodeTable := by
  cases i <;> (rw [Instr.row]; decide)

theorem exists_row_of_mem {r : EncodingRow} (h : r ∈ opcodeTable) : ∃ i : Instr, i.row = r := by
  obtain ⟨i, -, hi⟩ := List.mem_map.1 h
  exact ⟨i, hi⟩

/-- A row of the table claims exactly the words that decode to an instruction of it. -/
theorem claims_iff_decodedRow {w : Word} {r : EncodingRow} (hr : r ∈ opcodeTable) :
    r.claims w = true ↔ decodedRow w = .ok r := by
  constructor
  · obtain ⟨i, rfl⟩ := exists_row_of_mem hr
    exact decodedRow_of_claims i
  · intro h
    obtain ⟨i, hd, rfl⟩ := decodedRow_eq_ok_iff.1 h
    exact decode_claims hd

/-! ### The obligations -/

/-- Settles O3: the R-format's fields read back, so that `funct` alone selects the arm. -/
theorem specialWordsDecode : Obligations.SpecialWordsDecode := by
  intro rs rt rd sa
  simp only [decode_special (opField_rWord ..), decodeSpecial, functField_rWord, rsField_rWord, rtField_rWord,
    rdField_rWord, saField_rWord, true_and]
  intro f hlow hhigh
  split
  case h_29 => rfl
  all_goals simp at hlow hhigh

/-- Settles O4: the I-format's and the J-format's fields read back, so that `op` alone selects the arm. -/
theorem primaryWordsDecode : Obligations.PrimaryWordsDecode := by
  refine ⟨fun rs rt imm => ?_, fun x => ?_⟩
  · simp only [decode, opField_iWord, rsField_iWord, rtField_iWord, immField_iWord, and_self]
  · simp only [decode, opField_jWord, targetField_jWord, true_and]
    intro op hop
    split
    case h_41 => rfl
    all_goals simp at hop

/-- Settles O1: `encode` writes each word in the form that the statements about the four maps speak of. -/
theorem decodeEncodeRoundTrip : Obligations.DecodeEncodeRoundTrip := by
  have hspecial := specialWordsDecode
  unfold Obligations.SpecialWordsDecode at hspecial
  obtain ⟨himmediate, hjump⟩ := primaryWordsDecode
  obtain ⟨-, -, hrfe, -⟩ := decode_cop0Word 0 0 0#5 0x10#6
  intro i
  cases i <;> simp only [encode, hspecial, himmediate, hjump, decode_regimmWord, decode_cop0Word, hrfe]

/-- Settles O2: a row of the table claims a word exactly when it is the row of the decoded instruction, and a word has one
such row. -/
theorem decoderFollowsOpcodeTable : Obligations.DecoderFollowsOpcodeTable := by
  refine ⟨fun w i hd => ⟨row_mem_opcodeTable i, decode_claims hd⟩, fun w r hr hc => ?_, fun w r r' hr hr' hc hc' => ?_⟩
  · exact decodedRow_eq_ok_iff.1 ((claims_iff_decodedRow hr).1 hc)
  · have hd := (claims_iff_decodedRow hr).1 hc
    have hd' := (claims_iff_decodedRow hr').1 hc'
    exact Except.ok.inj (hd.symm.trans hd')

/-- Settles O6 by evaluation of the decoder on closed words. -/
theorem sampleWordsDecode : Obligations.SampleWordsDecode := by
  unfold Obligations.SampleWordsDecode
  decide

end Sys2Proof
end

section
/-! PROOFS. Words that are no instruction, and the COP0 usability check (30_encoding.md R131, R133; 44_system_cop.md R270, R277,
R287). -/

namespace Sys2Proof.Machine

/-! ### The usability check -/

theorem ifCop0Usable_closed {s : State} (h : ¬ s.Cop0Open) (effect : Result) :
    s.ifCop0Usable effect = .next (s.enterException (.coprocessorUnusable 0#2)) := by
  have hu : ¬ s.cop0Usable = true := fun hu => h ((cop0Usable_iff s).1 hu)
  rw [State.ifCop0Usable, if_neg hu]
  rfl

theorem decodeCop0_cases (w : Word) :
    decodeCop0 w = .ok (.mfc0 (rtField w) (rdField w)) ∨ decodeCop0 w = .ok (.mtc0 (rtField w) (rdField w)) ∨
    decodeCop0 w = .ok .rfe ∨ decodeCop0 w = .error .reservedCop0 := by
  unfold decodeCop0
  split
  · exact .inl rfl
  · exact .inr (.inl rfl)
  · split
    · exact .inr (.inr (.inl rfl))
    · exact .inr (.inr (.inr rfl))
  · exact .inr (.inr (.inr rfl))

/-- Every op-16 word, the reserved ones too, is checked for usability first (R131, R270, R277). -/
theorem execWord_cop0_closed {w : Word} {s : State} (hop : opField w = 0x10#6) (h : ¬ s.Cop0Open) :
    execWord w s = .next (s.enterException (.coprocessorUnusable 0#2)) := by
  have hd := decode_cop0 hop
  obtain hc | hc | hc | hc := decodeCop0_cases w
  case inr.inr.inr => rw [execWord_error (hd.trans hc), execReject_next, if_pos ⟨rfl, h⟩]
  all_goals exact (execWord_ok (hd.trans hc) s).trans (ifCop0Usable_closed h _)

/-! ### The obligations -/

/-- Settles O5: the REGIMM and COP0 words by their fields, and the check that every op-16 word meets. -/
theorem regimmAndCop0WordsDecode : Obligations.RegimmAndCop0WordsDecode :=
  ⟨decode_regimmWord, decode_cop0Word, fun _ s h =>
    ⟨_, execWord_cop0_closed (opField_jWord ..) h, enterException_enters s (.coprocessorUnusable 0#2)⟩⟩

/-- Settles O12: of the four endings of a step only the fetched word's is left, and `execReject` answers the entry. -/
theorem stepTrapsOnReservedWord : Obligations.StepTrapsOnReservedWord := by
  intro s w e hs hi ha hread hd
  have hstep := step_word hs hi (beginStep_fetch_of_read ha hread)
  rw [execWord_error hd, execReject_next] at hstep
  refine ⟨_, hstep, fun h => ?_, fun h => ?_⟩
  · rw [if_neg fun h' => h.elim (· h'.1) h'.2]
    exact enterException_enters s.beginStep.advance .reservedInstruction
  · have hclosed : e = .reservedCop0 ∧ ¬ s.beginStep.advance.Cop0Open := h
    rw [if_pos hclosed]
    exact enterException_enters s.beginStep.advance (.coprocessorUnusable 0#2)

end Sys2Proof.Machine
end

section
/-! PROOFS. The ALU instructions (40_alu.md R151 to R176): the value each writes, in the arithmetic of its rule, and when an
addition or a subtraction traps. -/

namespace Sys2Proof.Machine

/-! ### Operands and results -/

theorem immS_toInt (imm : BitVec 16) : (immS imm).toInt = imm.toInt := BitVec.toInt_signExtend_of_le (by decide)

/-- LUI's operand is the immediate times 65,536 (30_encoding.md R125). -/
theorem immUpper_eq (imm : BitVec 16) : immUpper imm = BitVec.ofNat 32 (imm.toNat * 65536) := by
  apply BitVec.eq_of_toNat_eq
  have himm := imm.isLt
  rw [immUpper, BitVec.toNat_append, Nat.shiftLeft_eq, BitVec.toNat_ofNat, BitVec.toNat_ofNat, Nat.zero_mod, Nat.or_zero]
  omega

theorem boolWord_decide (p : Prop) [Decidable p] : boolWord (decide p) = if p then 1#32 else 0#32 := by
  simp only [boolWord, decide_eq_true_eq]

theorem boolWord_ltSigned_immS (a : Word) (imm : BitVec 16) :
    boolWord (ltSigned a (immS imm)) = if a.toInt < imm.toInt then 1#32 else 0#32 := by
  rw [ltSigned, immS_toInt, boolWord_decide]

/-! ### Shifts as arithmetic (R161 to R166) -/

theorem shiftAmount_toNat (v : Word) : (shiftAmount v).toNat = v.toNat % 32 := low_bits_toNat v 5

theorem shiftLeft_eq_mul (v : Word) (n : BitVec 5) : shiftLeft v n = BitVec.ofNat 32 (v.toNat * 2 ^ n.toNat) := by
  apply BitVec.eq_of_toNat_eq
  rw [shiftLeft, BitVec.toNat_shiftLeft, Nat.shiftLeft_eq, BitVec.toNat_ofNat]

theorem shiftRightLogical_eq_div (v : Word) (n : BitVec 5) :
    shiftRightLogical v n = BitVec.ofNat 32 (v.toNat / 2 ^ n.toNat) := by
  rw [← Nat.shiftRight_eq_div_pow, ← BitVec.toNat_ushiftRight, BitVec.ofNat_toNat, BitVec.setWidth_eq]
  rfl

theorem shiftRightArith_eq_div (v : Word) (n : BitVec 5) :
    shiftRightArith v n = BitVec.ofInt 32 (v.toInt / 2 ^ n.toNat) := by
  have hpow : ((2 ^ n.toNat : Nat) : Int) = 2 ^ n.toNat := by push_cast; rfl
  rw [← hpow, ← Int.shiftRight_eq_div_pow, ← BitVec.toInt_sshiftRight, BitVec.ofInt_toInt]
  rfl

/-! ### Signed overflow (R176) -/

theorem fitsSigned32_iff (n : Int) : fitsSigned32 n = true ↔ -2 ^ 31 ≤ n ∧ n ≤ 2 ^ 31 - 1 := by
  simp [fitsSigned32]

theorem fitsSigned32_eq_false_iff (n : Int) : fitsSigned32 n = false ↔ n < -2 ^ 31 ∨ n > 2 ^ 31 - 1 := by
  rw [← Bool.not_eq_true, fitsSigned32_iff]
  omega

theorem addOverflows_iff (a b : Word) :
    addOverflows a b = true ↔ a.toInt + b.toInt < -2 ^ 31 ∨ a.toInt + b.toInt > 2 ^ 31 - 1 := by
  rw [addOverflows, Bool.not_eq_true', fitsSigned32_eq_false_iff]

theorem subOverflows_iff (a b : Word) :
    subOverflows a b = true ↔ a.toInt - b.toInt < -2 ^ 31 ∨ a.toInt - b.toInt > 2 ^ 31 - 1 := by
  rw [subOverflows, Bool.not_eq_true', fitsSigned32_eq_false_iff]

theorem addOverflows_eq_saddOverflow (a b : Word) : addOverflows a b = a.saddOverflow b := by
  rw [Bool.eq_iff_iff, addOverflows_iff, BitVec.saddOverflow, Bool.or_eq_true, decide_eq_true_iff, decide_eq_true_iff]
  omega

theorem subOverflows_eq_ssubOverflow (a b : Word) : subOverflows a b = a.ssubOverflow b := by
  rw [Bool.eq_iff_iff, subOverflows_iff, BitVec.ssubOverflow, Bool.or_eq_true, decide_eq_true_iff, decide_eq_true_iff]
  omega

theorem addOverflows_eq_ovfAdd (a b : Word) : addOverflows a b = ovfAdd a b :=
  (addOverflows_eq_saddOverflow a b).trans (BitVec.saddOverflow_eq a b)

/-- The library's test names the two sign patterns that overflow; the rule's says that the signs differ and the result's is
not the minuend's. -/
theorem subOverflows_eq_ovfSub (a b : Word) : subOverflows a b = ovfSub a b := by
  rw [subOverflows_eq_ssubOverflow, BitVec.ssubOverflow_eq, ovfSub]
  generalize a.msb = x, b.msb = y, (a - b).msb = z
  revert x y z
  decide

theorem toInt_add_of_not_overflows {a b : Word} (h : addOverflows a b = false) : (a + b).toInt = a.toInt + b.toInt := by
  rw [addOverflows_eq_saddOverflow] at h
  exact BitVec.toInt_add_of_not_saddOverflow (Bool.not_eq_true _ ▸ h)

theorem toInt_sub_of_not_overflows {a b : Word} (h : subOverflows a b = false) : (a - b).toInt = a.toInt - b.toInt := by
  rw [subOverflows_eq_ssubOverflow] at h
  exact BitVec.toInt_sub_of_not_ssubOverflow (Bool.not_eq_true _ ▸ h)

theorem ovfAdd_iff_bits (a b : Word) :
    ovfAdd a b = true ↔ a.getLsbD 31 = b.getLsbD 31 ∧ (a + b).getLsbD 31 ≠ a.getLsbD 31 := by
  rw [ovfAdd, Bool.and_eq_true, beq_iff_eq, bne_iff_ne]
  rfl

theorem ovfSub_iff_bits (a b : Word) :
    ovfSub a b = true ↔ a.getLsbD 31 ≠ b.getLsbD 31 ∧ (a - b).getLsbD 31 ≠ a.getLsbD 31 := by
  rw [ovfSub, Bool.and_eq_true, bne_iff_ne, bne_iff_ne]
  rfl

/-! ### What an ALU instruction answers (R150) -/

theorem completes_of_exec {i : Instr} {s : State} {r : Reg} {v w : Word} (h : exec i s = .next (s.writeReg r v))
    (hv : v = w) : ∃ t, exec i s = .next t ∧ s.WritesReg t r w :=
  ⟨_, h, hv ▸ writeReg_writesReg s r v⟩

/-- A trapping instruction by its exact result `n`: it writes `n` where `n` fits and enters ArithmeticOverflow where not. -/
theorem completes_or_overflows {i : Instr} {s : State} {r : Reg} {overflows : Bool} {v : Word} {n : Int}
    (h : exec i s = s.writeTrapping r overflows v) (hfits : overflows = !fitsSigned32 n)
    (hv : overflows = false → v.toInt = n) :
    (-2 ^ 31 ≤ n ∧ n ≤ 2 ^ 31 - 1 → ∃ t w, exec i s = .next t ∧ s.WritesReg t r w ∧ w.toInt = n) ∧
    (n < -2 ^ 31 ∨ n > 2 ^ 31 - 1 → ∃ t, exec i s = .next t ∧ s.EntersException t 12#5 none none) := by
  rw [← fitsSigned32_iff, ← fitsSigned32_eq_false_iff]
  constructor
  · intro hin
    have hno : overflows = false := by rw [hfits, hin]; rfl
    exact ⟨_, v, h.trans (by rw [hno]; rfl), writeReg_writesReg s r v, hv hno⟩
  · intro hout
    have hyes : overflows = true := by rw [hfits, hout]; rfl
    exact ⟨_, h.trans (by rw [hyes]; rfl), enterException_enters s .arithmeticOverflow⟩

/-! ### The obligations -/

/-- Settles O37: the exact-range test is the library's signed-overflow test, whose bit form is the rule's. -/
theorem overflowBitTest : Obligations.OverflowBitTest := fun a b =>
  ⟨addOverflows_eq_ovfAdd a b, subOverflows_eq_ovfSub a b, ovfAdd_iff_bits a b, ovfSub_iff_bits a b,
    addOverflows_eq_ovfAdd a b ▸ addOverflows_iff a b, subOverflows_eq_ovfSub a b ▸ subOverflows_iff a b⟩

/-- Settles O36: where the exact result fits the wrapped one has its value, and otherwise the one exception is entered. -/
theorem trappingAddSub : Obligations.TrappingAddSub := by
  have hspecial rs rt rd sa := specialWordsDecode rs rt rd sa
  obtain ⟨himmediate, -⟩ := primaryWordsDecode
  refine ⟨fun rd rs rt sa s => ?_, fun rt rs imm s => ?_⟩
  · simp only [hspecial, true_and]
    constructor
    · rintro _ rfl
      exact completes_or_overflows rfl rfl toInt_add_of_not_overflows
    · rintro _ rfl
      exact completes_or_overflows rfl rfl toInt_sub_of_not_overflows
  · simp only [himmediate, true_and, ← immS_toInt]
    rintro _ rfl
    exact completes_or_overflows rfl rfl toInt_add_of_not_overflows

/-- Settles O38: each writes the sum or difference of words, which wraps, in every state. -/
theorem wrappingAddSub : Obligations.WrappingAddSub := by
  have hspecial rs rt rd sa := specialWordsDecode rs rt rd sa
  obtain ⟨himmediate, -⟩ := primaryWordsDecode
  refine ⟨fun rd rs rt sa s => ?_, fun rt rs imm s => ?_⟩
  · simp only [hspecial, true_and]
    exact ⟨completes_of_exec rfl rfl, completes_of_exec rfl rfl⟩
  · simp only [himmediate, true_and]
    exact completes_of_exec rfl rfl

/-- Settles O39: the bitwise results are the words the instructions write; LUI's operand is its immediate shifted up. -/
theorem logicResults : Obligations.LogicResults := by
  have hspecial rs rt rd sa := specialWordsDecode rs rt rd sa
  obtain ⟨himmediate, -⟩ := primaryWordsDecode
  refine ⟨fun rd rs rt sa s => ?_, fun rt rs imm s => ?_⟩
  · simp only [hspecial, true_and]
    exact ⟨completes_of_exec rfl rfl, completes_of_exec rfl rfl, completes_of_exec rfl rfl, completes_of_exec rfl rfl⟩
  · simp only [himmediate, true_and]
    exact ⟨completes_of_exec rfl rfl, completes_of_exec rfl rfl, completes_of_exec rfl rfl,
      completes_of_exec rfl (immUpper_eq imm)⟩

/-- Settles O40: each writes its comparison as a word; sign extension keeps the immediate's signed value. -/
theorem setOnLessThan : Obligations.SetOnLessThan := by
  have hspecial rs rt rd sa := specialWordsDecode rs rt rd sa
  obtain ⟨himmediate, -⟩ := primaryWordsDecode
  refine ⟨fun rd rs rt sa s => ?_, fun rt rs imm s => ?_⟩
  · simp only [hspecial, true_and]
    exact ⟨completes_of_exec rfl (boolWord_decide _), completes_of_exec rfl (boolWord_decide _)⟩
  · simp only [himmediate, true_and]
    exact ⟨completes_of_exec rfl (boolWord_ltSigned_immS ..), completes_of_exec rfl (boolWord_decide _)⟩

/-- Settles O41: the three shifts as arithmetic, and the variable amount as the low five bits of its register. -/
theorem shiftResults : Obligations.ShiftResults := by
  have hspecial rs rt rd sa := specialWordsDecode rs rt rd sa
  intro rd rt rs sa s
  simp only [hspecial, true_and, ← shiftAmount_toNat]
  exact ⟨completes_of_exec rfl (shiftLeft_eq_mul ..), completes_of_exec rfl (shiftRightLogical_eq_div ..),
    completes_of_exec rfl (shiftRightArith_eq_div ..), completes_of_exec rfl (shiftLeft_eq_mul ..),
    completes_of_exec rfl (shiftRightLogical_eq_div ..), completes_of_exec rfl (shiftRightArith_eq_div ..)⟩

end Sys2Proof.Machine
end

section
/-! PROOFS. Multiply, divide and the HI/LO moves (41_muldiv.md R190 to R198): the value of each product, quotient and
remainder, and that nothing but HI and LO moves. -/

namespace Sys2Proof.Machine

/-! ### HI and LO -/

theorem writeHiLo_onlyHiLo (s : State) (p : Word × Word) : s.OnlyHiLo (s.writeHiLo p) where
  rest := rfl
  regs := s.writeHiLo_reg p
  bytes := s.writeHiLo_readByte p

theorem splitProduct_append (p : BitVec 64) : (splitProduct p).1 ++ (splitProduct p).2 = p :=
  BitVec.extractLsb'_append_extractLsb' (w := 32) (len := 32)

/-! ### Products (R191, R192) -/

/-- A product of signed words is at most 2^62 in absolute value, so 64 bits hold it. -/
theorem mulSigned_toInt (a b : Word) : ((mulSigned a b).1 ++ (mulSigned a b).2).toInt = a.toInt * b.toInt := by
  have hlow := BitVec.le_toInt_mul_toInt (x := a) (y := b)
  have hhigh := BitVec.toInt_mul_toInt_le (x := a) (y := b)
  rw [mulSigned, splitProduct_append]
  exact BitVec.toInt_ofInt_eq_self (by decide) (by omega) (by omega)

theorem mulUnsigned_toNat (a b : Word) : ((mulUnsigned a b).1 ++ (mulUnsigned a b).2).toNat = a.toNat * b.toNat := by
  have hlt : a.toNat * b.toNat < 2 ^ 32 * 2 ^ 32 := Nat.mul_lt_mul'' a.isLt b.isLt
  rw [mulUnsigned, splitProduct_append]
  exact Nat.mod_eq_of_lt hlt

/-! ### Quotients and remainders (R193, R194) -/

theorem divSigned_of_zero {a b : Word} (hb : b.toInt = 0) :
    divSigned a b = (a, if a.toInt ≥ 0 then 0xFFFFFFFF#32 else 0x00000001#32) := if_pos hb

theorem divSigned_of_overflow {a b : Word} (ha : a.toInt = -2 ^ 31) (hb : b.toInt = -1) :
    divSigned a b = (0#32, 0x80000000#32) := by
  rw [divSigned, ha, hb]
  rfl

/-- In an ordinary division the model's results are the library's remainder and quotient of words. -/
theorem divSigned_of_ordinary {a b : Word} (hzero : b.toInt ≠ 0) (hover : ¬ (a.toInt = -2 ^ 31 ∧ b.toInt = -1)) :
    divSigned a b = (a.srem b, a.sdiv b) := by
  have hrem : BitVec.ofInt 32 (a.toInt - b.toInt * a.toInt.tdiv b.toInt) = a.srem b := by
    rw [← Int.tmod_def, ← BitVec.toInt_srem, BitVec.ofInt_toInt]
  have hquot : BitVec.ofInt 32 (a.toInt.tdiv b.toInt) = a.sdiv b := by
    apply BitVec.eq_of_toInt_eq
    rw [BitVec.toInt_ofInt, BitVec.toInt_sdiv]
  rw [← hrem, ← hquot]
  exact (if_neg hzero).trans (if_neg hover)

theorem sdiv_toInt_of_not_overflow {a b : Word} (hover : ¬ (a.toInt = -2 ^ 31 ∧ b.toInt = -1)) :
    (a.sdiv b).toInt = a.toInt.tdiv b.toInt := by
  apply BitVec.toInt_sdiv_of_ne_or_ne
  rw [← not_and_or]
  rintro ⟨rfl, rfl⟩
  exact hover ⟨rfl, rfl⟩

theorem divUnsigned_of_zero {a b : Word} (hb : b.toNat = 0) : divUnsigned a b = (a, 0xFFFFFFFF#32) := if_pos hb

theorem divUnsigned_of_ne_zero {a b : Word} (hb : b.toNat ≠ 0) : divUnsigned a b = (a % b, a / b) := by
  rw [divUnsigned, if_neg hb, ← BitVec.toNat_umod, ← BitVec.toNat_udiv, BitVec.ofNat_toNat, BitVec.ofNat_toNat,
    BitVec.setWidth_eq, BitVec.setWidth_eq]

/-! ### The obligations -/

/-- Settles O42: 64 bits hold either product, and HI followed by LO is all of them. -/
theorem multiplyResults : Obligations.MultiplyResults := by
  intro rs rt rd sa s
  have hspecial := specialWordsDecode rs rt rd sa
  simp only [hspecial, true_and]
  exact ⟨⟨_, rfl, writeHiLo_onlyHiLo .., mulSigned_toInt ..⟩, ⟨_, rfl, writeHiLo_onlyHiLo .., mulUnsigned_toNat ..⟩⟩

/-- Settles O43: one equation for HI and LO per case of the rules; an ordinary signed division is the library's. -/
theorem divideResults : Obligations.DivideResults := by
  rintro rs rt rd sa s _ _ rfl rfl
  have hspecial := specialWordsDecode rs rt rd sa
  simp only [hspecial, true_and]
  constructor
  · refine ⟨_, rfl, writeHiLo_onlyHiLo .., fun hzero => ?_, fun hmin hminus => ?_, fun hzero hover => ?_⟩
    · rw [divSigned_of_zero hzero]
      exact ⟨rfl, rfl⟩
    · rw [divSigned_of_overflow hmin hminus]
      exact ⟨rfl, rfl⟩
    · rw [divSigned_of_ordinary hzero hover, ← Int.tmod_def]
      exact ⟨sdiv_toInt_of_not_overflow hover, BitVec.toInt_srem ..⟩
  · refine ⟨_, rfl, writeHiLo_onlyHiLo .., fun hzero => ?_, fun hne => ?_⟩
    · rw [divUnsigned_of_zero hzero]
      exact ⟨rfl, rfl⟩
    · rw [divUnsigned_of_ne_zero hne]
      exact ⟨BitVec.toNat_udiv, BitVec.toNat_umod⟩

/-- Settles O44: the reads are synchronous writes of a register, and each write keeps the other half of HI and LO. -/
theorem hiLoMoves : Obligations.HiLoMoves := by
  intro rs rt rd sa s
  have hspecial := specialWordsDecode rs rt rd sa
  simp only [hspecial, true_and]
  exact ⟨completes_of_exec rfl rfl, completes_of_exec rfl rfl,
    ⟨_, rfl, writeHiLo_onlyHiLo s (s.reg rs, s.lo), rfl, rfl⟩, ⟨_, rfl, writeHiLo_onlyHiLo s (s.hi, s.reg rs), rfl, rfl⟩⟩

end Sys2Proof.Machine
end

section
/-! PROOFS. Branches and jumps (42_branch_jump.md R210 to R224): each is refused in a delay slot and otherwise ends with
`BranchTo`; the condition, the link and the target that it does so with. -/

namespace Sys2Proof.Machine

/-! ### The delay-slot check and the redirect (R210, R211; 15_pipeline.md R75) -/

theorem unlessInDelay_of_inDelay {s : State} (hs : s.inDelay = true) (t : State) :
    s.unlessInDelay t = .refused .branchInDelaySlot := if_pos hs

theorem unlessInDelay_of_not_inDelay {s : State} (hs : s.inDelay = false) (t : State) : s.unlessInDelay t = .next t :=
  if_neg (Bool.eq_false_iff.1 hs)

theorem branchTo_redirects (s : State) (taken : Bool) (target : Word) :
    s.Redirects (s.branchTo taken target) taken target where
  branch := rfl
  took := rfl
  npc := rfl
  rest := rfl
  regs _ := rfl
  bytes _ := rfl

/-- A branch or jump without a link. The rule's condition may be spelt otherwise than the model's. -/
theorem redirects_of_exec {i : Instr} {s : State} {taken cond : Bool} {target : Word} (hs : s.inDelay = false)
    (h : exec i s = s.unlessInDelay (s.branchTo taken target)) (hcond : taken = cond) :
    ∃ t, exec i s = .next t ∧ s.Redirects t cond target :=
  ⟨_, h.trans (unlessInDelay_of_not_inDelay hs _), hcond ▸ branchTo_redirects s taken target⟩

/-- A branch or jump with a link: `u` is the state between the link and the redirect. -/
theorem links_of_exec {i : Instr} {s : State} {r : Reg} {v : Word} {taken cond : Bool} {target : Word}
    (hs : s.inDelay = false) (h : exec i s = s.unlessInDelay ((s.writeReg r v).branchTo taken target))
    (hcond : taken = cond) :
    ∃ u t, exec i s = .next t ∧ s.WritesReg u r v ∧ u.Redirects t cond target :=
  ⟨_, _, h.trans (unlessInDelay_of_not_inDelay hs _), writeReg_writesReg s r v, hcond ▸ branchTo_redirects _ taken target⟩

/-! ### Conditions on the sign bit (R220 to R223) -/

theorem signBit_eq_decide_neg (v : Word) : v.getLsbD 31 = decide (v.toInt < 0) :=
  (BitVec.msb_eq_getLsbD_last v).symm.trans BitVec.msb_eq_toInt

theorem not_signBit_eq_decide_nonneg (v : Word) : (!v.getLsbD 31) = decide (v.toInt ≥ 0) := by
  rw [signBit_eq_decide_neg, ← decide_not, decide_eq_decide]
  exact Int.not_lt

/-! ### Targets (30_encoding.md R126, R127; R224) -/

theorem branchTarget_aligned {ipc : Word} (h : ipc.extractLsb' 0 2 = 0#2) (imm : BitVec 16) :
    (branchTarget ipc imm).extractLsb' 0 2 = 0#2 := by
  have hoffset : (immS imm <<< 2).toNat % 4 = 0 := by
    rw [BitVec.toNat_shiftLeft, Nat.shiftLeft_eq]
    omega
  rw [← toNat_mod_four] at h ⊢
  rw [branchTarget, BitVec.toNat_add, BitVec.toNat_add, BitVec.toNat_ofNat]
  omega

theorem jumpTarget_aligned (ipc : Word) (x : BitVec 26) : (jumpTarget ipc x).extractLsb' 0 2 = 0#2 := by
  rw [← toNat_mod_four, jumpTarget, BitVec.toNat_append, Nat.shiftLeft_eq, BitVec.toNat_ofNat, Nat.zero_mod, Nat.or_zero]
  omega

/-- The targets a branch or jump can redirect to; only JR and JALR take theirs from a register. -/
inductive RedirectTarget (i : Instr) (s : State) : Word → Prop where
  | relative (imm : BitVec 16) : RedirectTarget i s (branchTarget s.ipc imm)
  | region (x : BitVec 26) : RedirectTarget i s (jumpTarget s.ipc x)
  | register (rs : Reg) (h : i = .jr rs ∨ ∃ rd, i = .jalr rd rs) : RedirectTarget i s (s.reg rs)

theorem RedirectTarget.aligned {i : Instr} {s : State} {target : Word} (h : RedirectTarget i s target)
    (hjr : ∀ rs, i ≠ .jr rs) (hjalr : ∀ rd rs, i ≠ .jalr rd rs) (hipc : s.ipc.extractLsb' 0 2 = 0#2) :
    target.extractLsb' 0 2 = 0#2 := by
  cases h with
  | relative imm => exact branchTarget_aligned hipc imm
  | region x => exact jumpTarget_aligned s.ipc x
  | register rs h =>
    obtain h | ⟨rd, h⟩ := h
    · exact absurd h (hjr rs)
    · exact absurd h (hjalr rd rs)

/-! ### The one shape of all twelve -/

/-- The delay-slot check guards a redirect of `u`, which is `s` with its link written, if there is one. -/
theorem exec_branch {i : Instr} (s : State) (hb : i.isBranch = true) :
    ∃ (u : State) (taken : Bool) (target : Word),
      exec i s = s.unlessInDelay (u.branchTo taken target) ∧ u.npc = s.npc ∧ RedirectTarget i s target := by
  cases i with
  | beq rs rt imm | bne rs rt imm | blez rs imm | bgtz rs imm | bltz rs imm | bgez rs imm =>
    exact ⟨_, _, _, rfl, rfl, .relative imm⟩
  | bltzal rs imm | bgezal rs imm => exact ⟨_, _, _, rfl, s.writeReg_npc .., .relative imm⟩
  | j x => exact ⟨_, _, _, rfl, rfl, .region x⟩
  | jal x => exact ⟨_, _, _, rfl, s.writeReg_npc .., .region x⟩
  | jr rs => exact ⟨_, _, _, rfl, rfl, .register rs (.inl rfl)⟩
  | jalr rd rs => exact ⟨_, _, _, rfl, s.writeReg_npc .., .register rs (.inr ⟨rd, rfl⟩)⟩
  | _ => cases hb

/-! ### The obligations -/

/-- Settles O45: each is a redirect by its condition; the sign bit is the sign of the signed value. -/
theorem conditionalBranches : Obligations.ConditionalBranches := by
  obtain ⟨hprimary, -⟩ := primaryWordsDecode
  rintro rs rt imm s _ rfl
  have hregimm := decode_regimmWord rs imm
  simp only [hprimary, hregimm, true_and]
  intro hs
  exact ⟨redirects_of_exec hs rfl rfl, redirects_of_exec hs rfl (decide_not ..).symm, redirects_of_exec hs rfl rfl,
    redirects_of_exec hs rfl rfl, redirects_of_exec hs rfl (signBit_eq_decide_neg _),
    redirects_of_exec hs rfl (not_signBit_eq_decide_nonneg _)⟩

/-- Settles O46: the link is written before the redirect, whose condition was read from the state before the link. -/
theorem linkingBranches : Obligations.LinkingBranches := by
  rintro rs imm s _ rfl
  have hregimm := decode_regimmWord rs imm
  simp only [hregimm, true_and]
  intro hs
  exact ⟨links_of_exec hs rfl (signBit_eq_decide_neg _), links_of_exec hs rfl (not_signBit_eq_decide_nonneg _)⟩

/-- Settles O47: each is a taken redirect; JALR's target was read from the state before the link. -/
theorem jumpsAndLinks : Obligations.JumpsAndLinks := by
  obtain ⟨-, hjump⟩ := primaryWordsDecode
  constructor
  · rintro x s _ rfl
    simp only [hjump, true_and]
    exact fun hs => ⟨redirects_of_exec hs rfl rfl, links_of_exec hs rfl rfl⟩
  · intro rd rs rt sa s
    have hspecial := specialWordsDecode rs rt rd sa
    simp only [hspecial, true_and]
    exact fun hs => ⟨redirects_of_exec hs rfl rfl, links_of_exec hs rfl rfl⟩

/-- Settles O48: the check comes first in all twelve, and the redirect behind it sets the flag. -/
theorem branchInDelaySlotRefused : Obligations.BranchInDelaySlotRefused := by
  intro i s hb
  obtain ⟨u, taken, target, hexec, -, -⟩ := exec_branch s hb
  exact ⟨fun hs => hexec.trans (unlessInDelay_of_inDelay hs _),
    fun hs => ⟨_, hexec.trans (unlessInDelay_of_not_inDelay hs _), rfl⟩⟩

/-- Settles O49: `npc` is the target or stays, and but for JR and JALR the target is aligned where `ipc` is. -/
theorem branchTargetsAligned : Obligations.BranchTargetsAligned := by
  intro i s t h hb hjr hjalr hipc hnpc
  obtain ⟨u, taken, target, hexec, hu, htarget⟩ := exec_branch s hb
  obtain ⟨-, rfl⟩ := unlessInDelay_next (hexec.symm.trans h)
  rw [State.branchTo_npc, hu]
  split
  · exact htarget.aligned hjr hjalr hipc
  · exact hnpc

end Sys2Proof.Machine
end

section
/-! PROOFS. Loads (43_load_store.md R241 to R247, R253): when each traps, the value it writes where it does not, and that LWR
and then LWL assemble the word at any address. -/

namespace Sys2Proof.Machine

/-! ### Alignment (20_memory.md R97) -/

theorem half_aligned_iff {va : Word} : Width.half.aligned va = true ↔ va.getLsbD 0 = false := by
  rw [aligned_iff, BitVec.getLsbD, Nat.testBit_zero, decide_eq_false_iff_not]
  exact Nat.mod_two_ne_one.symm

theorem half_misaligned_iff {va : Word} : ¬ Width.half.aligned va = true ↔ va.getLsbD 0 = true := by
  rw [half_aligned_iff, Bool.not_eq_false]

theorem word_aligned_iff {va : Word} : Width.word.aligned va = true ↔ va.extractLsb' 0 2 = 0#2 :=
  (aligned_iff ..).trans (toNat_mod_four va)

/-! ### When a load traps and what it writes (R240) -/

theorem load_of_read {s : State} {w : Width} (rt : Reg) {ea v : Word} (extend : Word → Word) (ha : w.aligned ea = true)
    (h : s.memRead w ea = some v) : s.load w rt ea extend = .next (s.delayedWrite rt (extend v)) := by
  rw [State.load, if_pos ha, h]

theorem load_misaligned (s : State) {w : Width} (rt : Reg) {ea : Word} (extend : Word → Word) (ha : ¬ w.aligned ea = true) :
    s.load w rt ea extend = .next (s.enterException (.addressLoadError ea)) :=
  if_neg ha

theorem exec_load_of_read {i : Instr} {s : State} {w : Width} {rt : Reg} {ea v x : Word} {extend : Word → Word}
    (h : exec i s = s.load w rt ea extend) (ha : w.aligned ea = true) (hread : s.memRead w ea = some v)
    (hx : extend v = x) : ∃ t, exec i s = .next t ∧ s.WritesDelayed t rt x :=
  ⟨_, h.trans (load_of_read rt extend ha hread), hx ▸ delayedWrite_writesDelayed s rt _⟩

theorem exec_load_of_unmapped {i : Instr} {s : State} {w : Width} {rt : Reg} {ea : Word} {extend : Word → Word}
    (h : exec i s = s.load w rt ea extend) (hu : unmappedAddress ea) :
    ∃ t, exec i s = .next t ∧ s.EntersException t 4#5 none (some ea) :=
  ⟨_, h.trans (load_unmapped s w rt extend hu), enterException_enters s (.addressLoadError ea)⟩

theorem exec_load_of_misaligned {i : Instr} {s : State} {w : Width} {rt : Reg} {ea : Word} {extend : Word → Word}
    (h : exec i s = s.load w rt ea extend) (ha : ¬ w.aligned ea = true) :
    ∃ t, exec i s = .next t ∧ s.EntersException t 4#5 none (some ea) :=
  ⟨_, h.trans (load_misaligned s rt extend ha), enterException_enters s (.addressLoadError ea)⟩

/-! ### The value of a load (R241 to R244) -/

theorem sextByte_eq (v : Word) : sextByte v = BitVec.ofInt 32 (v.setWidth 8).toInt := by
  rw [sextByte, BitVec.setWidth_eq_extractLsb' (by decide)]
  rfl

theorem sextHalf_eq (v : Word) : sextHalf v = BitVec.ofInt 32 (v.setWidth 16).toInt := by
  rw [sextHalf, BitVec.setWidth_eq_extractLsb' (by decide)]
  rfl

/-- What a bus load answers has no bit above its width (20_memory.md R94). -/
theorem memRead_zext {s : State} {w : Width} {va v : Word} (h : s.memRead w va = some v) :
    v = BitVec.ofNat 32 (v.setWidth (8 * w.bytes)).toNat := by
  obtain ⟨d, -, rfl⟩ := Option.map_eq_some_iff.1 h
  cases w <;> simp [Width.compose, Width.bytes]

/-! ### The merging loads (R246, R247) -/

theorem lane_lt (ea : Word) : lane ea < 4 := BitVec.isLt _

theorem pendingOrReg_of_due {s : State} {r : Reg} {v : Word} (h : s.ld0 = some (r, v)) : s.pendingOrReg r = v := by
  rw [State.pendingOrReg, h]
  exact if_pos rfl

theorem loadMerge_of_read {s : State} (rt : Reg) {ea w : Word} (merge : Word → Word → Word)
    (h : s.memRead .word (alignedWord ea) = some w) :
    s.loadMerge rt ea merge = .next (s.delayedWrite rt (merge (s.pendingOrReg rt) w)) := by
  rw [State.loadMerge, h]

theorem loadMerge_unmapped (s : State) (rt : Reg) {ea : Word} (merge : Word → Word → Word)
    (h : unmappedAddress (alignedWord ea)) :
    s.loadMerge rt ea merge = .next (s.enterException (.addressLoadError ea)) := by
  rw [State.loadMerge, memRead_unmapped s .word h]
  rfl

/-! ### A word by its readable bytes -/

/-- A readable byte of an aligned word is answered by the word's own target. -/
theorem target_of_readByte_add {s : State} {va : Word} {i : Nat} {b : Byte} (hi : va.toNat % 4 + i < 4)
    (h : s.readByte (va + BitVec.ofNat 32 i) = some b) : ∃ d, busTarget va = some d ∧ s.targetByte d i = b := by
  obtain ⟨hadd, hphys⟩ := physical_add hi
  rcases region_cases (va + BitVec.ofNat 32 i) with hr | hr | hr | hr | hr
  · have hva := (ccr_add hi).1 hr
    rw [readByte_ccr s hr, hadd] at h
    refine ⟨_, busTarget_ccr hva, Option.some.inj (Eq.trans ?_ h)⟩
    rw [State.targetByte, Nat.sub_add_comm hva.1]
  · have hva := (ram_add hi).1 hr
    rw [readByte_ram s hr, hphys] at h
    refine ⟨_, busTarget_ram hva, Option.some.inj (Eq.trans ?_ h)⟩
    rw [State.targetByte, Nat.mod_eq_of_lt (by unfold ramAddress at hr; unfold ramSize; omega)]
  · have hva := (rom_add hi).1 hr
    rw [readByte_rom s hr, hphys] at h
    refine ⟨_, busTarget_rom hva, Option.some.inj (Eq.trans ?_ h)⟩
    rw [State.targetByte, ← Nat.add_assoc, romBase, Nat.add_sub_cancel' hva.1]
  · rw [readByte_stub s hr] at h
    exact ⟨_, busTarget_stub (stub_of_add hi hr), Option.some.inj h⟩
  · rw [readByte_unmapped s hr] at h
    cases h

theorem byteOf_compose_word (b : Nat → Byte) {i : Nat} (hi : i < 4) : byteOf (Width.word.compose b) i = b i := by
  obtain rfl | rfl | rfl | rfl : i = 0 ∨ i = 1 ∨ i = 2 ∨ i = 3 := by omega
  all_goals simp [Width.compose]

/-- Where one byte of an aligned word is readable, so is the word, and it holds every byte of it that is. At the end of a stub
range some may be unmapped (20_memory.md R85). -/
theorem memRead_alignedWord_of_readByte {s : State} {ea : Word} {b : Byte} (h : s.readByte ea = some b) :
    ∃ w, s.memRead .word (alignedWord ea) = some w ∧
      ∀ i c, i < 4 → s.readByte (alignedWord ea + BitVec.ofNat 32 i) = some c → byteOf w i = c := by
  have hbase := alignedWord_mod ea
  rw [← alignedWord_add_lane ea] at h
  obtain ⟨d, hd, -⟩ := target_of_readByte_add (by omega) h
  refine ⟨_, memRead_eq s .word hd, fun i c hi hc => ?_⟩
  obtain ⟨d', hd', hbyte⟩ := target_of_readByte_add (by omega) hc
  obtain rfl := Option.some.inj (hd.symm.trans hd')
  exact (byteOf_compose_word _ hi).trans hbyte

/-! ### The unaligned-load idiom (R253) -/

/-- LWL's merge over LWR's is the word `x`, whatever `cur` was, when the aligned words `w` at `a` and `w'` at `a + 3` hold
the bytes of `x` in the places that the two merges read. -/
theorem mergeLeft_mergeRight {k k' : Nat} {cur w w' x : Word} (hk : k < 4) (hk' : k' = (k + 3) % 4)
    (hw : ∀ j m, j < 4 → m < 4 → m = j + k → byteOf w m = byteOf x j)
    (hw' : ∀ j m, j < 4 → m < 4 → m + 3 = j + k' → byteOf w' m = byteOf x j) :
    mergeLeft k' (mergeRight k cur w) w' = x := by
  refine word_ext fun j hj => ?_
  rw [mergeLeft_byte k' (by omega) _ _ j hj]
  split
  · exact hw' j _ hj (by omega) (by omega)
  · rw [mergeRight_byte k hk _ _ j hj, if_pos (by omega)]
    exact hw j _ hj (by omega) rfl

/-- `a + j` counted from the aligned word of an address `n` above `a`. -/
theorem alignedWord_add_eq {a c : Word} {n j m : Nat} (hc : c = a + BitVec.ofNat 32 n) (h : m + n = j + c.toNat % 4) :
    alignedWord c + BitVec.ofNat 32 m = a + BitVec.ofNat 32 j := by
  have hlane := alignedWord_add_lane c
  generalize c.toNat % 4 = k at h hlane
  generalize alignedWord c = base at hlane ⊢
  bv_omega

/-- Four readable bytes from `a` on lie in two readable aligned words, and the two merges assemble them. -/
theorem words_merge_of_readByte {s : State} {a x : Word}
    (h : ∀ j, j < 4 → s.readByte (a + BitVec.ofNat 32 j) = some (byteOf x j)) :
    ∃ w w', s.memRead .word (alignedWord a) = some w ∧ s.memRead .word (alignedWord (a + 3#32)) = some w' ∧
      ∀ cur, mergeLeft (lane (a + 3#32)) (mergeRight (lane a) cur w) w' = x := by
  obtain ⟨w, hw, hbytes⟩ := memRead_alignedWord_of_readByte (h 0 (by decide))
  obtain ⟨w', hw', hbytes'⟩ := memRead_alignedWord_of_readByte (h 3 (by decide))
  rw [BitVec.add_zero] at hw hbytes
  refine ⟨w, w', hw, hw', fun cur => mergeLeft_mergeRight (lane_lt a) ?_ (fun j m hj hm hjm => ?_)
    (fun j m hj hm hjm => ?_)⟩
  · rw [lane_eq, lane_eq, BitVec.toNat_add, BitVec.toNat_ofNat]
    omega
  · refine hbytes m _ hm ?_
    rw [alignedWord_add_eq (BitVec.add_zero a).symm (lane_eq a ▸ hjm)]
    exact h j hj
  · refine hbytes' m _ hm ?_
    rw [alignedWord_add_eq rfl (lane_eq (a + 3#32) ▸ hjm)]
    exact h j hj

/-! ### The obligations -/

/-- Settles O50: the extended value of what the bus answers, whose bits above the width are zero; else one exception. -/
theorem alignedLoads : Obligations.AlignedLoads := by
  obtain ⟨himmediate, -⟩ := primaryWordsDecode
  rintro rt rs imm s ea rfl
  simp only [himmediate, true_and, List.forall_mem_cons, List.not_mem_nil, false_imp_iff, implies_true, and_true]
  refine ⟨fun b hb => ⟨?_, ?_⟩, fun x ha hx => ⟨?_, ?_⟩, fun w ha hw => ?_, fun hu => ?_, fun ha => ?_, fun ha => ?_⟩
  · exact exec_load_of_read rfl rfl hb (sextByte_eq b)
  · exact exec_load_of_read rfl rfl hb (memRead_zext hb)
  · exact exec_load_of_read rfl (half_aligned_iff.2 ha) hx (sextHalf_eq x)
  · exact exec_load_of_read rfl (half_aligned_iff.2 ha) hx (memRead_zext hx)
  · exact exec_load_of_read rfl (word_aligned_iff.2 ha) hw rfl
  · exact ⟨exec_load_of_unmapped (w := .byte) rfl hu, exec_load_of_unmapped (w := .byte) rfl hu,
      exec_load_of_unmapped rfl hu, exec_load_of_unmapped rfl hu, exec_load_of_unmapped rfl hu⟩
  · have hmis := half_misaligned_iff.2 ha
    exact ⟨exec_load_of_misaligned rfl hmis, exec_load_of_misaligned rfl hmis⟩
  · exact exec_load_of_misaligned rfl (word_aligned_iff.not.2 ha)

/-- Settles O51: the byte view of the two merges, whose input is the value pending in slot 0 or the register's. -/
theorem unalignedLoads : Obligations.UnalignedLoads := by
  obtain ⟨himmediate, -⟩ := primaryWordsDecode
  rintro rt rs imm s ea cur k rfl rfl hcur
  have hpending : s.pendingOrReg rt = cur := by
    rw [hcur, State.pendingOrReg]
    cases s.ld0 <;> rfl
  simp only [himmediate, true_and, List.forall_mem_cons, List.not_mem_nil, false_imp_iff, implies_true, and_true]
  refine ⟨fun w hw => ⟨?_, ?_⟩, fun hu => ⟨?_, ?_⟩⟩
  · refine ⟨_, _, loadMerge_of_read rt _ hw, delayedWrite_writesDelayed s rt _, fun j hj => ?_⟩
    rw [hpending, ← lane_eq]
    exact mergeLeft_byte _ (lane_lt _) cur w j hj
  · refine ⟨_, _, loadMerge_of_read rt _ hw, delayedWrite_writesDelayed s rt _, fun j hj => ?_⟩
    rw [hpending, ← lane_eq]
    exact mergeRight_byte _ (lane_lt _) cur w j hj
  · exact ⟨_, loadMerge_unmapped s rt _ hu, enterException_enters s (.addressLoadError _)⟩
  · exact ⟨_, loadMerge_unmapped s rt _ hu, enterException_enters s (.addressLoadError _)⟩

/-- Settles O54: LWL's merge input is what LWR left pending, and the two aligned words merge to the four bytes' word. -/
theorem unalignedLoadIdiom : Obligations.UnalignedLoadIdiom := by
  intro s t u rt rs rs' imm imm' a b0 b1 b2 b3 ha h0 h1 h2 h3 hlwr hmem hccr hdue ha'
  have hbytes : ∀ j, j < 4 → s.readByte (a + BitVec.ofNat 32 j) = some (byteOf (wordOfBytes b0 b1 b2 b3) j) := by
    intro j hj
    obtain rfl | rfl | rfl | rfl : j = 0 ∨ j = 1 ∨ j = 2 ∨ j = 3 := by omega
    all_goals simp [h0, h1, h2, h3]
  obtain ⟨w, w', hw, hw', hmerged⟩ := words_merge_of_readByte hbytes
  have hfirst : exec (.lwr rt rs imm) s = .next (s.delayedWrite rt (mergeRight (lane a) (s.pendingOrReg rt) w)) := by
    subst ha
    exact loadMerge_of_read rt _ hw
  obtain rfl := Host.Outcome.next.inj (hfirst.symm.trans hlwr)
  have hsecond : exec (.lwl rt rs' imm') u =
      .next (u.delayedWrite rt (mergeLeft (lane (a + 3#32)) (u.pendingOrReg rt) w')) := by
    have hread : u.memRead .word (alignedWord (a + 3#32)) = some w' := (memRead_congr hmem hccr _ _).trans hw'
    rw [← ha'] at hread ⊢
    exact loadMerge_of_read rt _ hread
  rw [pendingOrReg_of_due hdue, hmerged] at hsecond
  exact ⟨_, hsecond, delayedWrite_writesDelayed u rt _⟩

end Sys2Proof.Machine
end

section
/-! PROOFS. Stores (43_load_store.md R248 to R252): SB, SH and SW by the region of their address, and SWL and SWR as byte
stores inside one aligned word. -/

namespace Sys2Proof.Machine

/-! ### The aligned stores (R248 to R250) -/

theorem store_of_aligned (s : State) {w : Width} {ea : Word} (v : Word) (ha : w.aligned ea = true) :
    s.store w ea v = .next (s.memWrite w ea v) :=
  if_pos ha

theorem exec_store_of_misaligned {i : Instr} {s : State} {w : Width} {ea v : Word} (h : exec i s = s.store w ea v)
    (ha : ¬ w.aligned ea = true) : ∃ t, exec i s = .next t ∧ s.EntersException t 5#5 none (some ea) :=
  ⟨_, h.trans (if_neg ha), enterException_enters s (.addressStoreError ea)⟩

theorem low_eq_ofNat (w : Width) (v : Word) : w.low v = BitVec.ofNat 32 (v.toNat % 2 ^ (8 * w.bytes)) := by
  refine BitVec.eq_of_toNat_eq ?_
  cases w
  · simp [Width.low, Width.bytes]
  · simp [Width.low, Width.bytes]
  · simp [Width.low, Width.bytes, Nat.mod_eq_of_lt v.isLt]

theorem OnlyBus.reg {s t : State} (h : OnlyBus s t) (q : Reg) : t.reg q = s.reg q := by
  rw [h]
  rfl

theorem OnlyBus.sr {s t : State} (h : OnlyBus s t) : t.sr = s.sr := by
  rw [h]

/-- An aligned store completes; what it leaves is `MemWrite`'s by region (20_memory.md R95, R104). -/
theorem exec_store_by_region {i : Instr} {s : State} {w : Width} {ea v : Word} (h : exec i s = s.store w ea v)
    (ha : w.aligned ea = true) (hm : s.mem.wf = true) :
    ∃ t, exec i s = .next t ∧ (∀ q, t.reg q = s.reg q) ∧
      (s.sr.getLsbD 16 = true → t = s) ∧
      (s.sr.getLsbD 16 = false → ccrAddress ea ∨ ramAddress ea → s.StoresBytes t ea w.bytes (byteOf v)) ∧
      (s.sr.getLsbD 16 = false → romAddress ea ∨ stubAddress ea → t = s) ∧
      (s.sr.getLsbD 16 = false → unmappedAddress ea →
        t = { s with diag := s.diag ++ [⟨ea, w.bytes, BitVec.ofNat 32 (v.toNat % 2 ^ (8 * w.bytes))⟩] }) := by
  obtain ⟨hisolated, hopen⟩ := storeByDevice s w ea v ha hm
  refine ⟨_, h.trans (store_of_aligned s v ha), (memWrite_only s w ea v).reg, hisolated, fun hc => ?_, fun hc => ?_,
    fun hc => ?_⟩
  all_goals obtain ⟨hstored, hdiscarded, hevent⟩ := hopen hc
  · exact hstored
  · exact hdiscarded
  · rw [← low_eq_ofNat]
    exact hevent

/-! ### Byte stores inside one aligned word (R251, R252) -/

theorem byteOf_setWidth_zero (b : Byte) : byteOf (b.setWidth 32) 0 = b := by
  refine BitVec.eq_of_getLsbD_eq fun i hi => ?_
  have h32 : i < 32 := by omega
  rw [byteOf_bit, BitVec.getLsbD_setWidth]
  simp [hi, h32]

theorem memWrite_byte_stores {s : State} {a : Word} (b : Byte) (hm : s.mem.wf = true) (hc : s.sr.getLsbD 16 = false)
    (hr : ccrAddress a ∨ ramAddress a) : s.StoresBytes (s.memWrite .byte a (b.setWidth 32)) a 1 fun _ => b := by
  refine storesBytes_congr (memWrite_stores s .byte _ rfl hm hc hr) fun i hi => ?_
  obtain rfl : i = 0 := Nat.lt_one_iff.1 hi
  exact byteOf_setWidth_zero b

section
variable {s : State} {va v : Word} {first n : Nat}

theorem storeBytes_wf (hm : s.mem.wf = true) : (s.storeBytes va v first n).mem.wf = true :=
  (storeBytes_keeps s va v first n).wf hm

theorem storeBytes_open (hc : s.sr.getLsbD 16 = false) : (s.storeBytes va v first n).sr.getLsbD 16 = false := by
  rw [(storeBytes_only s va v first n).sr, hc]

theorem storeBytes_stores (hm : s.mem.wf = true) (hc : s.sr.getLsbD 16 = false) (hn : va.toNat % 4 + n ≤ 4)
    (hr : ccrAddress va ∨ ramAddress va) :
    s.StoresBytes (s.storeBytes va v first n) va n fun j => byteOf v (first + j) := by
  induction n with
  | zero => exact storesBytes_zero s va _
  | succ n ih =>
    have hlast : va.toNat % 4 + n < 4 := by omega
    have hbyte := memWrite_byte_stores (s := s.storeBytes va v first n) (byteOf v (first + n)) (storeBytes_wf hm)
      (storeBytes_open hc) (hr.imp (ccr_add hlast).2 (ram_add hlast).2)
    exact storesBytes_succ (ih (by omega)) hbyte fun i hi => physical_add_ne hi hlast

/-- The diagnostic events of the byte stores: one for each unmapped byte, lowest first (20_memory.md R96; R251). -/
def unmappedByteEvents (va v : Word) (first n : Nat) : List DiagEvent :=
  ((List.range n).filter fun j => decide (unmappedAddress (va + BitVec.ofNat 32 j))).map fun j =>
    ⟨va + BitVec.ofNat 32 j, 1, (byteOf v (first + j)).setWidth 32⟩

theorem unmappedByteEvents_succ (va v : Word) (first n : Nat) :
    unmappedByteEvents va v first (n + 1) = unmappedByteEvents va v first n ++
      if unmappedAddress (va + BitVec.ofNat 32 n) then
        [⟨va + BitVec.ofNat 32 n, 1, (byteOf v (first + n)).setWidth 32⟩] else [] := by
  rw [unmappedByteEvents, List.range_succ, List.filter_append, List.map_append, unmappedByteEvents]
  congr 1
  simp only [List.filter_cons, List.filter_nil, decide_eq_true_eq]
  split <;> rfl

/-- A byte store outside RAM and the cache-control register adds an event where the byte is unmapped and is discarded
elsewhere (20_memory.md R89, R90, R92). -/
theorem busStore_byte_outside (s : State) {a : Word} (b : Byte) (hccr : ¬ ccrAddress a) (hram : ¬ ramAddress a) :
    s.busStore .byte a (b.setWidth 32) =
      { s with diag := s.diag ++ if unmappedAddress a then [⟨a, 1, b.setWidth 32⟩] else [] } := by
  by_cases hu : unmappedAddress a
  · have hlow : Width.byte.low (b.setWidth 32) = b.setWidth 32 := congrArg (BitVec.setWidth 32) (byteOf_setWidth_zero b)
    rw [busStore_unmapped s .byte _ hu, if_pos hu, State.emit, hlow]
    rfl
  · have hr : romAddress a ∨ stubAddress a := by
      obtain h | h | h | h | h := region_cases a
      exacts [absurd h hccr, absurd h hram, .inl h, .inr h, absurd h hu]
    rw [busStore_discarded s .byte _ hr, if_neg hu, List.append_nil]

theorem storeBytes_outside (hc : s.sr.getLsbD 16 = false) (hn : va.toNat % 4 + n ≤ 4) (hccr : ¬ ccrAddress va)
    (hram : ¬ ramAddress va) :
    s.storeBytes va v first n = { s with diag := s.diag ++ unmappedByteEvents va v first n } := by
  induction n with
  | zero => simp [State.storeBytes, unmappedByteEvents]
  | succ n ih =>
    have hlast : va.toNat % 4 + n < 4 := by omega
    rw [State.storeBytes, memWrite_open _ _ _ _ (storeBytes_open hc), ih (by omega),
      busStore_byte_outside _ _ ((ccr_add hlast).not.2 hccr) ((ram_add hlast).not.2 hram), unmappedByteEvents_succ,
      List.append_assoc]

theorem storeBytes_outside_rest (hn : va.toNat % 4 + n ≤ 4) (hccr : ¬ ccrAddress va) (hram : ¬ ramAddress va) :
    s.storeBytes va v first n = { s with diag := (s.storeBytes va v first n).diag } := by
  cases hc : s.sr.getLsbD 16 with
  | true => rw [storeBytes_isolated s va v first n hc]
  | false => rw [storeBytes_outside hc hn hccr hram]

theorem alignedWord_ccr (ea : Word) : ccrAddress (alignedWord ea) ↔ ccrAddress ea := by
  have h := ccr_add (va := alignedWord ea) (i := ea.toNat % 4) (by rw [alignedWord_mod]; omega)
  rw [alignedWord_add_lane] at h
  exact h.symm

theorem alignedWord_ram (ea : Word) : ramAddress (alignedWord ea) ↔ ramAddress ea := by
  have h := ram_add (va := alignedWord ea) (i := ea.toNat % 4) (by rw [alignedWord_mod]; omega)
  rw [alignedWord_add_lane] at h
  exact h.symm

/-- Byte stores inside the aligned word at `base` complete; what they leave, by the region of that word. -/
theorem exec_storeBytes_by_region {i : Instr} {base : Word} (h : exec i s = .next (s.storeBytes va v first n))
    (hn : va.toNat % 4 + n ≤ 4) (hccr : ccrAddress base ↔ ccrAddress va) (hram : ramAddress base ↔ ramAddress va)
    (hm : s.mem.wf = true) :
    ∃ t, exec i s = .next t ∧ (∀ q, t.reg q = s.reg q) ∧
      (s.sr.getLsbD 16 = true → t = s) ∧
      (s.sr.getLsbD 16 = false → ccrAddress base ∨ ramAddress base →
        s.StoresBytes t va n fun j => byteOf v (first + j)) ∧
      (¬ ccrAddress base → ¬ ramAddress base → t = { s with diag := t.diag } ∧ ∀ a, t.readByte a = s.readByte a) ∧
      (s.sr.getLsbD 16 = false → ¬ ccrAddress base → ¬ ramAddress base →
        t.diag = s.diag ++ unmappedByteEvents va v first n) := by
  rw [hccr, hram]
  refine ⟨_, h, (storeBytes_only s va v first n).reg, storeBytes_isolated s va v first n,
    fun hc => storeBytes_stores hm hc hn, fun hc hr => ?_, fun hopen hc hr => ?_⟩
  · have hrest := storeBytes_outside_rest (s := s) (v := v) (first := first) hn hc hr
    exact ⟨hrest, readByte_congr (by rw [hrest]) (by rw [hrest])⟩
  · rw [storeBytes_outside hopen hn hc hr]

end

/-! ### The obligations -/

/-- Settles O52: the alignment check, then one bus write of the width. -/
theorem alignedStores : Obligations.AlignedStores := by
  obtain ⟨himmediate, -⟩ := primaryWordsDecode
  rintro rt rs imm s ea rfl hm
  simp only [himmediate, true_and]
  refine ⟨fun ha => ?_, fun ha => ?_, ?_⟩
  · exact exec_store_of_misaligned rfl (half_misaligned_iff.2 ha)
  · exact exec_store_of_misaligned rfl (word_aligned_iff.not.2 ha)
  · rintro i n (⟨rfl, rfl⟩ | ⟨rfl, rfl, ha⟩ | ⟨rfl, rfl, ha⟩)
    · exact exec_store_by_region (w := .byte) rfl rfl hm
    · exact exec_store_by_region (w := .half) rfl (half_aligned_iff.2 ha) hm
    · exact exec_store_by_region (w := .word) rfl (word_aligned_iff.2 ha) hm

/-- Settles O53: SWL's bytes begin at the aligned word's address and SWR's at `ea`, and neither leaves that word. -/
theorem unalignedStores : Obligations.UnalignedStores := by
  obtain ⟨himmediate, -⟩ := primaryWordsDecode
  rintro rt rs imm s ea base k rfl rfl hbase hm
  obtain rfl : base = alignedWord _ := hbase
  simp only [himmediate, true_and, ← lane_eq]
  have hlane := lane_lt (s.reg rs + imm.signExtend 32)
  rintro i va first n (⟨rfl, rfl, rfl, rfl⟩ | ⟨rfl, rfl, rfl, rfl⟩)
  · exact exec_storeBytes_by_region rfl (by rw [alignedWord_mod]; omega) Iff.rfl Iff.rfl hm
  · exact exec_storeBytes_by_region rfl (by rw [lane_eq]; omega) (alignedWord_ccr _) (alignedWord_ram _) hm

end Sys2Proof.Machine
end

section
/-! PROOFS. Software traps, COP0 and the coprocessors this core lacks (44_system_cop.md R270 to R286): what each operation
answers where its coprocessor is usable and where it is not. -/

namespace Sys2Proof.Machine

/-! ### Exceptions as the whole effect -/

theorem enters_of_exec_raise {i : Instr} {s : State} {e : ExceptionKind} (h : exec i s = s.raise e) :
    ∃ t, exec i s = .next t ∧ s.EntersException t e.code e.ce e.badv :=
  ⟨_, h, enterException_enters s e⟩

/-! ### COP0 (R270, R274 to R276) -/

theorem ifCop0Usable_open {s : State} (h : s.Cop0Open) (effect : Result) : s.ifCop0Usable effect = effect :=
  if_pos ((cop0Usable_iff s).2 h)

/-- An instruction behind the usability check, while COP0 is not usable. -/
theorem enters_of_cop0Closed {i : Instr} {s : State} {effect : Result} (h : exec i s = s.ifCop0Usable effect)
    (hc : ¬ s.Cop0Open) : ∃ t, exec i s = .next t ∧ s.EntersException t 11#5 (some 0#2) none :=
  enters_of_exec_raise (e := .coprocessorUnusable 0#2) (h.trans (ifCop0Usable_closed hc effect))

theorem readCop0_eq_none (s : State) {rd : Reg} (h : rd ∉ ([8, 12, 13, 14] : List Reg)) : s.readCop0 rd = none := by
  simp only [List.mem_cons, List.not_mem_nil, or_false, not_or] at h
  obtain ⟨h8, h12, h13, h14⟩ := h
  rw [State.readCop0, if_neg h8, if_neg h12, if_neg h13, if_neg h14]

theorem exec_mfc0_open {s : State} (hc : s.Cop0Open) (rt rd : Reg) : exec (.mfc0 rt rd) s = s.moveFromCop0 rt rd :=
  ifCop0Usable_open hc _

theorem mfc0_of_read {s : State} {rd : Reg} {v : Word} (hc : s.Cop0Open) (rt : Reg) (hv : s.readCop0 rd = some v) :
    ∃ t, exec (.mfc0 rt rd) s = .next t ∧ s.WritesDelayed t rt v := by
  refine ⟨s.delayedWrite rt v, ?_, delayedWrite_writesDelayed s rt v⟩
  rw [exec_mfc0_open hc, State.moveFromCop0, hv]

theorem mfc0_of_no_register {s : State} {rd : Reg} (hc : s.Cop0Open) (rt : Reg) (hv : s.readCop0 rd = none) :
    ∃ t, exec (.mfc0 rt rd) s = .next t ∧ s.EntersException t 10#5 none none := by
  refine enters_of_exec_raise (e := .reservedInstruction) ?_
  rw [exec_mfc0_open hc, State.moveFromCop0, hv]

theorem exec_mtc0_open {s : State} (hc : s.Cop0Open) (rt rd : Reg) :
    exec (.mtc0 rt rd) s = .next (s.writeCop0 rd (s.reg rt)) :=
  ifCop0Usable_open hc _

theorem exec_rfe_open {s : State} (hc : s.Cop0Open) : exec .rfe s = .next s.restoreStatus :=
  ifCop0Usable_open hc _

theorem writeCop0_ignored (s : State) {rd : Reg} (v : Word) (h12 : rd ≠ 12) (h13 : rd ≠ 13) : s.writeCop0 rd v = s := by
  rw [State.writeCop0, if_neg h12, if_neg h13]

theorem writeCop0_onlyStatusCause (s : State) (rd : Reg) (v : Word) : s.OnlyStatusCause (s.writeCop0 rd v) where
  rest := by unfold State.writeCop0; split_ifs <;> rfl
  regs := s.writeCop0_reg rd v
  bytes := s.writeCop0_readByte rd v

theorem restoreStatus_onlyStatusCause (s : State) : s.OnlyStatusCause s.restoreStatus where
  rest := rfl
  regs := s.restoreStatus_reg
  bytes := s.restoreStatus_readByte

/-! ### The other coprocessors (R271, R280 to R286) -/

/-- An instruction of a coprocessor this core lacks, by usability (R280, R281, R284, R285). -/
theorem enters_of_copAbsent {i : Instr} {s : State} {z : Fin 4} (h : exec i s = s.copAbsent z) :
    (s.copUsable z = false →
      ∃ t, exec i s = .next t ∧ s.EntersException t 11#5 (some (BitVec.ofNat 2 z)) none) ∧
    (s.copUsable z = true → ∃ t, exec i s = .next t ∧ s.EntersException t 10#5 none none) := by
  constructor <;> intro hz <;> rw [State.copAbsent, hz] at h
  · exact enters_of_exec_raise (e := .coprocessorUnusable (BitVec.ofNat 2 z)) h
  · exact enters_of_exec_raise (e := .reservedInstruction) h

/-- A coprocessor 2 operation, by CU2 (R282, R283, R286). -/
theorem enters_or_refused_of_cop2 {i : Instr} {s : State} (h : exec i s = s.cop2Operation) :
    (s.sr.getLsbD 30 = false → ∃ t, exec i s = .next t ∧ s.EntersException t 11#5 (some 2#2) none) ∧
    (s.sr.getLsbD 30 = true → exec i s = .refused .cop2Present) := by
  have husable : s.copUsable 2 = s.sr.getLsbD 30 := rfl
  rw [← husable]
  constructor <;> intro hz <;> rw [State.cop2Operation, hz] at h
  · exact enters_of_exec_raise (e := .coprocessorUnusable 2#2) h
  · exact h

theorem copUsable_zero_iff (s : State) : s.copUsable 0 = true ↔ s.Cop0Open := cop0Usable_iff s

/-! ### The obligations -/

/-- Settles O55: both are `raise` in every state, and `funct` alone selects them. -/
theorem syscallAndBreak : Obligations.SyscallAndBreak := by
  have hspecial := specialWordsDecode
  unfold Obligations.SpecialWordsDecode at hspecial
  intro rs rt rd sa s
  simp only [hspecial, true_and]
  exact ⟨enters_of_exec_raise (e := .systemCall) rfl, enters_of_exec_raise (e := .breakpoint) rfl⟩

/-- Settles O56: the usability check, then the four registers that can be read. -/
theorem moveFromCop0 : Obligations.MoveFromCop0 := by
  intro rt rd sa f s
  obtain ⟨hdecode, -⟩ := decode_cop0Word rt rd sa f
  exact ⟨hdecode, enters_of_cop0Closed rfl, fun hc =>
    ⟨mfc0_of_read hc rt rfl, mfc0_of_read hc rt rfl, mfc0_of_read hc rt rfl, mfc0_of_read hc rt rfl,
      fun hrd => mfc0_of_no_register hc rt (readCop0_eq_none s hrd)⟩⟩

/-- Settles O57: the usability check, then the bits of `causeWithSoftwareBits` and `popStatus`. -/
theorem moveToCop0AndRfe : Obligations.MoveToCop0AndRfe := by
  intro rt rd sa f s
  obtain ⟨-, hmtc0, hrfe, -⟩ := decode_cop0Word rt rd sa f
  refine ⟨hmtc0, hrfe, fun hc i hi => ?_, fun hc => ⟨?status, ?cause, fun h12 h13 => ?ignored, ?pop⟩⟩
  · obtain rfl | rfl : i = .mtc0 rt rd ∨ i = .rfe := by simpa using hi
    · exact enters_of_cop0Closed rfl hc
    · exact enters_of_cop0Closed rfl hc
  case status => exact ⟨_, exec_mtc0_open hc rt 12, writeCop0_onlyStatusCause .., rfl, rfl⟩
  case cause =>
    refine ⟨_, exec_mtc0_open hc rt 13, writeCop0_onlyStatusCause .., rfl, fun n hn => ?_, fun n h8 h9 => ?_⟩
    · exact (causeWithSoftwareBits_bit ..).trans (if_pos hn)
    · exact (causeWithSoftwareBits_bit ..).trans (if_neg (by omega))
  case ignored => exact ⟨_, exec_mtc0_open hc rt rd, writeCop0_ignored s _ h12 h13⟩
  case pop =>
    refine ⟨_, exec_rfe_open hc, restoreStatus_onlyStatusCause s, rfl, fun n hn => ?_, fun n hn => ?_⟩
    · exact (popStatus_bit ..).trans (if_pos hn)
    · exact (popStatus_bit ..).trans (if_neg (by omega))

/-- Settles O58: the eleven forms are `copAbsent` of their coprocessor, or `cop2Operation`; CUz is the bit that
`copUsable` reads for z = 1, 2, 3. -/
theorem absentCoprocessors : Obligations.AbsentCoprocessors := by
  obtain ⟨-, hjump⟩ := primaryWordsDecode
  refine ⟨fun x => by simp only [hjump, and_self], fun s => ⟨fun i hi => ?cop0, fun i hi => ?cop1, fun i hi => ?cop3,
    fun i hi => ?cop2⟩⟩
  case cop0 =>
    have h : exec i s = s.copAbsent 0 := by fin_cases hi <;> rfl
    rw [← copUsable_zero_iff, Bool.not_eq_true]
    exact enters_of_copAbsent h
  case cop1 =>
    have h : exec i s = s.copAbsent 1 := by fin_cases hi <;> rfl
    exact enters_of_copAbsent h
  case cop3 =>
    have h : exec i s = s.copAbsent 3 := by fin_cases hi <;> rfl
    exact enters_of_copAbsent h
  case cop2 =>
    have h : exec i s = s.cop2Operation := by fin_cases hi <;> rfl
    exact enters_or_refused_of_cop2 h

end Sys2Proof.Machine
end

section
/-! PROOFS. Exception entry, return, and the privilege modes (60_exceptions.md R310 to R325): what an entry writes, what
RFE restores, and how user mode and kernel mode are left. -/

namespace Sys2Proof.Machine

/-! ### Exception entry -/

/-- `t` is in kernel mode at the vector that `s` selects, with interrupts disabled and the Status stack of `s` pushed
(R313, R314): what an entry shows of itself once the step has aged the queue. -/
def State.KernelEntry (s t : State) : Prop :=
  t.sr.getLsbD 0 = false ∧ t.sr.getLsbD 1 = false ∧ (∀ n, n < 4 → t.sr.getLsbD (n + 2) = s.sr.getLsbD n) ∧
  (∀ n, 6 ≤ n → t.sr.getLsbD n = s.sr.getLsbD n) ∧
  t.pc = (if s.sr.getLsbD 22 then 0xBFC00180#32 else 0x80000080#32) ∧ t.npc = t.pc + 4#32

theorem enterException_kernelEntry (s : State) (e : ExceptionKind) : s.KernelEntry (s.enterException e).ageLoadDelay :=
  have h := enterException_enters s e
  ⟨h.disabled, h.kernel, h.pushed, h.srRest, h.pc, h.npc⟩

/-! ### What an effect does to the system registers -/

/-- Only RFE and MTC0 to register 12 write Status without an exception (10_state.md R37). -/
theorem Effect.status_cases {i : Instr} {s t : State} (h : Effect i s t) :
    (∃ e, t = s.enterException e) ∨ t.sr = s.sr ∨ (i = .rfe ∨ ∃ rt, i = .mtc0 rt 12) := by
  cases h with
  | trap e h => exact .inl ⟨e, h⟩
  | status _ _ hi _ => exact .inr (.inr hi)
  | store _ ho _ _ => exact .inr (.inl ho.sr)
  | write _ _ _ h | link _ _ _ _ _ _ _ h => right; left; simp [h]
  | delayed _ _ h | hiLo _ _ h | branch _ _ _ _ h | softwareBits _ _ _ h | nothing h => subst h; exact .inr (.inl rfl)

/-- While COP0 is not usable, an effect that is no exception entry moves no system register (44_system_cop.md R270). -/
theorem Effect.keeps_systemRegisters_of_cop0Closed {i : Instr} {s t : State} (h : Effect i s t) (hc : ¬ s.Cop0Open) :
    (∃ e, t = s.enterException e) ∨ (t.sr = s.sr ∧ t.epc = s.epc ∧ t.badv = s.badv ∧ t.cause = s.cause) := by
  cases h with
  | trap e h => exact .inl ⟨e, h⟩
  | status _ hs _ _ | softwareBits _ hs _ _ => exact absurd hs hc
  | store _ ho _ _ => rw [ho]; exact .inr ⟨rfl, rfl, rfl, rfl⟩
  | write _ _ _ h | link _ _ _ _ _ _ _ h => right; simp [h]
  | delayed _ _ h | hiLo _ _ h | branch _ _ _ _ h | nothing h => subst h; exact .inr ⟨rfl, rfl, rfl, rfl⟩

/-! ### What a step does to the mode -/

/-- Every exception entry of a step, from the begun state or from the advanced one, is a kernel entry from `s`: neither
phase moves Status. -/
theorem step_kernelEntry_or_effect {s u : State} (h : step s = .next u) :
    s.KernelEntry u ∨
    ∃ w i t, u = t.ageLoadDelay ∧ s.memRead .word s.pc = some w ∧ decode w = .ok i ∧ Effect i s.beginStep.advance t := by
  obtain ⟨t, hu, ⟨e, rfl⟩ | ⟨e, rfl⟩ | ⟨w, i, hread, hd, heffect⟩⟩ := step_effect h
  · subst hu; exact .inl (enterException_kernelEntry s.beginStep e)
  · subst hu; exact .inl (enterException_kernelEntry s.beginStep.advance e)
  · exact .inr ⟨w, i, t, hu, hread, hd, heffect⟩

/-! ### The obligations -/

/-- Settles O25: with COP0 closed an effect that is no entry moves no system register, so that the input sample alone can
have moved Cause. -/
theorem userModeConfined : Obligations.UserModeConfined := by
  intro s t h huser hcu
  have hclosed : ¬ s.Cop0Open := by rw [State.Cop0Open, huser, hcu]; decide
  obtain hentry | ⟨w, i, t, rfl, -, -, heffect⟩ := step_kernelEntry_or_effect h
  · exact .inr hentry
  obtain ⟨e, rfl⟩ | ⟨hsr, hepc, hbadv, hcause⟩ := heffect.keeps_systemRegisters_of_cop0Closed hclosed
  · exact .inr (enterException_kernelEntry s.beginStep.advance e)
  · refine .inl ⟨hsr, hepc, hbadv, fun n hn => ?_⟩
    have hsampled : t.ageLoadDelay.cause = causeWithLines s.cause s.intIn := hcause
    rw [hsampled, causeWithLines_bit]
    split_ifs
    · rfl
    · omega
    · rfl

/-- Settles O22: `enterException_enters` at each of the eight exceptions. -/
theorem exceptionEntryProcedure : Obligations.ExceptionEntryProcedure := fun s a ce =>
  ⟨enterException_enters s .interrupt, enterException_enters s (.addressLoadError a),
    enterException_enters s (.addressStoreError a), enterException_enters s .systemCall,
    enterException_enters s .breakpoint, enterException_enters s .reservedInstruction,
    enterException_enters s (.coprocessorUnusable ce), enterException_enters s .arithmeticOverflow⟩

/-- Settles O24: RFE's pop moves the pushed levels back and leaves the bits from 4 up as the entry left them. -/
theorem returnUndoesStatusPush : Obligations.ReturnUndoesStatusPush := by
  intro s e n hn
  have hentry := enterException_enters s e
  obtain hlevel | hrest := hn
  · exact ((popStatus_bit ..).trans (if_pos hlevel)).trans (hentry.pushed n hlevel)
  · exact ((popStatus_bit ..).trans (if_neg (by omega))).trans (hentry.srRest n hrest)

/-- Settles O26: an entry ends in kernel mode, and of the effects that are none only RFE and MTC0 to Status move KUc. -/
theorem kernelLeftOnlyByRfeOrMtc0 : Obligations.KernelLeftOnlyByRfeOrMtc0 := by
  intro s t h hkernel huser
  have not_entry : ¬ s.KernelEntry t := fun ⟨_, hstays, _⟩ => Bool.false_ne_true (hstays.symm.trans huser)
  obtain hentry | ⟨w, i, t, rfl, hread, hd, heffect⟩ := step_kernelEntry_or_effect h
  · exact absurd hentry not_entry
  obtain ⟨e, rfl⟩ | hsr | hi := heffect.status_cases
  · exact absurd (enterException_kernelEntry s.beginStep.advance e) not_entry
  · have hstays : t.ageLoadDelay.sr.getLsbD 1 = false := (congrArg (·.getLsbD 1) hsr).trans hkernel
    exact absurd (hstays.symm.trans huser) Bool.false_ne_true
  · refine ⟨w, hread, ?_⟩
    obtain rfl | ⟨rt, rfl⟩ := hi
    · exact .inl hd
    · exact .inr ⟨rt, hd⟩

end Sys2Proof.Machine
end

section
/-! PROOFS. Construction and the first step (70_reset_and_hazards.md R340, R341), and the isolated cache (R356): what the
constructed state holds in its registers and in memory, and that an isolated step stores nothing. -/

namespace Sys2Proof.Machine

/-! ### The constructed state (R340) -/

theorem construct_of_length {rom : List Byte} (hlen : rom.length = 524288) (d : Config.Draws) (ram : Memory) :
    construct d ram rom = some (State.resetOf d (ram.load romBase rom)) :=
  if_pos hlen

theorem construct_eq_none {rom : List Byte} (hlen : rom.length ≠ 524288) (d : Config.Draws) (ram : Memory) :
    construct d ram rom = none :=
  if_neg hlen

theorem construct_eq_some {d : Config.Draws} {ram : Memory} {rom : List Byte} {s : State}
    (h : construct d ram rom = some s) :
    rom.length = 524288 ∧ s = State.resetOf d (ram.load romBase rom) := by
  by_cases hlen : rom.length = 524288
  · rw [construct_of_length hlen] at h
    exact ⟨hlen, (Option.some.inj h).symm⟩
  · rw [construct_eq_none hlen] at h
    cases h

theorem resetOf_reg (d : Config.Draws) (m : Memory) {r : Reg} (hr : r ≠ 0) : (State.resetOf d m).reg r = d.gprInit := by
  have hslot : 0 ≠ (r : Nat) := fun h => hr (Fin.ext h.symm)
  rw [State.reg, if_neg hr]
  exact (Vector.getElem_set_ne (by decide) r.isLt hslot).trans (Vector.getElem_replicate r.isLt)

/-- The draws and the contents of memory play no part in the invariant, but for the form of the memory list (log 12). -/
theorem resetOf_inv (d : Config.Draws) {m : Memory} (hm : m.wf = true) (hmap : m.inMap = true) :
    (State.resetOf d m).Inv where
  zeroSlot := Vector.getElem_set_self _
  memCanonical := hm
  memInMap := hmap
  slot1Empty := rfl
  sequential _ := rfl
  takenIsBranch h := absurd h Bool.false_ne_true
  causeReserved _ _ := BitVec.getLsbD_zero
  legalCode := by simp [State.resetOf, excCode]
  takenInDelay h := absurd (BitVec.getLsbD_zero.symm.trans h) Bool.false_ne_true
  notRefused := rfl

/-! ### The first step (R341) -/

theorem resetOf_not_interruptDue (d : Config.Draws) (m : Memory) : ¬ (State.resetOf d m).InterruptDue := by
  have hdisabled : (0x00400000#32).getLsbD 0 = false := by decide
  exact fun h => Bool.false_ne_true (hdisabled.symm.trans h.1)

theorem resetVector_aligned : (0xBFC00000#32).extractLsb' 0 2 = 0#2 := by decide

/-- The reset vector is a KSEG1 address of the first byte of the boot ROM. -/
theorem physical_resetVector : (physical 0xBFC00000#32).toNat = romBase := by decide

/-- At the reset vector the bus reads the first four bytes of the loaded image (20_memory.md R93). -/
theorem memRead_resetVector {ram : Memory} {rom : List Byte} (hm : ram.wf = true) (hlen : rom.length = 524288)
    (d : Config.Draws) :
    (State.resetOf d (ram.load romBase rom)).memRead .word 0xBFC00000#32 =
      some (rom[3] ++ rom[2] ++ rom[1] ++ rom[0]) := by
  have hbyte (i : Nat) (hi : i < rom.length) : (State.resetOf d (ram.load romBase rom)).mem.read (romBase + i) = rom[i] :=
    Memory.read_load hm romBase rom i hi
  rw [memRead_rom _ .word (by decide), physical_resetVector]
  simp only [Width.compose, wordOfBytes]
  rw [hbyte 0 (by omega), hbyte 1 (by omega), hbyte 2 (by omega), hbyte 3 (by omega)]

theorem resetOf_fetch {ram : Memory} {rom : List Byte} (hm : ram.wf = true) (hlen : rom.length = 524288)
    (d : Config.Draws) :
    (State.resetOf d (ram.load romBase rom)).beginStep.fetch = some (rom[3] ++ rom[2] ++ rom[1] ++ rom[0]) :=
  beginStep_fetch_of_read resetVector_aligned (memRead_resetVector hm hlen d)

/-- A step that runs LUI with no load pending writes its operand and advances the counter pair (40_alu.md R174). -/
theorem step_lui {s : State} {rt : Reg} {imm : BitVec 16} (hs : s.refused = false) (hi : ¬ s.InterruptDue) {w : Word}
    (hf : s.beginStep.fetch = some w) (hd : decode w = .ok (.lui rt imm)) :
    step s = .next (s.beginStep.advance.writeReg rt (immUpper imm)).ageLoadDelay := by
  rw [step_word hs hi hf, execWord_ok hd]
  rfl

theorem writeReg_ageLoadDelay_reg_self {s : State} (hld : s.ld0 = none) {r : Reg} (hr : r ≠ 0) (v : Word) :
    (s.writeReg r v).ageLoadDelay.reg r = v := by
  have hempty : (s.writeReg r v).ld0 = none := by rw [State.writeReg_ld0, hld, ite_self]
  rw [ageLoadDelay_reg_of_empty hempty, State.writeReg_reg, if_pos ⟨rfl, hr⟩]

/-! ### The isolated cache (R356) -/

/-- While the cache is isolated a store has no effect at all, and nothing else reaches the bus. -/
theorem Effect.sameBus_of_isolated {i : Instr} {s t : State} (h : Effect i s t) (hc : s.sr.getLsbD 16 = true) :
    SameBus s t := by
  cases h with
  | store _ _ _ hgate => rw [hgate hc]; exact ⟨rfl, rfl, rfl⟩
  | write _ _ _ h | link _ _ _ _ _ _ _ h => subst h; constructor <;> simp
  | trap _ h | delayed _ _ h | hiLo _ _ h | branch _ _ _ _ h | status _ _ _ h | softwareBits _ _ _ h | nothing h =>
    subst h; exact ⟨rfl, rfl, rfl⟩

/-- The gate is read in the state the instruction executes in, where Status is still that of the step's start. -/
theorem step_sameBus_of_isolated {s u : State} (h : step s = .next u) (hc : s.sr.getLsbD 16 = true) :
    SameBus s.beginStep u := by
  obtain ⟨t, rfl, ⟨e, rfl⟩ | ⟨e, rfl⟩ | ⟨w, i, -, -, he⟩⟩ := step_effect h
  · exact ⟨rfl, rfl, rfl⟩
  · exact ⟨rfl, rfl, rfl⟩
  · exact { he.sameBus_of_isolated hc with }

/-! ### The obligations -/

/-- Settles O7: the table is `State.resetOf` field by field; the image lies above RAM, so loading it keeps every byte
there. -/
theorem constructionState : Obligations.ConstructionState := by
  intro d ram rom hm
  refine ⟨fun hlen => construct_eq_none hlen d ram, fun hlen => ⟨_, construct_of_length hlen d ram, ?_⟩⟩
  refine ⟨rfl, fun r hr => ?_, rfl, rfl, rfl, rfl, rfl, rfl, rfl, rfl, rfl, rfl, rfl, rfl, rfl, rfl, fun a ha => ?_,
    fun o ho => ?_⟩
  · rw [resetOf_reg d _ hr]
    exact ⟨rfl, d.gprNonZero⟩
  · exact Memory.read_load_other ram romBase a rom (.inl (by unfold romBase; omega))
  · exact Memory.read_load hm romBase rom o ho

/-- Settles O8: the reset state is `State.resetOf` with an empty memory list. -/
theorem resetSatisfiesInvariant : Obligations.ResetSatisfiesInvariant := resetOf_inv Config.draws rfl rfl

/-- Settles O9: the word read at the reset vector is fetched, since no interrupt is due, and a `lui` commits its operand in
the first step, since no load is pending. -/
theorem bootFetchesFirstImageWord : Obligations.BootFetchesFirstImageWord := by
  intro d ram rom s hm hs
  obtain ⟨hlen, rfl⟩ := construct_eq_some hs
  have hdue := resetOf_not_interruptDue d (ram.load romBase rom)
  have hfetch := resetOf_fetch hm hlen d
  refine ⟨hlen, hdue, memRead_resetVector hm hlen d, hfetch, rfl, rfl, fun hword => ?_⟩
  have hlui : decode (rom[3] ++ rom[2] ++ rom[1] ++ rom[0]) = .ok (.lui 8 0x0013#16) := by rw [hword]; rfl
  refine ⟨_, step_lui rfl hdue hfetch hlui, ?_, ?_, ?_⟩
  · exact writeReg_ageLoadDelay_reg_self rfl (by decide) _
  · exact State.writeReg_pc ..
  · exact State.writeReg_npc ..

/-- Settles O34: the step began with an empty list of events and reaches nothing on the bus; a load and a fetch read memory
and the cache-control register, never Status. -/
theorem isolatedStepKeepsMemory : Obligations.IsolatedStepKeepsMemory := by
  refine ⟨fun s t h hc => ?_, fun s sr w va => ⟨memRead_congr rfl rfl w va, rfl⟩⟩
  have hsame : SameBus s.beginStep t := step_sameBus_of_isolated h hc
  exact ⟨hsame.mem, hsame.ccr, hsame.diag, hsame.readByte⟩

end Sys2Proof.Machine
end
